-- ==== Sys2Proof/Word.lean ====
section
/-! DEFINITION. The words of this hardware: the byte, the 32-bit register word, the pixel, the slot number. -/

namespace Sys2Proof

/-- A byte: bit 7 is the most significant (rule R12). -/
abbrev Byte := BitVec 8

/-- A 32-bit unsigned register, WIDTH or HEIGHT (rules R29, R30). -/
abbrev Word := BitVec 32

/-- A cache slot number, 0 to 63 (rule R23). -/
abbrev Slot := Fin 64

/-- A pixel: four independent 8-bit channels, equal only when all four are (rule R12). -/
structure Pixel where
  r : Byte
  g : Byte
  b : Byte
  a : Byte
deriving DecidableEq, Repr

end Sys2Proof
end

