-- ==== Sys2Proof/Config.lean ====
section
/-! DEFINITION. What is fixed for one machine: the constants of rules R8 and R10, and the two open parameters of rules R9 and R54. -/

namespace Sys2Proof

/-- The 4 bytes of `MAGIC`, a parameter of the hardware (rule R9). -/
structure Magic where
  m0 : Byte
  m1 : Byte
  m2 : Byte
  m3 : Byte
deriving DecidableEq, Repr

/-- The open parameters of an engine: `MAGIC` (rule R9) and `OUT_CAP`, none for unbounded (rule R54). -/
structure Config where
  magic : Magic
  outCap : Option Nat
deriving DecidableEq, Repr

/-- The defaults the spec recommends: "qoif" (rule R9, PRESUMED, log 1) and unbounded (rule R54, log 2).
Unsafe only where a claim names these values. -/
def Config.standard : Config where
  magic := ⟨0x71, 0x6F, 0x69, 0x66⟩
  outCap := none

/-- DEFAULT_PIXEL, opaque black (rule R10). -/
def Config.defaultPixel : Pixel := ⟨0, 0, 0, 255⟩

/-- The header's length in bytes (rule R8). -/
def Config.headerBytes : Nat := 14

/-- The longest run one chunk stands for (rule R8). -/
def Config.maxRun : Nat := 62

end Sys2Proof
end

