-- ==== Sys2Proof/Syntax.lean ====
section
/-! DEFINITION. The instructions: six chunks, the header object, six command codes; one constructor per row of the opcode table. -/

namespace Sys2Proof

/-- Where an instruction's word stands: the body, stream bytes 0 to 13, or the CMD register. -/
inductive Space where
  | body
  | header
  | command
deriving DecidableEq, Repr

/-- The instruction set. Deltas are the values after the bias is removed (rule R92). -/
inductive Instr where
  /-- INDEX `slot` (rules R84, R182). -/
  | index (slot : Slot)
  /-- DIFF `dr, dg, db` (rules R85, R183). -/
  | diff (dr dg db : Int)
  /-- LUMA `dg, dr - dg, db - dg` (rules R86, R184). -/
  | luma (dg drDg dbDg : Int)
  /-- RGB `r, g, b` (rules R87, R185). -/
  | rgb (r g b : Byte)
  /-- RGBA `r, g, b, a` (rules R88, R186). -/
  | rgba (r g b a : Byte)
  /-- RUN `count` (rules R89, R187). -/
  | run (count : Nat)
  /-- HEADER `width, height, channels, colorspace` (rules R81, R122). -/
  | header (width height : Word) (channels colorspace : Byte)
  /-- CMD code 0 (rule R216). -/
  | nop
  /-- CMD code 1 (rule R211). -/
  | enc
  /-- CMD code 2 (rule R212). -/
  | dec
  /-- CMD code 3 (rule R213). -/
  | decBody
  /-- CMD code 4 (rule R214). -/
  | encHdr
  /-- CMD code 5 (rule R215). -/
  | decHdr
deriving DecidableEq, Repr

/-- The space an instruction's word stands in. -/
def Instr.space : Instr → Space
  | .index _ => .body
  | .diff _ _ _ => .body
  | .luma _ _ _ => .body
  | .rgb _ _ _ => .body
  | .rgba _ _ _ _ => .body
  | .run _ => .body
  | .header _ _ _ _ => .header
  | .nop => .command
  | .enc => .command
  | .dec => .command
  | .decBody => .command
  | .encHdr => .command
  | .decHdr => .command

/-- An instruction's length in bytes (rules R80, R91); a command code fills one byte here, its 3 bits the low ones. -/
def Instr.byteLength : Instr → Nat
  | .index _ => 1
  | .diff _ _ _ => 1
  | .luma _ _ _ => 2
  | .rgb _ _ _ => 4
  | .rgba _ _ _ _ => 5
  | .run _ => 1
  | .header _ _ _ _ => 14
  | .nop => 1
  | .enc => 1
  | .dec => 1
  | .decBody => 1
  | .encHdr => 1
  | .decHdr => 1

end Sys2Proof
end

