-- ==== Sys2Proof/WellFormed.lean ====
section
/-! DEFINITION. Which operands spell an instruction: the ranges of rule R95 and the legal tags of rules R31 and R32. -/

namespace Sys2Proof

/-- A CHANNELS value is 3 or 4 (rule R31). -/
def legalChannels (c : Byte) : Bool := c == 3 || c == 4

/-- A COLORSPACE value is 0 or 1 (rule R32). -/
def legalColorspace (c : Byte) : Bool := c == 0 || c == 1

/-- `lo ≤ x ≤ hi`. -/
def within (lo hi x : Int) : Bool := decide (lo ≤ x) && decide (x ≤ hi)

/-- The operand ranges of rule R95. -/
def Instr.wellFormed : Instr → Bool
  | .index _ => true
  | .diff dr dg db => within (-2) 1 dr && within (-2) 1 dg && within (-2) 1 db
  | .luma dg drDg dbDg => within (-32) 31 dg && within (-8) 7 drDg && within (-8) 7 dbDg
  | .rgb _ _ _ => true
  | .rgba _ _ _ _ => true
  | .run count => decide (1 ≤ count) && decide (count ≤ Config.maxRun)
  | .header _ _ channels colorspace => legalChannels channels && legalColorspace colorspace
  | .nop => true
  | .enc => true
  | .dec => true
  | .decBody => true
  | .encHdr => true
  | .decHdr => true

/-- The instruction's operands are in range. -/
abbrev Instr.WellFormed (i : Instr) : Prop := i.wellFormed = true

end Sys2Proof
end

