-- ==== Sys2Proof/Decode.lean ====
section
/-! DEFINITION. The decoder, total on any bytes and rejecting by name (rules R82 to R93, R122), and the encoder (rules R84 to R89, R120). -/

namespace Sys2Proof

/-- Why bytes are no instruction. -/
inductive Reject where
  /-- There is no byte to decode. -/
  | noBytes
  /-- A multi-byte chunk's bytes end early (rule R181). -/
  | truncatedChunk
  /-- Fewer than 14 header bytes (rule R122, cause 1). -/
  | truncatedHeader
  /-- The first four bytes are not MAGIC (rule R122, cause 2). -/
  | badMagic
  /-- Byte 12 is not 3 or 4 (rule R122, cause 3). -/
  | badChannels
  /-- Byte 13 is not 0 or 1 (rule R122, cause 4). -/
  | badColorspace
  /-- A CMD code 6 or 7 (rule R26), or a value that 3 bits do not hold. -/
  | reservedCommand
deriving DecidableEq, Repr

/-- `b[hi:lo]` of rule R12, the unsigned integer of bits hi down to lo. -/
def bits (b : Byte) (hi lo : Nat) : Nat := b.toNat / 2 ^ lo % 2 ^ (hi + 1 - lo)

/-- `chunk_len` (rule R91). -/
def chunkLen (b0 : Byte) : Nat :=
  if b0 = 0xFE then 4
  else if b0 = 0xFF then 5
  else if bits b0 7 6 = 2 then 2
  else 1

/-- Index's field: the low 6 bits (rule R84). -/
def slotField (b0 : Byte) : Slot := Fin.ofNat 64 (bits b0 5 0)

/-- One chunk off the front of a body: the two full-byte tags first, then the top two bits (rule R82). -/
def decodeChunk : List Byte → Except Reject (Instr × List Byte)
  | [] => .error .noBytes
  | b0 :: rest =>
    if b0 = 0xFE then
      match rest with
      | r :: g :: b :: rest => .ok (.rgb r g b, rest)
      | _ => .error .truncatedChunk
    else if b0 = 0xFF then
      match rest with
      | r :: g :: b :: a :: rest => .ok (.rgba r g b a, rest)
      | _ => .error .truncatedChunk
    else if bits b0 7 6 = 0 then
      .ok (.index (slotField b0), rest)
    else if bits b0 7 6 = 1 then
      .ok (.diff (bits b0 5 4 - 2) (bits b0 3 2 - 2) (bits b0 1 0 - 2), rest)
    else if bits b0 7 6 = 2 then
      match rest with
      | b1 :: rest => .ok (.luma (bits b0 5 0 - 32) (bits b1 7 4 - 8) (bits b1 3 0 - 8), rest)
      | _ => .error .truncatedChunk
    else
      .ok (.run (bits b0 5 0 + 1), rest)

/-- `be32` (rule R12): most significant byte first. -/
def be32 (v : Word) : List Byte :=
  [v.extractLsb' 24 8, v.extractLsb' 16 8, v.extractLsb' 8 8, v.extractLsb' 0 8]

/-- `unbe32` (rule R12). -/
def unbe32 (b0 b1 b2 b3 : Byte) : Word :=
  BitVec.ofNat 32 (b0.toNat * 2 ^ 24 + b1.toNat * 2 ^ 16 + b2.toNat * 2 ^ 8 + b3.toNat)

/-- `MAGIC` as its byte sequence (rule R9). -/
def Magic.bytes (m : Magic) : List Byte := [m.m0, m.m1, m.m2, m.m3]

/-- `decode_header` (rule R122): truncated, magic, channel tag, colorspace tag, in this order (rule R239). -/
def decodeHeader (m : Magic) : List Byte → Except Reject (Instr × List Byte)
  | b0 :: b1 :: b2 :: b3 :: w0 :: w1 :: w2 :: w3 :: h0 :: h1 :: h2 :: h3 :: c :: cs :: rest =>
    if [b0, b1, b2, b3] ≠ m.bytes then .error .badMagic
    else if ¬ legalChannels c then .error .badChannels
    else if ¬ legalColorspace cs then .error .badColorspace
    else .ok (.header (unbe32 w0 w1 w2 w3) (unbe32 h0 h1 h2 h3) c cs, rest)
  | _ => .error .truncatedHeader

/-- The command a 3-bit CMD code names (rule R26); codes 6 and 7 name none. -/
def decodeCommand (code : BitVec 3) : Except Reject Instr :=
  if code = 0 then .ok .nop
  else if code = 1 then .ok .enc
  else if code = 2 then .ok .dec
  else if code = 3 then .ok .decBody
  else if code = 4 then .ok .encHdr
  else if code = 5 then .ok .decHdr
  else .error .reservedCommand

/-- A CMD code held in the low 3 bits of a byte whose other bits are 0. -/
def decodeCommandByte : List Byte → Except Reject (Instr × List Byte)
  | [] => .error .noBytes
  | b :: rest =>
    if b.toNat < 8 then
      match decodeCommand (b.setWidth 3) with
      | .ok i => .ok (i, rest)
      | .error e => .error e
    else .error .reservedCommand

/-- The decoder: one instruction of the named space off the front of a byte sequence. -/
def decode (m : Magic) : Space → List Byte → Except Reject (Instr × List Byte)
  | .body, bs => decodeChunk bs
  | .header, bs => decodeHeader m bs
  | .command, bs => decodeCommandByte bs

/-- A biased field, as the byte that holds it in its low bits (rules R13, R92). -/
def biased (x bias : Int) : Byte := BitVec.ofInt 8 (x + bias)

/-- `encode_header` (rule R120). -/
def encodeHeader (m : Magic) (width height : Word) (channels colorspace : Byte) : List Byte :=
  m.bytes ++ be32 width ++ be32 height ++ [channels, colorspace]

/-- The bytes of an instruction (rules R84 to R89, R120); a command is its CMD code (rule R26). -/
def encode (m : Magic) : Instr → List Byte
  | .index slot => [BitVec.ofNat 8 slot.val]
  | .diff dr dg db => [0x40#8 ||| biased dr 2 <<< 4 ||| biased dg 2 <<< 2 ||| biased db 2]
  | .luma dg drDg dbDg => [0x80#8 ||| biased dg 32, biased drDg 8 <<< 4 ||| biased dbDg 8]
  | .rgb r g b => [0xFE, r, g, b]
  | .rgba r g b a => [0xFF, r, g, b, a]
  | .run count => [0xC0#8 ||| BitVec.ofNat 8 (count - 1)]
  | .header w h c cs => encodeHeader m w h c cs
  | .nop => [0]
  | .enc => [1]
  | .dec => [2]
  | .decBody => [3]
  | .encHdr => [4]
  | .decHdr => [5]

/-- The first `n` bytes of the number `w`, its least significant byte first: the numbering of spec/opcode_table.json. -/
def tableBytes (n w : Nat) : List Byte := (List.range n).map fun k => BitVec.ofNat 8 (w / 2 ^ (8 * k))

/-- The space a word of the opcode table is read in. DESIGN CHOICE (log 9): the table's number does not say it.
A word of header length is a header, one under a byte or one of the command codes 1 to 5 a command, every other a chunk. -/
def tableSpace (nbits w : Nat) : Space :=
  if 8 * Config.headerBytes ≤ nbits then .header
  else if nbits < 8 then .command
  else if nbits = 8 ∧ 1 ≤ w ∧ w ≤ 5 then .command
  else .body

/-- The instruction the decoder reads from a word of the opcode table, zeros following it up to the longest instruction. -/
def decodeTableWord (nbits w : Nat) : Option Instr :=
  match decode Config.standard.magic (tableSpace nbits w) (tableBytes Config.headerBytes (w % 2 ^ nbits)) with
  | .ok (i, _) => some i
  | .error _ => none

end Sys2Proof
end

