-- ==== Sys2Proof/Machine/State.lean ====
section
/-! DEFINITION. The machine's state as plain data (rule R20), its reset value (rule R37), and the ways a step can stop. -/

namespace Sys2Proof.Machine

/-- STATUS (rule R27): the four values of its 2 bits. -/
inductive Status where
  /-- 0: no command since reset. -/
  | idle
  /-- 1: a command is executing. -/
  | busy
  /-- 2: the last command ended without error. -/
  | done
  /-- 3: the last command ended with an exception. -/
  | error
deriving DecidableEq, Repr

/-- Which of rule R217's steps a BUSY engine takes next: the entry action, or a chunk step and after the last one the end action
(log 3). -/
inductive Phase where
  | entry
  | chunks
deriving DecidableEq, Repr

/-- The commands that run, by CMD code 1 to 5 (rule R26). -/
inductive Command where
  | enc
  | dec
  | decBody
  | encHdr
  | decHdr
deriving DecidableEq, Repr

/-- A move of the host (rules R25, R217, R263). It has none on STATUS, ERR and OUT_LEN, which are read-only to it,
nor on `prev`, `pos` and the cache, which it cannot reach. -/
inductive HostMove where
  | writeCmd (code : BitVec 3)
  | writeWidth (v : Word)
  | writeHeight (v : Word)
  | writeChannels (v : Byte)
  | writeColorspace (v : Byte)
  | writeInLen (n : Nat)
  /-- Put pixels in PIX_IN from the given index on. -/
  | putPixels (index : Nat) (ps : List Pixel)
  /-- Put bytes in BYTE_IN from the given index on. -/
  | putBytes (index : Nat) (bs : List Byte)
deriving DecidableEq, Repr

/-- A buffer's elements by index, indices strictly rising; an index not listed holds no value (log 6).
`Buffer Byte` is a list of `Host.Cell`. -/
abbrev Buffer (α : Type) := List (Nat × α)

/-- The canonical form of a buffer. -/
abbrev Buffer.wf {α : Type} (b : Buffer α) : Prop := List.Pairwise (fun x y => x.1 < y.1) b

/-- The four buffers, all the engine reaches (rule R36). -/
structure Memory where
  /-- PIX_IN (rule R50). -/
  pixIn : Buffer Pixel
  /-- BYTE_OUT (rule R51). -/
  byteOut : Buffer Byte
  /-- BYTE_IN (rule R52). -/
  byteIn : Buffer Byte
  /-- PIX_OUT (rule R53). -/
  pixOut : Buffer Pixel
deriving DecidableEq, Repr

/-- Every buffer is in canonical form. -/
abbrev Memory.wf (m : Memory) : Prop :=
  Buffer.wf m.pixIn ∧ Buffer.wf m.byteOut ∧ Buffer.wf m.byteIn ∧ Buffer.wf m.pixOut

/-- The whole state: the tuple of rule R20, the command's phase (log 3), and the model's own inputs (logs 1, 2, 4, 5). -/
structure State where
  /-- The previous pixel (rule R21). -/
  prev : Pixel
  /-- The scan position (rule R22). -/
  pos : Nat
  /-- The running cache (rule R23). -/
  cache : Vector Pixel 64
  /-- CMD, register 0 (rule R26). -/
  cmd : BitVec 3
  /-- STATUS, register 1 (rule R27). -/
  status : Status
  /-- ERR, register 2 (rule R28). -/
  err : BitVec 5
  /-- WIDTH, register 3 (rule R29). -/
  width : Word
  /-- HEIGHT, register 4 (rule R30). -/
  height : Word
  /-- CHANNELS, register 5 (rule R31). -/
  channels : Byte
  /-- COLORSPACE, register 6 (rule R32). -/
  colorspace : Byte
  /-- IN_LEN, register 7 (rule R33). -/
  inLen : Nat
  /-- OUT_LEN, register 8 (rule R33). -/
  outLen : Nat
  /-- PIX_IN, BYTE_OUT, BYTE_IN, PIX_OUT (rules R50 to R53). -/
  mem : Memory
  /-- Where the running command stands (rule R217, log 3). -/
  phase : Phase
  /-- The host's moves to come, oldest first (log 4). -/
  hostMoves : List HostMove
  /-- Hardware reset is being applied (rule R260, log 5). -/
  resetAsserted : Bool
  /-- MAGIC and OUT_CAP, fixed for the machine (rules R9, R54, logs 1, 2). -/
  cfg : Config
deriving DecidableEq, Repr

/-- The engine never stops with a fault: its three exceptions are taken (rule R237), and the spec treats no behaviour as
`stuck` and none as `fault` beyond those three (93_implementation_defined.md). -/
inductive Fault where
deriving DecidableEq, Repr

/-- What the model gives no meaning. Each is safe: the spec's own treatment is `refuse`. -/
inductive Refusal where
  /-- An instruction whose meaning is not written: raised by `exec` only. -/
  | notModelled (mnemonic : String)
  /-- The host writes while STATUS is BUSY (U9): raised by the host's moves and the commands. -/
  | hostWriteWhileBusy
  /-- A CMD code 6 or 7 (U10): raised by the CMD write, and by a BUSY engine whose CMD names no command (no run reaches that). -/
  | reservedCommand
  /-- ENC or ENC_HDR with CHANNELS not 3 or 4, or COLORSPACE not 0 or 1 (U3): raised by these two commands. -/
  | illegalTag
  /-- An input element below IN_LEN that the host never placed (U5): raised by every read of PIX_IN or BYTE_IN. -/
  | inputElementAbsent
  /-- An Append that would pass OUT_CAP (U6): raised by every Append of a bounded engine. -/
  | outCapExceeded
deriving DecidableEq, Repr

/-- The outcome of a step of this machine. -/
abbrev Result := Host.Outcome State Fault Refusal

/-- The state after hardware reset (rules R37, R260). -/
def State.reset : State where
  prev := Config.defaultPixel
  pos := 0
  cache := Vector.replicate 64 Config.defaultPixel
  cmd := 0
  status := .idle
  err := 0
  width := 0
  height := 0
  channels := 0
  colorspace := 0
  inLen := 0
  outLen := 0
  mem := ⟨[], [], [], []⟩
  phase := .entry
  hostMoves := []
  resetAsserted := false
  cfg := Config.standard

end Sys2Proof.Machine
end

