-- ==== Sys2Proof/Machine/Flags.lean ====
section
/-! DEFINITION. The hardware has no arithmetic flags (rule R24); here are the codes of STATUS (rule R27), ERR (rules R28, R235) and CMD (rule R26). -/

namespace Sys2Proof.Machine

/-- The four causes of a FormatError (rule R231). -/
inductive FormatCause where
  | truncated
  | magic
  | channels
  | colorspace
deriving DecidableEq, Repr

/-- The closed set of exceptions (rule R230). -/
inductive Exc where
  | formatError (cause : FormatCause)
  | sizeMismatch
  | decodeError
deriving DecidableEq, Repr

/-- STATUS as the host reads it (rule R27). -/
def statusCode : Status → BitVec 2
  | .idle => 0
  | .busy => 1
  | .done => 2
  | .error => 3

/-- `ERR[4:2]` of a FormatError (rule R28). -/
def causeCode : FormatCause → BitVec 3
  | .truncated => 1
  | .magic => 2
  | .channels => 3
  | .colorspace => 4

/-- `ERR[1:0]` (rule R28). -/
def excKind : Exc → BitVec 2
  | .formatError _ => 1
  | .sizeMismatch => 2
  | .decodeError => 3

/-- `ERR[4:2]`: the cause of a FormatError, 0 for every other kind (rules R28, R237). -/
def excCause : Exc → BitVec 3
  | .formatError cause => causeCode cause
  | .sizeMismatch => 0
  | .decodeError => 0

/-- The ERR value of an exception (rules R28, R235). -/
def errCode (x : Exc) : BitVec 5 := excCause x ++ excKind x

/-- The FormatError a rejected header raises (rule R122). The decoder of headers never answers the last three. -/
def headerCause : Reject → FormatCause
  | .truncatedHeader => .truncated
  | .badMagic => .magic
  | .badChannels => .channels
  | .badColorspace => .colorspace
  | .noBytes => .truncated
  | .truncatedChunk => .truncated
  | .reservedCommand => .truncated

/-- The CMD code of a command (rule R26). -/
def commandCode : Command → BitVec 3
  | .enc => 1
  | .dec => 2
  | .decBody => 3
  | .encHdr => 4
  | .decHdr => 5

/-- The command a CMD code runs: none for NOP and for the reserved codes (rule R26). -/
def commandOf (code : BitVec 3) : Option Command :=
  if code = 1 then some .enc
  else if code = 2 then some .dec
  else if code = 3 then some .decBody
  else if code = 4 then some .encHdr
  else if code = 5 then some .decHdr
  else none

end Sys2Proof.Machine
end

