-- ==== Sys2Proof/Machine/Operands.lean ====
section
/-! DEFINITION. Channel arithmetic (rule R13), pixels built from deltas (rules R183, R184), the pixel hasher (rule R130), packing (rule R66). -/

namespace Sys2Proof.Machine

/-- `wrap8` (rule R13): the integer modulo 256. -/
def wrap8 (x : Int) : Byte := BitVec.ofInt 8 x

/-- `s8` (rule R13): the integer modulo 256, read as -128 to 127. -/
def s8 (x : Int) : Int :=
  if 128 ≤ (wrap8 x).toNat then (wrap8 x).toNat - 256 else (wrap8 x).toNat

/-- `delta` (rule R13): byte-wraparound subtraction reinterpreted as signed. -/
def delta (c p : Byte) : Int := s8 (c.toNat - p.toNat)

/-- `apply` (rule R13): previous plus delta with byte wraparound. -/
def applyDelta (p : Byte) (d : Int) : Byte := wrap8 (p.toNat + d)

/-- Red, green and blue moved by their deltas, alpha inherited (rules R183, R184). -/
def moveBy (p : Pixel) (dr dg db : Int) : Pixel :=
  ⟨applyDelta p.r dr, applyDelta p.g dg, applyDelta p.b db, p.a⟩

/-- `pixel_hasher` (rule R130): every product and sum wraps at 8 bits, then modulo 64. -/
def pixelHash (p : Pixel) : Slot := Fin.ofNat 64 (3 * p.r + 5 * p.g + 7 * p.b + 11 * p.a).toNat

/-- A pixel as one 32-bit word, for implementations (rule R66). -/
def packPixel (p : Pixel) : Word := p.r ++ p.g ++ p.b ++ p.a

/-- The pixel a 32-bit word holds (rule R66). -/
def unpackPixel (w : Word) : Pixel :=
  ⟨w.extractLsb' 24 8, w.extractLsb' 16 8, w.extractLsb' 8 8, w.extractLsb' 0 8⟩

end Sys2Proof.Machine
end

