-- ==== Sys2Proof/Machine/Ops.lean ====
section
/-! DEFINITION. The named operations every meaning is built from: buffers (rule R14), the cache (rules R131 to R134), Append, starting, ending and failing a command. -/

namespace Sys2Proof.Machine

/-! ### Buffers -/

/-- One element, none where nothing was placed. -/
def Buffer.read {α : Type} : Buffer α → Nat → Option α
  | [], _ => none
  | (k, v) :: rest, i => if k = i then some v else Buffer.read rest i

/-- Put one element, keeping the canonical form. -/
def Buffer.write {α : Type} : Buffer α → Nat → α → Buffer α
  | [], i, x => [(i, x)]
  | (k, v) :: rest, i, x =>
    if i < k then (i, x) :: (k, v) :: rest
    else if i = k then (i, x) :: rest
    else (k, v) :: Buffer.write rest i x

/-- `MemRead(SPACE, i, n)` (rule R14): n consecutive elements, defined only when all are there. -/
def Buffer.readSeq {α : Type} (b : Buffer α) : Nat → Nat → Option (List α)
  | _, 0 => some []
  | i, n + 1 =>
    match Buffer.read b i, Buffer.readSeq b (i + 1) n with
    | some x, some xs => some (x :: xs)
    | _, _ => none

/-- `MemWrite(SPACE, i, len(seq), seq)` (rule R14). -/
def Buffer.writeSeq {α : Type} : Buffer α → Nat → List α → Buffer α
  | b, _, [] => b
  | b, i, x :: xs => Buffer.writeSeq (Buffer.write b i x) (i + 1) xs

/-! ### The running cache -/

/-- `lookup` (rule R131): the slot only if it holds exactly the pixel. -/
def cacheLookup (slots : Vector Pixel 64) (p : Pixel) : Option Slot :=
  if slots[pixelHash p] = p then some (pixelHash p) else none

/-- `insert` (rule R132): overwrites the pixel's hash slot. -/
def cacheInsert (slots : Vector Pixel 64) (p : Pixel) : Vector Pixel 64 := slots.set (pixelHash p) p

/-- `get` (rule R133). -/
def cacheGet (slots : Vector Pixel 64) (slot : Slot) : Pixel := slots[slot]

/-- `cache_init` (rule R134). -/
def freshCache : Vector Pixel 64 := Vector.replicate 64 Config.defaultPixel

/-! ### Append and OUT_CAP -/

/-- Whether the output buffer takes `n` more elements (rule R54). -/
def State.fits (s : State) (n : Nat) : Bool :=
  match s.cfg.outCap with
  | none => true
  | some cap => decide (s.outLen + n ≤ cap)

/-- The state after `Append(PIX_OUT, ps)` (rule R14). -/
def State.pushPixels (s : State) (ps : List Pixel) : State :=
  { s with
    mem := { s.mem with pixOut := Buffer.writeSeq s.mem.pixOut s.outLen ps }
    outLen := s.outLen + ps.length }

/-- The state after `Append(BYTE_OUT, bs)` (rule R14). -/
def State.pushBytes (s : State) (bs : List Byte) : State :=
  { s with
    mem := { s.mem with byteOut := Buffer.writeSeq s.mem.byteOut s.outLen bs }
    outLen := s.outLen + bs.length }

/-- `Append(PIX_OUT, ps)`, refused where it would pass OUT_CAP (rules R14, R54). -/
def appendPixels (ps : List Pixel) (s : State) : Result :=
  if s.fits ps.length then .next (s.pushPixels ps) else .refused .outCapExceeded

/-- `Append(BYTE_OUT, bs)`, refused where it would pass OUT_CAP (rules R14, R54). -/
def appendBytes (bs : List Byte) (s : State) : Result :=
  if s.fits bs.length then .next (s.pushBytes bs) else .refused .outCapExceeded

/-! ### The life of a command -/

/-- The running command, by CMD (rule R243). -/
def State.running (s : State) : Option Command := commandOf s.cmd

/-- Starting a command (rule R210): `ERR <- 0; OUT_LEN <- 0; STATUS <- BUSY`, with its code in CMD. -/
def State.started (s : State) (c : Command) : State :=
  { s with cmd := commandCode c, err := 0, outLen := 0, status := .busy, phase := .entry }

/-- A command's start, refused while one runs (rules R25, R210, U9). -/
def startCommand (c : Command) (s : State) : Result :=
  if s.status = .busy then .refused .hostWriteWhileBusy else .next (s.started c)

/-- CHANNELS and COLORSPACE hold legal tags (rules R31, R32). -/
def State.tagsLegal (s : State) : Bool := legalChannels s.channels && legalColorspace s.colorspace

/-- The start of a command that writes a header: refused with an illegal tag register (rules R31, R32, U3). -/
def startWithTags (c : Command) (s : State) : Result :=
  if s.status = .busy then .refused .hostWriteWhileBusy
  else if s.tagsLegal then .next (s.started c)
  else .refused .illegalTag

/-- Per-invocation initialisation (rule R261): `prev <- DEFAULT_PIXEL; cache_init(); pos <- 0; OUT_LEN <- 0`;
the chunk steps follow. -/
def State.initialised (s : State) : State :=
  { s with prev := Config.defaultPixel, cache := freshCache, pos := 0, outLen := 0, phase := .chunks }

/-- The end action (rules R210, R217): `STATUS <- DONE`. -/
def State.finished (s : State) : State := { s with status := .done }

/-- TAKING AN EXCEPTION (rule R237): the command stops, ERR holds kind and cause, `OUT_LEN <- 0`, `STATUS <- ERROR`.
Nothing is saved and control goes nowhere. -/
def State.raised (s : State) (x : Exc) : State :=
  { s with err := errCode x, outLen := 0, status := .error }

/-- `raise x`, as an outcome: a next state (rule R237). There is no return from it (rule R241): the next command starts afresh. -/
def raise (x : Exc) (s : State) : Result := .next (s.raised x)

/-! ### The body being decoded -/

/-- Where the body starts in BYTE_IN: 14 for DEC, 0 for DEC_BODY (rules R58, R212, R213). -/
def State.bodyBase (s : State) : Nat := if s.running = some .dec then Config.headerBytes else 0

/-- `blen` (rules R58, R212, R213). -/
def State.bodyLen (s : State) : Nat := s.inLen - s.bodyBase

/-- The availability check (rule R181): a chunk of `n` bytes that the body does not hold whole raises DecodeError. -/
def ifAvailable (n : Nat) (s : State) (k : Result) : Result :=
  if s.pos + n ≤ s.bodyLen then k else raise .decodeError s

/-- `insert(p)` (rule R132). -/
def State.inserted (s : State) (p : Pixel) : State := { s with cache := cacheInsert s.cache p }

/-- `prev <- p; pos <- pos + n` (rules R160, R188). -/
def State.stepped (s : State) (p : Pixel) (n : Nat) : State := { s with prev := p, pos := s.pos + n }

/-- A decoded chunk of `n` bytes that inserts its pixel: `insert(px); Append(PIX_OUT, [px]); prev <- px; pos <- pos + n`
(rules R183 to R186). -/
def emitInserted (px : Pixel) (n : Nat) (s : State) : Result :=
  appendPixels [px] ((s.inserted px).stepped px n)

/-- Writing the four header registers (rule R122). -/
def State.headerWritten (s : State) (w h : Word) (c cs : Byte) : State :=
  { s with width := w, height := h, channels := c, colorspace := cs }

end Sys2Proof.Machine
end

