-- ==== Sys2Proof/Machine/Chunks.lean ====
section
/-! DEFINITION. chunk_decoder_fsm: the meaning of each chunk of a body (rules R182 to R188). -/

namespace Sys2Proof.Machine

/-- INDEX (rule R182): the slot's pixel; the cache is not written. -/
def execIndex (slot : Slot) (s : State) : Result :=
  appendPixels [cacheGet s.cache slot] (s.stepped (cacheGet s.cache slot) 1)

/-- DIFF (rule R183). -/
def execDiff (dr dg db : Int) (s : State) : Result :=
  emitInserted (moveBy s.prev dr dg db) 1 s

/-- LUMA (rule R184): red and blue are relative to green. -/
def execLuma (dg drDg dbDg : Int) (s : State) : Result :=
  ifAvailable 2 s (emitInserted (moveBy s.prev (drDg + dg) dg (dbDg + dg)) 2 s)

/-- RGB (rule R185): alpha is forced to 255, not inherited. -/
def execRgb (r g b : Byte) (s : State) : Result :=
  ifAvailable 4 s (emitInserted ⟨r, g, b, 255⟩ 4 s)

/-- RGBA (rule R186). -/
def execRgba (r g b a : Byte) (s : State) : Result :=
  ifAvailable 5 s (emitInserted ⟨r, g, b, a⟩ 5 s)

/-- RUN (rule R187): copies of `prev`; the cache and `prev` are unchanged. -/
def execRun (count : Nat) (s : State) : Result :=
  appendPixels (List.replicate count s.prev) (s.stepped s.prev 1)

end Sys2Proof.Machine
end

