-- ==== Sys2Proof/Machine/Commands.lean ====
section
/-! DEFINITION. The host's command codes (rules R210 to R216): what writing each to CMD does. The entry action, the chunk steps
and the end action of a started command are the engine's own later steps (rule R217): Machine/Sequencer.lean. -/

namespace Sys2Proof.Machine

/-- NOP (rule R216): changes nothing. Written while BUSY it is refused like every host write (rule R25, U9). -/
def execNop (s : State) : Result :=
  if s.status = .busy then .refused .hostWriteWhileBusy else .next s

/-- ENC (rules R210, R211): starts; the tag registers must be legal (U3). -/
def execEnc (s : State) : Result := startWithTags .enc s

/-- DEC (rules R210, R212). -/
def execDec (s : State) : Result := startCommand .dec s

/-- DEC_BODY (rules R210, R213). -/
def execDecBody (s : State) : Result := startCommand .decBody s

/-- ENC_HDR (rules R210, R214): starts; the tag registers must be legal (U3). -/
def execEncHdr (s : State) : Result := startWithTags .encHdr s

/-- DEC_HDR (rules R210, R215). -/
def execDecHdr (s : State) : Result := startCommand .decHdr s

end Sys2Proof.Machine
end

