-- ==== Sys2Proof/Machine/Header.lean ====
section
/-! DEFINITION. The header codec on the decode side: the meaning of a HEADER (rules R122, R212, R215). -/

namespace Sys2Proof.Machine

/-- What follows a parsed header: DEC initialises and goes on to the body (rule R212), DEC_HDR ends (rule R215).
Under any other command the header is only written to the registers (log 11; no run reaches that). -/
def afterHeader (s : State) : State :=
  match s.running with
  | some .dec => s.initialised
  | some .decHdr => s.finished
  | some .enc => s
  | some .decBody => s
  | some .encHdr => s
  | none => s

/-- HEADER (rule R122): an illegal tag raises FormatError, channel tag first (rule R239); else
`WIDTH <- w; HEIGHT <- h; CHANNELS <- c; COLORSPACE <- cs`, and the command goes on. -/
def execHeader (w h : Word) (c cs : Byte) (s : State) : Result :=
  if ¬ legalChannels c then raise (.formatError .channels) s
  else if ¬ legalColorspace cs then raise (.formatError .colorspace) s
  else .next (afterHeader (s.headerWritten w h c cs))

end Sys2Proof.Machine
end

