-- ==== Sys2Proof/Machine/Encoder.lean ====
section
/-! DEFINITION. chunk_encoder_dispatch: which chunk the encoder emits at a position, and its step (rules R150 to R160). -/

namespace Sys2Proof.Machine

/-- What one encoder step chose: the chunk, the last pixel it covers, how many it covers, whether that pixel is inserted. -/
structure Choice where
  chunk : Instr
  pixel : Pixel
  covers : Nat
  inserts : Bool
deriving DecidableEq, Repr

/-- How far a run extends from index `i` on (rule R152): at most `fuel` elements, below IN_LEN, each equal to `p`.
None where an element to be read was never placed. -/
def runExtra (b : Buffer Pixel) (inLen : Nat) (p : Pixel) : Nat → Nat → Option Nat
  | 0, _ => some 0
  | fuel + 1, i =>
    if i < inLen then
      match Buffer.read b i with
      | none => none
      | some q =>
        if q = p then
          match runExtra b inLen p fuel (i + 1) with
          | none => none
          | some extra => some (extra + 1)
        else some 0
    else some 0

/-- The condition of DIFF on the three deltas (rule R156). -/
def diffFits (dr dg db : Int) : Bool := within (-2) 1 dr && within (-2) 1 dg && within (-2) 1 db

/-- The condition of LUMA on the three deltas (rule R157). -/
def lumaFits (dr dg db : Int) : Bool :=
  within (-32) 31 dg && within (-8) 7 (dr - dg) && within (-8) 7 (db - dg)

/-- The delta/literal path (rules R154 to R158): alpha change first, then Diff, Luma, RGB. -/
def literalChunk (prev p : Pixel) : Instr :=
  if p.a ≠ prev.a then .rgba p.r p.g p.b p.a
  else if diffFits (delta p.r prev.r) (delta p.g prev.g) (delta p.b prev.b) then
    .diff (delta p.r prev.r) (delta p.g prev.g) (delta p.b prev.b)
  else if lumaFits (delta p.r prev.r) (delta p.g prev.g) (delta p.b prev.b) then
    .luma (delta p.g prev.g) (delta p.r prev.r - delta p.g prev.g) (delta p.b prev.b - delta p.g prev.g)
  else .rgb p.r p.g p.b

/-- The dispatch of rule R159: run, cache hit, delta/literal path. None where a pixel to be read was never placed. -/
def chooseChunk (s : State) : Option Choice :=
  match Buffer.read s.mem.pixIn s.pos with
  | none => none
  | some p =>
    if p = s.prev then
      match runExtra s.mem.pixIn s.inLen p (Config.maxRun - 1) (s.pos + 1) with
      | none => none
      | some extra => some ⟨.run (extra + 1), p, extra + 1, false⟩
    else
      match cacheLookup s.cache p with
      | some slot => some ⟨.index slot, p, 1, false⟩
      | none => some ⟨literalChunk s.prev p, p, 1, true⟩

/-- The working state after the chosen chunk (rules R132, R160). -/
def State.encoded (s : State) (c : Choice) : State :=
  (if c.inserts then s.inserted c.pixel else s).stepped c.pixel c.covers

/-- `encoder_step` (rule R159): emit the chosen chunk's bytes. -/
def encoderStep (s : State) : Result :=
  match chooseChunk s with
  | none => .refused .inputElementAbsent
  | some c => appendBytes (encode s.cfg.magic c.chunk) (s.encoded c)

/-- The header an encoding command emits (rule R120). -/
def State.headerBytes (s : State) : List Byte :=
  encodeHeader s.cfg.magic s.width s.height s.channels s.colorspace

/-- The size check (rule R150): the exact product, no wrap. -/
def State.sizeMatches (s : State) : Bool := s.inLen == s.width.toNat * s.height.toNat

/-- ENC's entry action (rules R151, R217): size check, initialisation, header. -/
def encEntry (s : State) : Result :=
  if s.sizeMatches then appendBytes s.headerBytes s.initialised else raise .sizeMismatch s

/-- ENC_HDR's one step (rules R214, R217): the header, and done. -/
def encHdrEntry (s : State) : Result := appendBytes s.headerBytes s.finished

/-- ENC's later steps (rules R151, R217): a chunk step while pixels remain, then the end action. -/
def encChunks (s : State) : Result :=
  if s.pos < s.inLen then encoderStep s else .next s.finished

end Sys2Proof.Machine
end

