-- ==== Sys2Proof/Machine/Sequencer.lean ====
section
/-! DEFINITION. What the machine does next (rule R217): a host move, an engine step of its own, or an instruction fetched from
CMD, from the stream's header or from the body. Step.lean runs the fetched instruction. -/

namespace Sys2Proof.Machine

/-- What a step does: an instruction run in the state after its fetch, or an outcome that is no instruction's. -/
inductive Action where
  | run (i : Instr) (s : State)
  | outcome (o : Result)

/-- Hardware reset (rules R37, R260): every register and the working state at its reset value, the output buffers empty, the input
buffers unspecified, that is, with no value (log 6). The host's later moves and the parameters are not the engine's (log 5). -/
def State.hardwareReset (s : State) : State :=
  { State.reset with hostMoves := s.hostMoves, cfg := s.cfg }

/-- A host move (rules R25, R26, R263): refused while BUSY (U9); a CMD write fetches the command its code names. -/
def hostMove (m : HostMove) (s : State) : Action :=
  if s.status = .busy then .outcome (.refused .hostWriteWhileBusy)
  else
    match m with
    | .writeCmd code =>
      match decodeCommand code with
      | .ok i => .run i { s with cmd := code }
      | .error _ => .outcome (.refused .reservedCommand)
    | .writeWidth v => .outcome (.next { s with width := v })
    | .writeHeight v => .outcome (.next { s with height := v })
    | .writeChannels v => .outcome (.next { s with channels := v })
    | .writeColorspace v => .outcome (.next { s with colorspace := v })
    | .writeInLen n => .outcome (.next { s with inLen := n })
    | .putPixels i ps =>
      .outcome (.next { s with mem := { s.mem with pixIn := Buffer.writeSeq s.mem.pixIn i ps } })
    | .putBytes i bs =>
      .outcome (.next { s with mem := { s.mem with byteIn := Buffer.writeSeq s.mem.byteIn i bs } })

/-- An engine that is not BUSY: the host's next move, or nothing happens (rules R217, R248, R262). -/
def hostTurn (s : State) : Action :=
  match s.hostMoves with
  | [] => .outcome (.next s)
  | m :: rest => hostMove m { s with hostMoves := rest }

/-- Fetching the header of DEC or DEC_HDR (rules R121, R122): fewer than 14 bytes, or a header the decoder rejects, raises
FormatError; else the HEADER is run. -/
def fetchHeader (s : State) : Action :=
  if s.inLen < Config.headerBytes then .outcome (raise (.formatError .truncated) s)
  else
    match Buffer.readSeq s.mem.byteIn 0 Config.headerBytes with
    | none => .outcome (.refused .inputElementAbsent)
    | some bs =>
      match decodeHeader s.cfg.magic bs with
      | .ok (i, _) => .run i s
      | .error e => .outcome (raise (.formatError (headerCause e)) s)

/-- Fetching a chunk (rules R180, R181): the end action where the body is used up; else the first byte gives the length, a chunk cut
short raises DecodeError, and a whole one is run. -/
def fetchChunk (s : State) : Action :=
  if s.pos < s.bodyLen then
    match Buffer.read s.mem.byteIn (s.bodyBase + s.pos) with
    | none => .outcome (.refused .inputElementAbsent)
    | some b0 =>
      if s.pos + chunkLen b0 ≤ s.bodyLen then
        match Buffer.readSeq s.mem.byteIn (s.bodyBase + s.pos) (chunkLen b0) with
        | none => .outcome (.refused .inputElementAbsent)
        | some bs =>
          match decodeChunk bs with
          | .ok (i, _) => .run i s
          | .error _ => .outcome (raise .decodeError s)
      else .outcome (raise .decodeError s)
  else .outcome (.next s.finished)

/-- The entry action of the running command (rule R217). -/
def entryAction (s : State) : Action :=
  match s.running with
  | some .enc => .outcome (encEntry s)
  | some .dec => fetchHeader s
  | some .decBody => .outcome (.next s.initialised)
  | some .encHdr => .outcome (encHdrEntry s)
  | some .decHdr => fetchHeader s
  | none => .outcome (.refused .reservedCommand)

/-- The steps after the entry action (rule R217). The header commands have none: they end with their first step. -/
def chunkAction (s : State) : Action :=
  match s.running with
  | some .enc => .outcome (encChunks s)
  | some .dec => fetchChunk s
  | some .decBody => fetchChunk s
  | some .encHdr => .outcome (.next s.finished)
  | some .decHdr => .outcome (.next s.finished)
  | none => .outcome (.refused .reservedCommand)

/-- A BUSY engine's step (rule R217). -/
def engineTurn (s : State) : Action :=
  match s.phase with
  | .entry => entryAction s
  | .chunks => chunkAction s

/-- What happens next: hardware reset at any time (rule R260), the engine's turn while BUSY, else the host's (rule R217). -/
def nextAction (s : State) : Action :=
  if s.resetAsserted then .outcome (.next s.hardwareReset)
  else
    match s.status with
    | .busy => engineTurn s
    | .idle => hostTurn s
    | .done => hostTurn s
    | .error => hostTurn s

/-! ### Placing one instruction where the next step fetches it (log 10) -/

/-- A chunk as the next of a DEC_BODY body, at `pos`. -/
def State.withBodyBytes (s : State) (bs : List Byte) : State :=
  { s with
    resetAsserted := false
    status := .busy
    cmd := commandCode .decBody
    phase := .chunks
    inLen := s.pos + bs.length
    mem := { s.mem with byteIn := Buffer.writeSeq s.mem.byteIn s.pos bs } }

/-- A header as the input of DEC_HDR. -/
def State.withHeaderBytes (s : State) (bs : List Byte) : State :=
  { s with
    resetAsserted := false
    status := .busy
    cmd := commandCode .decHdr
    phase := .entry
    inLen := bs.length
    mem := { s.mem with byteIn := Buffer.writeSeq s.mem.byteIn 0 bs } }

/-- A command code as the host's next move, with what rule R263 asks of the host before it: an engine that is not BUSY, and legal
tag registers (an illegal tag is replaced, 4 for CHANNELS and 0 for COLORSPACE). -/
def State.withCommandCode (s : State) (code : BitVec 3) : State :=
  { s with
    resetAsserted := false
    status := if s.status = .busy then .idle else s.status
    channels := if legalChannels s.channels then s.channels else 4
    colorspace := if legalColorspace s.colorspace then s.colorspace else 0
    hostMoves := .writeCmd code :: s.hostMoves }

/-- A word of the opcode table, in the space `tableSpace` reads it in. -/
def State.withTableWord (s : State) (nbits w : Nat) : State :=
  match tableSpace nbits w with
  | .body => s.withBodyBytes (tableBytes 5 (w % 2 ^ nbits))
  | .header => s.withHeaderBytes (tableBytes Config.headerBytes (w % 2 ^ nbits))
  | .command => s.withCommandCode (BitVec.ofNat 3 (w % 2 ^ nbits))

/-! ### What the host reads -/

/-- The nine registers by name (rule R25). -/
inductive HostReg where
  | cmd
  | status
  | err
  | width
  | height
  | channels
  | colorspace
  | inLen
  | outLen
deriving DecidableEq, Repr

/-- A register's number (rule R25). -/
def regNumber : HostReg → Nat
  | .cmd => 0
  | .status => 1
  | .err => 2
  | .width => 3
  | .height => 4
  | .channels => 5
  | .colorspace => 6
  | .inLen => 7
  | .outLen => 8

/-- A host read: always allowed, no side effect (rule R25); CMD is write-only (rule R26) and answers nothing. -/
def hostRead (s : State) : HostReg → Option Nat
  | .cmd => none
  | .status => some (statusCode s.status).toNat
  | .err => some s.err.toNat
  | .width => some s.width.toNat
  | .height => some s.height.toNat
  | .channels => some s.channels.toNat
  | .colorspace => some s.colorspace.toNat
  | .inLen => some s.inLen
  | .outLen => some s.outLen

/-- The bytes a DONE encoding command left (rules R51, R60, R237): the first OUT_LEN elements of BYTE_OUT. -/
def State.byteOutput (s : State) : Option (List Byte) :=
  if s.status = .done then Buffer.readSeq s.mem.byteOut 0 s.outLen else none

/-- The pixels a DONE decoding command left (rules R53, R60, R237): the first OUT_LEN elements of PIX_OUT. -/
def State.pixelOutput (s : State) : Option (List Pixel) :=
  if s.status = .done then Buffer.readSeq s.mem.pixOut 0 s.outLen else none

end Sys2Proof.Machine
end

