-- ==== Sys2Proof/Machine/Step.lean ====
section
/-! DEFINITION. One step of the machine, and the placing of one instruction for it. -/

namespace Sys2Proof.Machine

/-- An action carried out: a fetched instruction is run by its meaning. -/
def perform : Action → Result
  | .run i t => exec i t
  | .outcome o => o

/-- One step (rules R7, R217): the next action, carried out. -/
def step (s : State) : Host.Outcome State Fault Refusal := perform (nextAction s)

/-- The state whose very next step runs the instruction of this opcode-table word (log 10). -/
def State.withFetchWord (s : State) (nbits w : Nat) : State := s.withTableWord nbits w

end Sys2Proof.Machine
end

