-- ==== Sys2Proof/Machine/ByteSerial.lean ====
section
/-! DEFINITION. The byte-serial form of the decoder (rule R190), an implementation note of the spec, defined beside the model to be
held against it. No step of the machine uses it. -/

namespace Sys2Proof.Machine

/-- What the byte-serial machine expects, with the bytes of the chunk already taken (rule R190). -/
inductive SerialState where
  | tag
  | luma1 (b0 : Byte)
  | rgb1
  | rgb2 (r : Byte)
  | rgb3 (r g : Byte)
  | rgba1
  | rgba2 (r : Byte)
  | rgba3 (r g : Byte)
  | rgba4 (r g b : Byte)
deriving DecidableEq, Repr

/-- The byte-serial machine: what it expects, `prev`, the cache and the pixels appended. -/
structure Serial where
  expects : SerialState
  prev : Pixel
  cache : Vector Pixel 64
  out : List Pixel
deriving DecidableEq, Repr

/-- The state at the start of a body (rule R261). -/
def serialStart : Serial := ⟨.tag, Config.defaultPixel, freshCache, []⟩

/-- Executing a chunk that appends one pixel and inserts it. -/
def serialInsert (m : Serial) (px : Pixel) : Serial :=
  ⟨.tag, px, cacheInsert m.cache px, m.out ++ [px]⟩

/-- A first byte: one-byte chunks are executed at once (rule R190). -/
def serialTag (m : Serial) (b : Byte) : Serial :=
  if b = 0xFE then { m with expects := .rgb1 }
  else if b = 0xFF then { m with expects := .rgba1 }
  else if bits b 7 6 = 0 then
    ⟨.tag, cacheGet m.cache (slotField b), m.cache, m.out ++ [cacheGet m.cache (slotField b)]⟩
  else if bits b 7 6 = 1 then
    serialInsert m (moveBy m.prev (bits b 5 4 - 2) (bits b 3 2 - 2) (bits b 1 0 - 2))
  else if bits b 7 6 = 2 then { m with expects := .luma1 b }
  else { m with out := m.out ++ List.replicate (bits b 5 0 + 1) m.prev }

/-- One byte (rule R190). -/
def serialByte (m : Serial) (b : Byte) : Serial :=
  match m.expects with
  | .tag => serialTag m b
  | .luma1 b0 =>
    serialInsert m
      (moveBy m.prev (bits b 7 4 - 8 + (bits b0 5 0 - 32)) (bits b0 5 0 - 32) (bits b 3 0 - 8 + (bits b0 5 0 - 32)))
  | .rgb1 => { m with expects := .rgb2 b }
  | .rgb2 r => { m with expects := .rgb3 r b }
  | .rgb3 r g => serialInsert m ⟨r, g, b, 255⟩
  | .rgba1 => { m with expects := .rgba2 b }
  | .rgba2 r => { m with expects := .rgba3 r b }
  | .rgba3 r g => { m with expects := .rgba4 r g b }
  | .rgba4 r g b' => serialInsert m ⟨r, g, b', b⟩

/-- A whole body, byte by byte. -/
def serialRun (body : List Byte) : Serial := body.foldl serialByte serialStart

end Sys2Proof.Machine
end

