-- ==== Sys2Proof/Safety.lean ====
section
/-! DEFINITION. The terms claims are stated in: the run of one command (rule R217), its observation, and the invariant of every step. -/

namespace Sys2Proof.Machine

/-- At most `k` engine steps of the running command, stopping when STATUS leaves BUSY (rule R217). -/
def runCommand : Nat → State → Result
  | 0, s => .next s
  | k + 1, s =>
    if s.status = .busy then
      match step s with
      | .next t => runCommand k t
      | .fault r => .fault r
      | .refused r => .refused r
    else .next s

/-- The instruction starts from `s` and its command ends in `t` after at most `k` engine steps. -/
def CompletesWithin (k : Nat) (i : Instr) (s t : State) : Prop :=
  ∃ u, exec i s = .next u ∧ runCommand k u = .next t ∧ t.status ≠ .busy

/-- The instruction that starts a command. -/
def startOf : Command → Instr
  | .enc => .enc
  | .dec => .dec
  | .decBody => .decBody
  | .encHdr => .encHdr
  | .decHdr => .decHdr

/-- A command that writes bytes, not pixels (rules R211, R214). -/
def isEncoding (c : Command) : Bool := c == .enc || c == .encHdr

/-- The four header registers. -/
structure HeaderRegs where
  width : Word
  height : Word
  channels : Byte
  colorspace : Byte
deriving DecidableEq, Repr

/-- The header registers of a state. -/
def State.headerRegs (s : State) : HeaderRegs := ⟨s.width, s.height, s.channels, s.colorspace⟩

/-- What a run of a command shows (rule R217). -/
structure Observation where
  status : Status
  err : BitVec 5
  outLen : Option Nat
  bytes : Option (List Byte)
  pixels : Option (List Pixel)
  header : Option HeaderRegs
deriving DecidableEq, Repr

/-- The observation of an ended run of `c` (rule R217): STATUS and ERR; when DONE the output and the header registers;
when ERROR nothing more, except the header registers after a DEC whose header parsed. -/
def observe (c : Command) (s : State) : Observation where
  status := s.status
  err := s.err
  outLen := if s.status = .done then some s.outLen else none
  bytes := if isEncoding c then s.byteOutput else none
  pixels := if isEncoding c then none else s.pixelOutput
  header :=
    if s.status = .done ∨ (c = .dec ∧ s.err = errCode .decodeError) then some s.headerRegs else none

/-- The engine is in the chunk steps of the command. -/
def State.inChunks (s : State) (c : Command) : Prop :=
  s.status = .busy ∧ s.phase = .chunks ∧ s.running = some c

/-- The engine decodes a body: the chunk steps of DEC or DEC_BODY. -/
def State.inBody (s : State) : Prop := s.inChunks .dec ∨ s.inChunks .decBody

/-- What every chunk step keeps: the registers but OUT_LEN, the input buffers, the model's own fields. -/
structure RegsKept (s t : State) : Prop where
  cmd : t.cmd = s.cmd
  header : t.headerRegs = s.headerRegs
  inLen : t.inLen = s.inLen
  pixIn : t.mem.pixIn = s.mem.pixIn
  byteIn : t.mem.byteIn = s.mem.byteIn
  hostMoves : t.hostMoves = s.hostMoves
  resetAsserted : t.resetAsserted = s.resetAsserted
  cfg : t.cfg = s.cfg

/-- The frame of a decoded chunk that appends `n` pixels: besides `prev`, `pos`, the cache and OUT_LEN only the `n` elements of
PIX_OUT from OUT_LEN on may change. -/
structure DecoderFrame (n : Nat) (s t : State) : Prop where
  kept : RegsKept s t
  status : t.status = s.status
  err : t.err = s.err
  phase : t.phase = s.phase
  byteOut : t.mem.byteOut = s.mem.byteOut
  pixOut : ∀ j, j < s.outLen ∨ s.outLen + n ≤ j → Buffer.read t.mem.pixOut j = Buffer.read s.mem.pixOut j

/-- The frame of an encoder step that appends `n` bytes: besides `prev`, `pos`, the cache and OUT_LEN only the `n` elements of
BYTE_OUT from OUT_LEN on may change. -/
structure EncoderFrame (n : Nat) (s t : State) : Prop where
  kept : RegsKept s t
  status : t.status = s.status
  err : t.err = s.err
  phase : t.phase = s.phase
  pixOut : t.mem.pixOut = s.mem.pixOut
  byteOut : ∀ j, j < s.outLen ∨ s.outLen + n ≤ j → Buffer.read t.mem.byteOut j = Buffer.read s.mem.byteOut j

/-- How many pixels a decoded chunk appends (rule R90). -/
def pixelsProduced : Instr → Nat
  | .index _ => 1
  | .diff _ _ _ => 1
  | .luma _ _ _ => 1
  | .rgb _ _ _ => 1
  | .rgba _ _ _ _ => 1
  | .run count => count
  | .header _ _ _ _ => 0
  | .nop => 0
  | .enc => 0
  | .dec => 0
  | .decBody => 0
  | .encHdr => 0
  | .decHdr => 0

/-- The invariant of the machine: what the rules promise of every state a run reaches. -/
structure State.Inv (s : State) : Prop where
  /-- The buffers are in canonical form. -/
  memory : s.mem.wf
  /-- A BUSY engine runs a command (rule R210). -/
  runs : s.status = .busy → s.running ≠ none
  /-- Before the entry action nothing has been appended (rule R210). -/
  entryEmpty : s.status = .busy → s.phase = .entry → s.outLen = 0
  /-- The header commands have no chunk steps (rule R217). -/
  chunkCommands : s.status = .busy → s.phase = .chunks → s.inChunks .enc ∨ s.inBody
  /-- A DEC whose header parsed has 14 bytes (rule R122). -/
  headerThere : s.inChunks .dec → Config.headerBytes ≤ s.inLen
  /-- No rule sets `pos` beyond the input (rule R22). -/
  posInPixels : s.inChunks .enc → s.pos ≤ s.inLen
  posInBody : s.inBody → s.pos ≤ s.bodyLen
  /-- An encoding command runs only with legal tags (rules R31, R32). -/
  tags : s.status = .busy → (∃ c, s.running = some c ∧ isEncoding c = true) → s.tagsLegal = true
  /-- The encoder passed the size check (rule R150). -/
  sized : s.inChunks .enc → s.sizeMatches = true
  /-- The encoder finds `prev` at its hash slot (rule R136). -/
  prevCached : s.inChunks .enc → s.cache[pixelHash s.prev] = s.prev
  /-- The output bounds of rules R161 and R192, at every position. -/
  encodedSize : s.inChunks .enc → Config.headerBytes ≤ s.outLen ∧ s.outLen ≤ Config.headerBytes + 5 * s.pos
  decodedSize : s.inBody → s.outLen ≤ Config.maxRun * s.pos
  /-- What was appended is in the output buffer (rule R60). -/
  bytesThere : s.inChunks .enc → (Buffer.readSeq s.mem.byteOut 0 s.outLen).isSome = true
  pixelsThere : s.inBody → (Buffer.readSeq s.mem.pixOut 0 s.outLen).isSome = true
  /-- ERR holds an exception exactly in ERROR, with no output (rules R28, R237). -/
  errCleared : s.status ≠ .error → s.err = 0
  errHeld : s.status = .error → s.outLen = 0 ∧ ∃ x, s.err = errCode x

end Sys2Proof.Machine
end

