-- ==== Sys2Proof/Certificates/Slice0/Obligations.lean ====
section
/-! DEFINITION. The statements about this machine, for the provers. R<n> is a rule of spec/, U<n> a row of
spec/93_implementation_defined.md, log <n> a row of notes/assumptions/. Where a statement names one of the model's own fields, that
is the model's choice and no rule of the spec: `phase` (log 3), `hostMoves` (log 4), `resetAsserted` (log 5), `cfg` (logs 1, 2);
so is what an input element that was never placed does (log 6). -/

open Sys2Proof Sys2Proof.Machine

/-! ### Reset, host, commands -/

/-- R37, R260: the values State.reset holds. -/
def Obligations.ResetStateHoldsSpecValues : Prop :=
  State.reset.prev = ⟨0, 0, 0, 255⟩ ∧ State.reset.pos = 0 ∧
  (∀ k : Slot, State.reset.cache[k] = ⟨0, 0, 0, 255⟩) ∧
  (∀ r : HostReg, r ≠ .cmd → hostRead State.reset r = some 0) ∧ State.reset.cmd = 0 ∧
  (∀ j, Buffer.read State.reset.mem.byteOut j = none ∧ Buffer.read State.reset.mem.pixOut j = none)

/-- R260 by the model's own input (log 5): a step of a machine whose reset is asserted, BUSY or not, leaves the reset state,
but for the host's moves still to come and the fixed parameters; input buffers hold no value (log 6). -/
def Obligations.AssertedResetAbandonsAnyState : Prop :=
  ∀ s : State, s.resetAsserted = true →
    ∃ t, step s = .next t ∧ t.hostMoves = s.hostMoves ∧ t.cfg = s.cfg ∧
      { t with hostMoves := [], cfg := Config.standard } = State.reset

/-- R248: an engine that is not BUSY keeps everything while the host does nothing (no host move to come, log 4). -/
def Obligations.EngineWaitsForTheHost : Prop :=
  ∀ s : State, s.resetAsserted = false → s.status ≠ .busy → s.hostMoves = [] → step s = .next s

/-- R25, R29 to R33, R263: what the host's writes other than CMD leave, read back as the host reads, and that they change
nothing else. That the host's moves stand in a list is the model's choice (log 4). -/
def Obligations.HostWritesLandInRegistersAndBuffers : Prop :=
  ∀ (s : State) (m : HostMove) (rest : List HostMove),
    s.resetAsserted = false → s.status ≠ .busy → s.hostMoves = m :: rest →
    (∀ v, m = .writeWidth v → step s = .next { s with hostMoves := rest, width := v }) ∧
    (∀ v, m = .writeHeight v → step s = .next { s with hostMoves := rest, height := v }) ∧
    (∀ v, m = .writeChannels v → step s = .next { s with hostMoves := rest, channels := v }) ∧
    (∀ v, m = .writeColorspace v → step s = .next { s with hostMoves := rest, colorspace := v }) ∧
    (∀ n, m = .writeInLen n → step s = .next { s with hostMoves := rest, inLen := n }) ∧
    (∀ i ps, m = .putPixels i ps → ∃ t, step s = .next t ∧
      Buffer.readSeq t.mem.pixIn i ps.length = some ps ∧
      (∀ j, j < i ∨ i + ps.length ≤ j → Buffer.read t.mem.pixIn j = Buffer.read s.mem.pixIn j) ∧
      t = { s with hostMoves := rest, mem := { s.mem with pixIn := t.mem.pixIn } }) ∧
    (∀ i bs, m = .putBytes i bs → ∃ t, step s = .next t ∧
      Buffer.readSeq t.mem.byteIn i bs.length = some bs ∧
      (∀ j, j < i ∨ i + bs.length ≤ j → Buffer.read t.mem.byteIn j = Buffer.read s.mem.byteIn j) ∧
      t = { s with hostMoves := rest, mem := { s.mem with byteIn := t.mem.byteIn } })

/-- R25, U9: every host move (log 4), and every command, is refused while BUSY. -/
def Obligations.HostIsRefusedWhileBusy : Prop :=
  ∀ s : State, s.status = .busy →
    (∀ m : HostMove, hostMove m s = .outcome (.refused .hostWriteWhileBusy)) ∧
    (∀ i : Instr, i.space = .command → exec i s = .refused .hostWriteWhileBusy)

/-- R26, U10: the CMD write (a host move, log 4) of codes 6 and 7, and of no other code, is refused as reserved. -/
def Obligations.ReservedCodesAreRefused : Prop :=
  ∀ (s : State) (code : BitVec 3) (rest : List HostMove),
    s.resetAsserted = false → s.status ≠ .busy → s.hostMoves = .writeCmd code :: rest →
    (step s = .refused .reservedCommand ↔ 6 ≤ code.toNat)

/-- R31, R32, U3: ENC and ENC_HDR are refused with an illegal tag register, and start with legal ones. -/
def Obligations.IllegalTagsAreRefused : Prop :=
  ∀ s : State, s.status ≠ .busy →
    (¬ ((s.channels = 3 ∨ s.channels = 4) ∧ (s.colorspace = 0 ∨ s.colorspace = 1)) →
      exec .enc s = .refused .illegalTag ∧ exec .encHdr s = .refused .illegalTag) ∧
    ((s.channels = 3 ∨ s.channels = 4) ∧ (s.colorspace = 0 ∨ s.colorspace = 1) →
      (∃ t, exec .enc s = .next t) ∧ ∃ t, exec .encHdr s = .next t)

/-- R210, R216: starting the five commands clears ERR and OUT_LEN and sets BUSY, with the code in CMD and the entry action to
come (log 3), and changes nothing else; NOP changes nothing. -/
def Obligations.CommandsStartAsOneAction : Prop :=
  ∀ s : State, s.status ≠ .busy →
    exec .nop s = .next s ∧
    (∀ c : Command, (isEncoding c = true → s.tagsLegal = true) →
      exec (startOf c) s =
        .next { s with cmd := commandCode c, err := 0, outLen := 0, status := .busy, phase := .entry })

/-- R26, R217: the CMD write of a code that `decodeCommand` names runs that command, in the state with the move taken off the
host's list (log 4) and the code in CMD. -/
def Obligations.StepRunsTheCommandWritten : Prop :=
  ∀ (s : State) (code : BitVec 3) (rest : List HostMove) (i : Instr),
    s.resetAsserted = false → s.status ≠ .busy → s.hostMoves = .writeCmd code :: rest →
    decodeCommand code = .ok i →
    step s = exec i { s with hostMoves := rest, cmd := code }

/-! ### Encoding -/

/-- R84 to R89, R81, R26: words written out from the spec's encodings decode to their instructions. -/
def Obligations.WrittenOutWordsDecode : Prop :=
  ∀ (m : Magic) (rest : List Byte),
    decode m .body (0x35 :: rest) = .ok (.index 53, rest) ∧
    decode m .body (0x79 :: rest) = .ok (.diff 1 0 (-1), rest) ∧
    decode m .body (0xAA :: 0x84 :: rest) = .ok (.luma 10 0 (-4), rest) ∧
    decode m .body (0xFE :: 0xC8 :: 0x64 :: 0x32 :: rest) = .ok (.rgb 200 100 50, rest) ∧
    decode m .body (0xFF :: 0x0A :: 0x0A :: 0x0A :: 0x80 :: rest) = .ok (.rgba 10 10 10 128, rest) ∧
    decode m .body (0xFD :: rest) = .ok (.run 62, rest) ∧
    decode m .header (m.bytes ++ [0, 0, 1, 0, 0, 0, 0, 16, 3, 1] ++ rest) = .ok (.header 256 16 3 1, rest) ∧
    decode m .command (4 :: rest) = .ok (.encHdr, rest)

/-- R82, R84 to R89: the opcode map, by the number of the first byte, with every field's value. The positions of the DIFF fields
are R85's own decision (log 13). -/
def Obligations.FirstByteSelectsTheChunk : Prop :=
  ∀ (b0 b1 b2 b3 b4 : Byte) (rest : List Byte), let n := b0.toNat
    (n < 64 → ∃ k : Slot, k.val = n ∧
      decodeChunk (b0 :: b1 :: b2 :: b3 :: b4 :: rest) = .ok (.index k, b1 :: b2 :: b3 :: b4 :: rest)) ∧
    (64 ≤ n → n < 128 → decodeChunk (b0 :: b1 :: b2 :: b3 :: b4 :: rest) =
      .ok (.diff ((n - 64) / 16 - 2 : Int) ((n / 4 % 4 : Nat) - 2 : Int) ((n % 4 : Nat) - 2 : Int),
        b1 :: b2 :: b3 :: b4 :: rest)) ∧
    (128 ≤ n → n < 192 → decodeChunk (b0 :: b1 :: b2 :: b3 :: b4 :: rest) =
      .ok (.luma (n - 128 - 32 : Int) ((b1.toNat / 16 : Nat) - 8 : Int) ((b1.toNat % 16 : Nat) - 8 : Int),
        b2 :: b3 :: b4 :: rest)) ∧
    (192 ≤ n → n < 254 → decodeChunk (b0 :: b1 :: b2 :: b3 :: b4 :: rest) =
      .ok (.run (n - 192 + 1), b1 :: b2 :: b3 :: b4 :: rest)) ∧
    (n = 254 → decodeChunk (b0 :: b1 :: b2 :: b3 :: b4 :: rest) = .ok (.rgb b1 b2 b3, b4 :: rest)) ∧
    (n = 255 → decodeChunk (b0 :: b1 :: b2 :: b3 :: b4 :: rest) = .ok (.rgba b1 b2 b3 b4, rest))

/-- R83, R91, R181: the body has no illegal encoding: the first byte alone gives a chunk's length, and decoding fails only where
that many bytes are not there. -/
def Obligations.ChunkLengthFromFirstByteAlone : Prop :=
  ∀ (b0 : Byte) (rest : List Byte),
    (chunkLen b0 ≤ rest.length + 1 →
      ∃ i, decodeChunk (b0 :: rest) = .ok (i, rest.drop (chunkLen b0 - 1)) ∧ i.WellFormed ∧
        i.space = .body ∧ i.byteLength = chunkLen b0) ∧
    (rest.length + 1 < chunkLen b0 → decodeChunk (b0 :: rest) = .error .truncatedChunk)

/-- Decode inverts encode, for every well-formed instruction of every space and every MAGIC, whatever bytes follow. -/
def Obligations.DecodeInvertsEncode : Prop :=
  ∀ (m : Magic) (i : Instr) (rest : List Byte), i.WellFormed →
    decode m i.space (encode m i ++ rest) = .ok (i, rest)

/-- Encode inverts decode: what was decoded is well-formed, of the space asked for, and its encoding is the bytes taken. -/
def Obligations.EncodeInvertsDecode : Prop :=
  ∀ (m : Magic) (sp : Space) (bs rest : List Byte) (i : Instr), decode m sp bs = .ok (i, rest) →
    i.WellFormed ∧ i.space = sp ∧ bs = encode m i ++ rest

/-- R123: the header round trip, for every MAGIC and whatever follows, and the failures it names, each with the error of R122's tests
in their order (R239). -/
def Obligations.HeaderRoundTrips : Prop :=
  ∀ (m : Magic) (w h : Word) (c cs : Byte) (rest : List Byte),
    ((c = 3 ∨ c = 4) → (cs = 0 ∨ cs = 1) →
      decodeHeader m (encodeHeader m w h c cs ++ rest) = .ok (.header w h c cs, rest)) ∧
    (¬ (c = 3 ∨ c = 4) → decodeHeader m (encodeHeader m w h c cs ++ rest) = .error .badChannels) ∧
    ((c = 3 ∨ c = 4) → ¬ (cs = 0 ∨ cs = 1) →
      decodeHeader m (encodeHeader m w h c cs ++ rest) = .error .badColorspace) ∧
    (∀ k, k < 14 → decodeHeader m ((encodeHeader m w h c cs).take k) = .error .truncatedHeader)

/-- R122, R239: the four tests of a header in their order, and the big-endian fields of one that passes. -/
def Obligations.HeaderTestsInOrder : Prop :=
  ∀ (m : Magic) (bs : List Byte),
    (bs.length < 14 → decodeHeader m bs = .error .truncatedHeader) ∧
    (14 ≤ bs.length →
      (bs.take 4 ≠ m.bytes → decodeHeader m bs = .error .badMagic) ∧
      (bs.take 4 = m.bytes → bs[12]? ≠ some 3 → bs[12]? ≠ some 4 → decodeHeader m bs = .error .badChannels) ∧
      (bs.take 4 = m.bytes → bs[12]? = some 3 ∨ bs[12]? = some 4 → bs[13]? ≠ some 0 → bs[13]? ≠ some 1 →
        decodeHeader m bs = .error .badColorspace) ∧
      (bs.take 4 = m.bytes → bs[12]? = some 3 ∨ bs[12]? = some 4 → bs[13]? = some 0 ∨ bs[13]? = some 1 →
        ∃ w h c cs, decodeHeader m bs = .ok (.header w h c cs, bs.drop 14) ∧
          some c = bs[12]? ∧ some cs = bs[13]? ∧
          w.toNat = ((bs.drop 4).take 4).foldl (fun a b => a * 256 + b.toNat) 0 ∧
          h.toNat = ((bs.drop 8).take 4).foldl (fun a b => a * 256 + b.toNat) 0))

/-! ### Arithmetic, hash, cache -/

/-- R13: `delta` is a signed byte and `apply` undoes it. -/
def Obligations.ApplyUndoesDelta : Prop :=
  ∀ c p : Byte, applyDelta p (delta c p) = c ∧ -128 ≤ delta c p ∧ delta c p ≤ 127

/-- R130: every product and every sum wraps at 8 bits before the final modulo, and the unbounded sum gives the same slot. -/
def Obligations.HashWrapsAtEightBits : Prop :=
  ∀ p : Pixel,
    (pixelHash p).val =
      ((((3 * p.r.toNat % 256 + 5 * p.g.toNat % 256) % 256 + 7 * p.b.toNat % 256) % 256 + 11 * p.a.toNat % 256) % 256) % 64 ∧
    (pixelHash p).val = (3 * p.r.toNat + 5 * p.g.toNat + 7 * p.b.toNat + 11 * p.a.toNat) % 64

/-- R157: whether `dr - dg` is taken in the integers or wraps as a signed byte makes no difference to choosing LUMA. -/
def Obligations.LumaTestIgnoresWrapping : Prop :=
  ∀ c p : Pixel, let dr := delta c.r p.r; let dg := delta c.g p.g; let db := delta c.b p.b
    (lumaFits dr dg db = true ↔
      -32 ≤ dg ∧ dg ≤ 31 ∧ -8 ≤ s8 (dr - dg) ∧ s8 (dr - dg) ≤ 7 ∧ -8 ≤ s8 (db - dg) ∧ s8 (db - dg) ≤ 7)

/-- R131: a lookup hits exactly when the pixel's own hash slot holds all four of its channels, and answers that slot. -/
def Obligations.LookupHitsOnExactPixelOnly : Prop :=
  ∀ (slots : Vector Pixel 64) (p : Pixel),
    (∀ k, cacheLookup slots p = some k ↔ k = pixelHash p ∧ slots[pixelHash p] = p) ∧
    (cacheLookup slots p = none ↔ slots[pixelHash p] ≠ p)

/-- R132: an insert overwrites the pixel's hash slot and no other; a colliding pixel held there is lost. -/
def Obligations.InsertOverwritesOneSlot : Prop :=
  ∀ (slots : Vector Pixel 64) (p q : Pixel),
    (cacheInsert slots p)[pixelHash p] = p ∧
    (∀ k, k ≠ pixelHash p → (cacheInsert slots p)[k] = slots[k]) ∧
    (q ≠ p → pixelHash q = pixelHash p → cacheLookup (cacheInsert slots p) q = none)

/-! ### The six chunks in the decoder -/

/-- R182: INDEX appends the slot's pixel, makes it `prev`, and leaves the cache as it is. -/
def Obligations.IndexFetchesFromTheCache : Prop :=
  ∀ (s : State) (slot : Slot), s.fits 1 = true →
    ∃ t, exec (.index slot) s = .next t ∧
      t.prev = s.cache[slot] ∧ t.cache = s.cache ∧ t.pos = s.pos + 1 ∧ t.outLen = s.outLen + 1 ∧
      Buffer.read t.mem.pixOut s.outLen = some s.cache[slot] ∧ DecoderFrame 1 s t

/-- R183: DIFF adds its deltas to red, green and blue with byte wraparound, keeps alpha, inserts and appends, and nothing else. -/
def Obligations.DiffAddsDeltasToPrev : Prop :=
  ∀ (s : State) (dr dg db : Int), s.fits 1 = true →
    ∃ t, exec (.diff dr dg db) s = .next t ∧
      (t.prev.r.toNat : Int) = (s.prev.r.toNat + dr) % 256 ∧ (t.prev.g.toNat : Int) = (s.prev.g.toNat + dg) % 256 ∧
      (t.prev.b.toNat : Int) = (s.prev.b.toNat + db) % 256 ∧ t.prev.a = s.prev.a ∧
      t.cache[pixelHash t.prev] = t.prev ∧ (∀ k, k ≠ pixelHash t.prev → t.cache[k] = s.cache[k]) ∧
      t.pos = s.pos + 1 ∧ t.outLen = s.outLen + 1 ∧ Buffer.read t.mem.pixOut s.outLen = some t.prev ∧
      DecoderFrame 1 s t

/-- R184: LUMA, its red and blue deltas relative to green; DecodeError exactly where the body holds only its first byte. -/
def Obligations.LumaAddsGreenRelativeDeltas : Prop :=
  ∀ (s : State) (dg drDg dbDg : Int), s.fits 1 = true →
    (s.pos + 2 ≤ s.bodyLen →
      ∃ t, exec (.luma dg drDg dbDg) s = .next t ∧
        (t.prev.r.toNat : Int) = (s.prev.r.toNat + (drDg + dg)) % 256 ∧
        (t.prev.g.toNat : Int) = (s.prev.g.toNat + dg) % 256 ∧
        (t.prev.b.toNat : Int) = (s.prev.b.toNat + (dbDg + dg)) % 256 ∧ t.prev.a = s.prev.a ∧
        t.cache[pixelHash t.prev] = t.prev ∧ (∀ k, k ≠ pixelHash t.prev → t.cache[k] = s.cache[k]) ∧
        t.pos = s.pos + 2 ∧ t.outLen = s.outLen + 1 ∧ Buffer.read t.mem.pixOut s.outLen = some t.prev ∧
        DecoderFrame 1 s t) ∧
    (s.bodyLen < s.pos + 2 →
      exec (.luma dg drDg dbDg) s = .next { s with err := 3, outLen := 0, status := .error })

/-- R185: RGB takes its three channels and forces alpha to 255, whatever `prev` was. -/
def Obligations.RgbForcesAlphaOpaque : Prop :=
  ∀ (s : State) (r g b : Byte), s.fits 1 = true →
    (s.pos + 4 ≤ s.bodyLen →
      ∃ t, exec (.rgb r g b) s = .next t ∧ t.prev = ⟨r, g, b, 255⟩ ∧
        t.cache[pixelHash t.prev] = t.prev ∧ (∀ k, k ≠ pixelHash t.prev → t.cache[k] = s.cache[k]) ∧
        t.pos = s.pos + 4 ∧ t.outLen = s.outLen + 1 ∧ Buffer.read t.mem.pixOut s.outLen = some t.prev ∧
        DecoderFrame 1 s t) ∧
    (s.bodyLen < s.pos + 4 →
      exec (.rgb r g b) s = .next { s with err := 3, outLen := 0, status := .error })

/-- R186: RGBA takes all four channels, and nothing of `prev`. -/
def Obligations.RgbaTakesAllChannels : Prop :=
  ∀ (s : State) (r g b a : Byte), s.fits 1 = true →
    (s.pos + 5 ≤ s.bodyLen →
      ∃ t, exec (.rgba r g b a) s = .next t ∧ t.prev = ⟨r, g, b, a⟩ ∧
        t.cache[pixelHash t.prev] = t.prev ∧ (∀ k, k ≠ pixelHash t.prev → t.cache[k] = s.cache[k]) ∧
        t.pos = s.pos + 5 ∧ t.outLen = s.outLen + 1 ∧ Buffer.read t.mem.pixOut s.outLen = some t.prev ∧
        DecoderFrame 1 s t) ∧
    (s.bodyLen < s.pos + 5 →
      exec (.rgba r g b a) s = .next { s with err := 3, outLen := 0, status := .error })

/-- R187: RUN appends `count` copies of `prev` and changes neither `prev` nor the cache. -/
def Obligations.RunRepeatsPrev : Prop :=
  ∀ (s : State) (count : Nat), s.fits count = true →
    ∃ t, exec (.run count) s = .next t ∧ t.prev = s.prev ∧ t.cache = s.cache ∧ t.pos = s.pos + 1 ∧
      t.outLen = s.outLen + count ∧ Buffer.readSeq t.mem.pixOut s.outLen count = some (List.replicate count s.prev) ∧
      DecoderFrame count s t

/-- R237, R195, R238: a chunk cut short changes ERR, OUT_LEN and STATUS and nothing else, whichever of the three kinds it is. -/
def Obligations.StepRaisesDecodeErrorPrecisely : Prop :=
  ∀ (s : State) (b0 : Byte), s.resetAsserted = false → s.inBody → s.pos < s.bodyLen →
    Buffer.read s.mem.byteIn (s.bodyBase + s.pos) = some b0 → s.bodyLen < s.pos + chunkLen b0 →
    (b0.toNat = 254 ∨ b0.toNat = 255 ∨ (128 ≤ b0.toNat ∧ b0.toNat < 192)) ∧
    step s = .next { s with err := 3, outLen := 0, status := .error }

/-- R54, U6, for an engine whose OUT_CAP is a number (log 2): an Append that would pass OUT_CAP is refused, of pixels and of bytes,
and nothing is truncated: within OUT_CAP every element of it is in the buffer from OUT_LEN on and OUT_LEN counts them all.
So a chunk whose pixels would pass it is refused, and so is an encoder step whose bytes would. -/
def Obligations.OutCapRefusesNeverTruncates : Prop :=
  ∀ (s : State) (cap : Nat), s.cfg.outCap = some cap →
    (∀ ps, (appendPixels ps s = .refused .outCapExceeded ↔ cap < s.outLen + ps.length) ∧
      (s.outLen + ps.length ≤ cap → ∃ t, appendPixels ps s = .next t ∧ t.outLen = s.outLen + ps.length ∧
        Buffer.readSeq t.mem.pixOut s.outLen ps.length = some ps)) ∧
    (∀ bs, (appendBytes bs s = .refused .outCapExceeded ↔ cap < s.outLen + bs.length) ∧
      (s.outLen + bs.length ≤ cap → ∃ t, appendBytes bs s = .next t ∧ t.outLen = s.outLen + bs.length ∧
        Buffer.readSeq t.mem.byteOut s.outLen bs.length = some bs)) ∧
    (∀ i : Instr, i.space = .body → i.byteLength = 1 ∨ s.pos + i.byteLength ≤ s.bodyLen →
      cap < s.outLen + pixelsProduced i → exec i s = .refused .outCapExceeded) ∧
    (∀ c, chooseChunk s = some c → cap < s.outLen + c.chunk.byteLength → encoderStep s = .refused .outCapExceeded)

/-- U5, by the model's choice of what an absent element reads as (log 6): an input element below IN_LEN that the host never placed
stops the machine by name, in the header, in the body, at the pixel to encode and where a run of up to 62 looks ahead to it. -/
def Obligations.AbsentInputIsRefused : Prop :=
  ∀ s : State, s.resetAsserted = false →
    (s.status = .busy → s.phase = .entry → s.running = some .dec ∨ s.running = some .decHdr → 14 ≤ s.inLen →
      (∃ j, j < 14 ∧ Buffer.read s.mem.byteIn j = none) → step s = .refused .inputElementAbsent) ∧
    (∀ n, s.inBody → s.pos + n ≤ s.bodyLen → 0 < n →
      (Buffer.read s.mem.byteIn (s.bodyBase + s.pos)).map chunkLen = some n →
      (∃ j, j < n ∧ Buffer.read s.mem.byteIn (s.bodyBase + s.pos + j) = none) →
      step s = .refused .inputElementAbsent) ∧
    (s.inBody → s.pos < s.bodyLen → Buffer.read s.mem.byteIn (s.bodyBase + s.pos) = none →
      step s = .refused .inputElementAbsent) ∧
    (s.inChunks .enc → s.pos < s.inLen → Buffer.read s.mem.pixIn s.pos = none →
      step s = .refused .inputElementAbsent) ∧
    (∀ extra, s.inChunks .enc → extra < 61 → s.pos + 1 + extra < s.inLen →
      (∀ j, j ≤ extra → Buffer.read s.mem.pixIn (s.pos + j) = some s.prev) →
      Buffer.read s.mem.pixIn (s.pos + 1 + extra) = none → step s = .refused .inputElementAbsent)

/-! ### Steps -/

/-- R181, R189: in the body phase a step runs the chunk that decodes from the bytes at `pos`, in the very same state. -/
def Obligations.StepRunsTheDecodedChunk : Prop :=
  ∀ (s : State) (i : Instr) (bs rest : List Byte), s.resetAsserted = false → s.inBody →
    s.pos + i.byteLength ≤ s.bodyLen →
    Buffer.readSeq s.mem.byteIn (s.bodyBase + s.pos) i.byteLength = some bs →
    decodeChunk (bs ++ rest) = .ok (i, rest) → step s = exec i s

/-- R122, R212, R215: the first step (entry phase, log 3) of DEC and DEC_HDR runs the header that decodes from bytes 0 to 13. -/
def Obligations.StepRunsTheDecodedHeader : Prop :=
  ∀ (s : State) (i : Instr) (bs rest : List Byte), s.resetAsserted = false → s.status = .busy → s.phase = .entry →
    s.running = some .dec ∨ s.running = some .decHdr → 14 ≤ s.inLen →
    Buffer.readSeq s.mem.byteIn 0 14 = some bs → decodeHeader s.cfg.magic (bs ++ rest) = .ok (i, rest) →
    step s = exec i s

/-- R122, R212, R215, R261: a HEADER with legal tags writes the four registers; DEC then starts its body afresh, DEC_HDR is done;
nothing else changes. An illegal tag writes none of them and raises FormatError, channel tag first. -/
def Obligations.HeaderFillsTheRegisters : Prop :=
  ∀ (s : State) (w h : Word) (c cs : Byte),
    ((c = 3 ∨ c = 4) → (cs = 0 ∨ cs = 1) →
      (s.running = some .dec → exec (.header w h c cs) s =
        .next { s with
          width := w, height := h, channels := c, colorspace := cs, prev := ⟨0, 0, 0, 255⟩, pos := 0,
          cache := Vector.replicate 64 ⟨0, 0, 0, 255⟩, outLen := 0, phase := .chunks }) ∧
      (s.running = some .decHdr → exec (.header w h c cs) s =
        .next { s with width := w, height := h, channels := c, colorspace := cs, status := .done })) ∧
    (¬ (c = 3 ∨ c = 4) → exec (.header w h c cs) s = .next { s with err := 0x0D, outLen := 0, status := .error }) ∧
    ((c = 3 ∨ c = 4) → ¬ (cs = 0 ∨ cs = 1) →
      exec (.header w h c cs) s = .next { s with err := 0x11, outLen := 0, status := .error })

/-- R231, R235, R237, R239: a header that is cut short, or that fails a test, ends DEC and DEC_HDR with its FormatError code;
the header registers and everything else stay. -/
def Obligations.BadHeaderRaisesFormatError : Prop :=
  ∀ s : State, s.resetAsserted = false → s.status = .busy → s.phase = .entry →
    s.running = some .dec ∨ s.running = some .decHdr →
    (s.inLen < 14 → step s = .next { s with err := 0x05, outLen := 0, status := .error }) ∧
    (∀ bs, 14 ≤ s.inLen → Buffer.readSeq s.mem.byteIn 0 14 = some bs →
      (bs.take 4 ≠ s.cfg.magic.bytes → step s = .next { s with err := 0x09, outLen := 0, status := .error }) ∧
      (bs.take 4 = s.cfg.magic.bytes → bs[12]? ≠ some 3 → bs[12]? ≠ some 4 →
        step s = .next { s with err := 0x0D, outLen := 0, status := .error }) ∧
      (bs.take 4 = s.cfg.magic.bytes → bs[12]? = some 3 ∨ bs[12]? = some 4 → bs[13]? ≠ some 0 → bs[13]? ≠ some 1 →
        step s = .next { s with err := 0x11, outLen := 0, status := .error }))

/-- R150, R151, R120, R232: ENC's first step: SizeMismatch exactly where IN_LEN is not the exact product, with nothing written; else
the fresh working state and the 14 header bytes (all of it one step: R217 as logs 3 and 8 read it). -/
def Obligations.EncChecksTheExactSizeFirst : Prop :=
  ∀ s : State, s.resetAsserted = false → s.status = .busy → s.phase = .entry → s.running = some .enc →
    (s.inLen ≠ s.width.toNat * s.height.toNat →
      step s = .next { s with err := 2, outLen := 0, status := .error }) ∧
    (s.inLen = s.width.toNat * s.height.toNat → (∀ cap, s.cfg.outCap = some cap → 14 ≤ cap) →
      ∃ t, step s = .next t ∧ t.prev = ⟨0, 0, 0, 255⟩ ∧ t.pos = 0 ∧ (∀ k : Slot, t.cache[k] = ⟨0, 0, 0, 255⟩) ∧
        t.outLen = 14 ∧ t.phase = .chunks ∧ t.status = .busy ∧ t.err = s.err ∧
        Buffer.readSeq t.mem.byteOut 0 14 =
          some (s.cfg.magic.bytes ++ be32 s.width ++ be32 s.height ++ [s.channels, s.colorspace]) ∧
        (∀ j, 14 ≤ j → Buffer.read t.mem.byteOut j = Buffer.read s.mem.byteOut j) ∧
        t.mem.pixOut = s.mem.pixOut ∧ RegsKept s t)

/-- R261, as DEC_BODY has it: its first step is the per-invocation initialisation and nothing else (one step of its own, log 8). -/
def Obligations.DecBodyStartsFresh : Prop :=
  ∀ s : State, s.resetAsserted = false → s.status = .busy → s.phase = .entry → s.running = some .decBody →
    step s = .next { s with
      prev := ⟨0, 0, 0, 255⟩, pos := 0, cache := Vector.replicate 64 ⟨0, 0, 0, 255⟩, outLen := 0, phase := .chunks }

/-- R151, R180: when `pos` has reached the end of the input the step is the end action: STATUS is DONE, nothing else changes
(a step of its own: R217 as log 8 reads it). -/
def Obligations.CommandEndsAtTheEndOfInput : Prop :=
  ∀ s : State, s.resetAsserted = false →
    (s.inChunks .enc → s.pos = s.inLen → step s = .next { s with status := .done }) ∧
    (s.inBody → s.pos = s.bodyLen → step s = .next { s with status := .done })

/-! ### The encoder -/

/-- R152: the run path: one byte `0xC0 | extra` for the pixel and as many following equal ones as there are below IN_LEN,
61 at most; the cache is not touched. -/
def Obligations.EncoderEmitsTheLongestRun : Prop :=
  ∀ (s : State) (extra : Nat), s.resetAsserted = false → s.inChunks .enc → s.pos < s.inLen →
    Buffer.read s.mem.pixIn s.pos = some s.prev → extra ≤ 61 →
    (∀ j, j < extra → s.pos + 1 + j < s.inLen ∧ Buffer.read s.mem.pixIn (s.pos + 1 + j) = some s.prev) →
    (extra = 61 ∨ s.inLen ≤ s.pos + 1 + extra ∨
      ∃ q, q ≠ s.prev ∧ Buffer.read s.mem.pixIn (s.pos + 1 + extra) = some q) →
    s.fits 1 = true →
    ∃ t, step s = .next t ∧ t.prev = s.prev ∧ t.cache = s.cache ∧ t.pos = s.pos + extra + 1 ∧
      t.outLen = s.outLen + 1 ∧ Buffer.read t.mem.byteOut s.outLen = some (BitVec.ofNat 8 (192 + extra)) ∧
      EncoderFrame 1 s t

/-- R153: the cache-hit path: a pixel other than `prev` that its hash slot holds is sent as that slot, whatever its alpha and
deltas; the cache is not written. -/
def Obligations.EncoderEmitsCacheHits : Prop :=
  ∀ (s : State) (p : Pixel), s.resetAsserted = false → s.inChunks .enc → s.pos < s.inLen →
    Buffer.read s.mem.pixIn s.pos = some p → p ≠ s.prev → s.cache[pixelHash p] = p → s.fits 1 = true →
    ∃ t, step s = .next t ∧ t.prev = p ∧ t.cache = s.cache ∧ t.pos = s.pos + 1 ∧ t.outLen = s.outLen + 1 ∧
      Buffer.read t.mem.byteOut s.outLen = some (BitVec.ofNat 8 (pixelHash p).val) ∧ EncoderFrame 1 s t

/-- R154 to R158, R160: the delta/literal path: the pixel is inserted, and alpha change, Diff, Luma, RGB are tried in this order;
the bytes are those of the chunk taken (R85 to R88; the positions of the DIFF fields are R85's own decision, log 13). -/
def Obligations.EncoderTriesAlphaDiffLumaRgb : Prop :=
  ∀ (s : State) (p : Pixel), s.resetAsserted = false → s.inChunks .enc → s.pos < s.inLen →
    Buffer.read s.mem.pixIn s.pos = some p → p ≠ s.prev → s.cache[pixelHash p] ≠ p → s.fits 5 = true →
    let dr := delta p.r s.prev.r; let dg := delta p.g s.prev.g; let db := delta p.b s.prev.b
    let small := -2 ≤ dr ∧ dr ≤ 1 ∧ -2 ≤ dg ∧ dg ≤ 1 ∧ -2 ≤ db ∧ db ≤ 1
    let larger := -32 ≤ dg ∧ dg ≤ 31 ∧ -8 ≤ dr - dg ∧ dr - dg ≤ 7 ∧ -8 ≤ db - dg ∧ db - dg ≤ 7
    ∃ t bytes, step s = .next t ∧ t.prev = p ∧ t.pos = s.pos + 1 ∧
      t.cache[pixelHash p] = p ∧ (∀ k, k ≠ pixelHash p → t.cache[k] = s.cache[k]) ∧
      t.outLen = s.outLen + bytes.length ∧ Buffer.readSeq t.mem.byteOut s.outLen bytes.length = some bytes ∧
      EncoderFrame bytes.length s t ∧
      (p.a ≠ s.prev.a → bytes = [0xFF, p.r, p.g, p.b, p.a]) ∧
      (p.a = s.prev.a → small → bytes = [BitVec.ofInt 8 (64 + (dr + 2) * 16 + (dg + 2) * 4 + (db + 2))]) ∧
      (p.a = s.prev.a → ¬ small → larger →
        bytes = [BitVec.ofInt 8 (128 + (dg + 32)), BitVec.ofInt 8 ((dr - dg + 8) * 16 + (db - dg + 8))]) ∧
      (p.a = s.prev.a → ¬ small → ¬ larger → bytes = [0xFE, p.r, p.g, p.b])

/-- R164: what the encoder never chooses. -/
def Obligations.EncoderNeverChooses : Prop :=
  ∀ (s : State) (c : Choice), chooseChunk s = some c →
    c.chunk.WellFormed ∧ c.chunk.space = .body ∧ c.chunk ≠ .diff 0 0 0 ∧
    (∀ k, c.chunk = .index k → k = pixelHash c.pixel ∧ c.pixel ≠ s.prev) ∧
    ((∀ n, c.chunk ≠ .run n) → s.cache[pixelHash c.pixel] = c.pixel → c.chunk = .index (pixelHash c.pixel)) ∧
    (∀ r g b a, c.chunk = .rgba r g b a → a ≠ s.prev.a) ∧
    (∀ r g b, c.chunk = .rgb r g b → c.pixel.a = s.prev.a ∧
      diffFits (delta r s.prev.r) (delta g s.prev.g) (delta b s.prev.b) = false ∧
      lumaFits (delta r s.prev.r) (delta g s.prev.g) (delta b s.prev.b) = false) ∧
    (∀ n c', c.chunk = .run n → n < 62 → s.pos + n < s.inLen → chooseChunk (s.encoded c) = some c' →
      ∀ n', c'.chunk ≠ .run n')

/-! ### Whole-machine rules -/

/-- The invariant of Safety.lean at reset. -/
def Obligations.ResetMeetsTheInvariant : Prop := State.reset.Inv

/-- Every step from a state that meets the invariant leaves one that meets it. -/
def Obligations.EveryStepKeepsTheInvariant : Prop :=
  ∀ s t : State, s.Inv → step s = .next t → t.Inv

/-- R22: every chunk step advances `pos` by its chunk's pixels (1 to 62) in encode, its chunk's bytes (1, 2, 4 or 5) in decode. -/
def Obligations.ChunkStepsAdvance : Prop :=
  ∀ s t : State, s.resetAsserted = false → step s = .next t → t.status = .busy →
    (s.inChunks .enc → s.pos < t.pos ∧ t.pos ≤ s.pos + 62) ∧
    (s.inBody → t.pos = s.pos + 1 ∨ t.pos = s.pos + 2 ∨ t.pos = s.pos + 4 ∨ t.pos = s.pos + 5)

/-- R27: a step leaves STATUS as it is, or starts a command (not BUSY to BUSY), or ends it (BUSY to DONE or ERROR). -/
def Obligations.StatusMovesAsRuled : Prop :=
  ∀ s t : State, s.resetAsserted = false → step s = .next t →
    t.status = s.status ∨ (s.status ≠ .busy ∧ t.status = .busy) ∨
      (s.status = .busy ∧ (t.status = .done ∨ t.status = .error))

/-- R230 to R233, R236 to R238: what a step can raise: only a BUSY engine raises, the running command and where it stands (phase,
log 3) decide which exceptions, and besides ERR, OUT_LEN and STATUS the whole state is as it was. -/
def Obligations.OnlyTheRuledExceptions : Prop :=
  ∀ s t : State, s.resetAsserted = false → step s = .next t → s.status ≠ .error → t.status = .error →
    s.status = .busy ∧ t = { s with err := t.err, outLen := 0, status := .error } ∧
    ((s.running = some .enc ∧ s.phase = .entry ∧ t.err = 0x02) ∨
      ((s.running = some .dec ∨ s.running = some .decHdr) ∧ s.phase = .entry ∧
        (t.err = 0x05 ∨ t.err = 0x09 ∨ t.err = 0x0D ∨ t.err = 0x11)) ∨
      ((s.running = some .dec ∨ s.running = some .decBody) ∧ s.phase = .chunks ∧ t.err = 0x03))

/-- R50, R52, R63, R122: a BUSY engine never writes PIX_IN or BYTE_IN, nor IN_LEN, CMD, or the parameters; and it writes the header
registers only in the first step of DEC or DEC_HDR (log 3), where the 14 bytes parse, and then with the fields parsed. -/
def Obligations.EngineNeverWritesItsInputs : Prop :=
  ∀ s t : State, s.resetAsserted = false → s.status = .busy → step s = .next t →
    t.mem.pixIn = s.mem.pixIn ∧ t.mem.byteIn = s.mem.byteIn ∧ t.inLen = s.inLen ∧ t.cmd = s.cmd ∧ t.cfg = s.cfg ∧
    (t.headerRegs = s.headerRegs ∨
      (s.phase = .entry ∧ (s.running = some .dec ∨ s.running = some .decHdr) ∧ 14 ≤ s.inLen ∧
        ∃ bs w h c cs, Buffer.readSeq s.mem.byteIn 0 14 = some bs ∧
          decodeHeader s.cfg.magic bs = .ok (.header w h c cs, []) ∧ t.headerRegs = ⟨w, h, c, cs⟩))

/-- R124, R191: the decoder driver does not read the header registers: a body step of a state with other values in them does the
same, and leaves those values. -/
def Obligations.DecoderIgnoresTheHeaderRegisters : Prop :=
  ∀ (s t : State) (w h : Word) (c cs : Byte), s.resetAsserted = false → s.inBody → step s = .next t →
    step { s with width := w, height := h, channels := c, colorspace := cs } =
      .next { t with width := w, height := h, channels := c, colorspace := cs }

/-! ### Whole commands -/

/-- R214, R120, R210: ENC_HDR writes a header only, whatever IN_LEN holds; illegal tag registers are refused (U3). That it takes one
engine step is R217 as log 8 reads it. -/
def Obligations.EncHdrWritesAHeader : Prop :=
  ∀ s : State, s.resetAsserted = false → s.status ≠ .busy →
    (s.tagsLegal = false → exec .encHdr s = .refused .illegalTag) ∧
    (s.tagsLegal = true → (∀ cap, s.cfg.outCap = some cap → 14 ≤ cap) →
      ∃ t, CompletesWithin 1 .encHdr s t ∧ t.status = .done ∧ t.err = 0 ∧ t.outLen = 14 ∧
        t.byteOutput = some (s.cfg.magic.bytes ++ be32 s.width ++ be32 s.height ++ [s.channels, s.colorspace]) ∧
        t.prev = s.prev ∧ t.pos = s.pos ∧ t.cache = s.cache ∧ t.headerRegs = s.headerRegs ∧ t.inLen = s.inLen ∧
        t.mem.pixOut = s.mem.pixOut ∧ t.mem.pixIn = s.mem.pixIn ∧ t.mem.byteIn = s.mem.byteIn ∧
        (∀ j, 14 ≤ j → Buffer.read t.mem.byteOut j = Buffer.read s.mem.byteOut j))

/-- R215, R122, R210: DEC_HDR of bytes that begin with a legal header: the four registers, and nothing of the decoder. That it takes
one engine step is R217 as log 8 reads it. -/
def Obligations.DecHdrReadsAHeader : Prop :=
  ∀ (s : State) (w h : Word) (c cs : Byte), s.resetAsserted = false → s.status ≠ .busy → 14 ≤ s.inLen →
    (c = 3 ∨ c = 4) → (cs = 0 ∨ cs = 1) →
    Buffer.readSeq s.mem.byteIn 0 14 = some (encodeHeader s.cfg.magic w h c cs) →
    ∃ t, CompletesWithin 1 .decHdr s t ∧ t.status = .done ∧ t.err = 0 ∧ t.outLen = 0 ∧
      t.headerRegs = ⟨w, h, c, cs⟩ ∧ t.prev = s.prev ∧ t.pos = s.pos ∧ t.cache = s.cache ∧ t.mem = s.mem

/-- R161, R211, R217: ENC of any image of the declared size, in an engine with room, ends DONE after at most IN_LEN chunk steps,
with the header first and an output of 14 to 14 + 5 * IN_LEN bytes; the header registers are not written. The two steps beside the
chunk steps are R217's entry and end actions as log 8 reads them. -/
def Obligations.EncAlwaysEndsDone : Prop :=
  ∀ (s : State) (px : List Pixel), s.resetAsserted = false → s.status ≠ .busy → s.tagsLegal = true →
    s.inLen = s.width.toNat * s.height.toNat → Buffer.readSeq s.mem.pixIn 0 s.inLen = some px →
    (∀ cap, s.cfg.outCap = some cap → 14 + 5 * s.inLen ≤ cap) →
    ∃ t body, CompletesWithin (s.inLen + 2) .enc s t ∧ t.status = .done ∧ t.err = 0 ∧ t.pos = s.inLen ∧
      t.byteOutput = some (encodeHeader s.cfg.magic s.width s.height s.channels s.colorspace ++ body) ∧
      t.outLen = 14 + body.length ∧ body.length ≤ 5 * s.inLen ∧ t.headerRegs = s.headerRegs ∧
      t.mem.pixOut = s.mem.pixOut

/-- R192, R213, R217: DEC_BODY of any body, in an engine with room, ends after at most `blen` chunk steps, DONE with at most 62
pixels a byte, or with DecodeError and no output; the header registers are not written. The two steps beside the chunk steps are
R217's entry and end actions as log 8 reads them. -/
def Obligations.DecBodyAlwaysEnds : Prop :=
  ∀ (s : State) (body : List Byte), s.resetAsserted = false → s.status ≠ .busy →
    Buffer.readSeq s.mem.byteIn 0 s.inLen = some body → (∀ cap, s.cfg.outCap = some cap → 62 * s.inLen ≤ cap) →
    ∃ t, CompletesWithin (s.inLen + 2) .decBody s t ∧ t.headerRegs = s.headerRegs ∧
      t.mem.byteOut = s.mem.byteOut ∧
      ((t.status = .done ∧ t.err = 0 ∧ t.pos = s.inLen ∧ ∃ px, t.pixelOutput = some px ∧ px.length = t.outLen ∧
          px.length ≤ 62 * s.inLen) ∨
        (t.status = .error ∧ t.err = 3 ∧ t.outLen = 0))

/-- R212, R192, R217: DEC of any stream, in an engine with room, ends: with the FormatError of its header and the header registers
as they were, or with the parsed header in them and DONE or DecodeError. The step count is R217 as log 8 reads it. -/
def Obligations.DecAlwaysEnds : Prop :=
  ∀ (s : State) (stream : List Byte), s.resetAsserted = false → s.status ≠ .busy →
    Buffer.readSeq s.mem.byteIn 0 s.inLen = some stream → (∀ cap, s.cfg.outCap = some cap → 62 * s.inLen ≤ cap) →
    ∃ t, CompletesWithin (s.inLen + 2) .dec s t ∧
      ((∃ e, decodeHeader s.cfg.magic stream = .error e ∧ t.status = .error ∧
          t.err = errCode (.formatError (headerCause e)) ∧ t.outLen = 0 ∧ t.headerRegs = s.headerRegs) ∨
        (∃ w h c cs body, decodeHeader s.cfg.magic stream = .ok (.header w h c cs, body) ∧
          t.headerRegs = ⟨w, h, c, cs⟩ ∧
          ((t.status = .done ∧ t.err = 0 ∧ (∃ px, t.pixelOutput = some px ∧ px.length ≤ 62 * body.length)) ∨
            (t.status = .error ∧ t.err = 3 ∧ t.outLen = 0))))

/-- R162, R194, R212: an empty image is 14 header bytes with no chunk, and they decode to no pixel without error; each command takes
two engine steps (R217 as log 8 reads it). -/
def Obligations.EmptyImageIsHeaderOnly : Prop :=
  ∀ s d : State, s.resetAsserted = false → s.status ≠ .busy → s.tagsLegal = true → s.inLen = 0 →
    (s.width = 0 ∨ s.height = 0) → s.cfg.outCap = none →
    d.resetAsserted = false → d.status ≠ .busy → d.inLen = 14 → d.cfg = s.cfg →
    Buffer.readSeq d.mem.byteIn 0 14 = some (encodeHeader s.cfg.magic s.width s.height s.channels s.colorspace) →
    ∃ t u, CompletesWithin 2 .enc s t ∧ t.status = .done ∧ t.outLen = 14 ∧
      t.byteOutput = Buffer.readSeq d.mem.byteIn 0 14 ∧
      CompletesWithin 2 .dec d u ∧ u.status = .done ∧ u.pixelOutput = some [] ∧ u.headerRegs = s.headerRegs

/-- R264, R135: one chunk's lockstep. Where the encoder chose a chunk and the decoder, holding the same `prev` and cache, runs it, both
end with the same `prev` and cache and the decoder appends the pixels the chunk covers, unless the chunk is RGB for a pixel whose
alpha is not 255; then the decoder's `prev` differs. -/
def Obligations.EncoderAndDecoderStayInLockstep : Prop :=
  ∀ (s s' d d' : State) (c : Choice), chooseChunk s = some c → encoderStep s = .next s' →
    d.prev = s.prev → d.cache = s.cache → d.pos + c.chunk.byteLength ≤ d.bodyLen →
    exec c.chunk d = .next d' →
    d'.outLen = d.outLen + c.covers ∧
    ((∃ r g b, c.chunk = .rgb r g b) ∧ c.pixel.a ≠ 255 → d'.prev ≠ s'.prev) ∧
    (¬ ((∃ r g b, c.chunk = .rgb r g b) ∧ c.pixel.a ≠ 255) →
      d'.prev = s'.prev ∧ d'.cache = s'.cache ∧
      Buffer.readSeq d'.mem.pixOut d.outLen c.covers = Buffer.readSeq s.mem.pixIn s.pos c.covers)

/-- R193, R218: the round trip. An image of the declared size encodes to a stream; decoding that stream ends DONE with the same header
and as many pixels; and with the same pixels exactly when the encoder, on its way, chose no RGB chunk for a pixel whose alpha is
not 255. The step counts are R217 as log 8 reads it. -/
def Obligations.RoundTripExactlyWithoutAlphaHazard : Prop :=
  ∀ (s : State) (px : List Pixel), s.resetAsserted = false → s.status ≠ .busy → s.tagsLegal = true →
    s.inLen = s.width.toNat * s.height.toNat → Buffer.readSeq s.mem.pixIn 0 s.inLen = some px →
    s.cfg.outCap = none →
    ∃ t stream, CompletesWithin (s.inLen + 2) .enc s t ∧ t.byteOutput = some stream ∧
      ∀ d : State, d.resetAsserted = false → d.status ≠ .busy → d.cfg = s.cfg → d.inLen = stream.length →
        Buffer.readSeq d.mem.byteIn 0 d.inLen = some stream →
        ∃ u px', CompletesWithin (d.inLen + 2) .dec d u ∧ u.status = .done ∧ u.headerRegs = s.headerRegs ∧
          u.pixelOutput = some px' ∧ px'.length = px.length ∧
          (px' = px ↔
            ∀ k v c, runCommand k (s.started .enc) = .next v → v.inChunks .enc → v.pos < v.inLen →
              chooseChunk v = some c → (∃ r g b, c.chunk = .rgb r g b) → c.pixel.a = 255)

/-- R193, R218: every fully opaque image comes back exactly. The step counts are R217 as log 8 reads it. -/
def Obligations.OpaqueImagesRoundTrip : Prop :=
  ∀ (s d : State) (px : List Pixel), s.resetAsserted = false → s.status ≠ .busy → s.tagsLegal = true →
    s.inLen = s.width.toNat * s.height.toNat → Buffer.readSeq s.mem.pixIn 0 s.inLen = some px →
    (∀ p, p ∈ px → p.a = 255) → s.cfg.outCap = none →
    d.resetAsserted = false → d.status ≠ .busy → d.cfg = s.cfg →
    ∃ t stream, CompletesWithin (s.inLen + 2) .enc s t ∧ t.byteOutput = some stream ∧
      (d.inLen = stream.length → Buffer.readSeq d.mem.byteIn 0 d.inLen = some stream →
        ∃ u, CompletesWithin (d.inLen + 2) .dec d u ∧ u.pixelOutput = some px ∧ u.headerRegs = s.headerRegs)

/-- R34, R218, R246: a command is a pure function of its inputs: two engines that agree on the parameters, the header registers,
IN_LEN and the input buffers, and differ in anything else (what an earlier command left in `prev`, `pos`, the cache, the output
buffers, STATUS, ERR), show the same observation of every command. -/
def Obligations.CommandsArePureFunctions : Prop :=
  ∀ (c : Command) (k : Nat) (s t s' : State), s.resetAsserted = false → s'.resetAsserted = false →
    s'.status ≠ .busy → s'.cfg = s.cfg → s'.headerRegs = s.headerRegs → s'.inLen = s.inLen →
    s'.mem.pixIn = s.mem.pixIn → s'.mem.byteIn = s.mem.byteIn →
    CompletesWithin k (startOf c) s t →
    ∃ t', CompletesWithin k (startOf c) s' t' ∧ observe c t' = observe c t

/-- R190: the byte-serial machine and DEC_BODY agree on every body: it ends expecting a first byte exactly when DEC_BODY ends DONE,
with the same pixels; and in both endings it holds the same `prev` and cache. The step count is R217 as
log 8 reads it. -/
def Obligations.ByteSerialFormAgrees : Prop :=
  ∀ (s : State) (body : List Byte), s.resetAsserted = false → s.status ≠ .busy →
    Buffer.readSeq s.mem.byteIn 0 s.inLen = some body → s.cfg.outCap = none →
    ∃ t, CompletesWithin (s.inLen + 2) .decBody s t ∧
      (t.status = .done ↔ (serialRun body).expects = .tag) ∧ (t.status = .error ↔ t.err = 3) ∧
      (t.status = .done → t.pixelOutput = some (serialRun body).out) ∧
      t.prev = (serialRun body).prev ∧ t.cache = (serialRun body).cache
end

