-- ==== Sys2Proof/Laws/Buffer.lean ====
section
/-! SUPPORT. The laws of buffers: read after write, the canonical form, and the elements of a sequence write. -/

namespace Sys2Proof.Machine

variable {α : Type}

/-! ### One element -/

/-- Read after write: the written index holds the value, every other index what it held. -/
theorem Buffer.read_write (b : Buffer α) (i j : Nat) (x : α) :
    Buffer.read (Buffer.write b i x) j = if i = j then some x else Buffer.read b j := by
  induction b with
  | nil => simp [Buffer.write, Buffer.read]
  | cons e rest ih =>
    obtain ⟨k, v⟩ := e
    simp only [Buffer.write]
    split
    · simp [Buffer.read]
    · split
      · subst_vars; simp [Buffer.read]
        split <;> simp_all
      · simp only [Buffer.read, ih]
        split <;> split <;> simp_all

theorem Buffer.mem_write {b : Buffer α} {i : Nat} {x : α} {e : Nat × α} (h : e ∈ Buffer.write b i x) :
    e = (i, x) ∨ e ∈ b := by
  induction b with
  | nil => simpa [Buffer.write] using h
  | cons d rest ih =>
    obtain ⟨k, v⟩ := d
    simp only [Buffer.write] at h
    split at h
    · simpa using h
    · split at h
      · rcases List.mem_cons.mp h with h | h
        · exact .inl h
        · exact .inr (List.mem_cons_of_mem _ h)
      · rcases List.mem_cons.mp h with h | h
        · exact .inr (h ▸ List.mem_cons_self)
        · exact (ih h).imp_right (List.mem_cons_of_mem _)

/-- A write keeps the canonical form. -/
theorem Buffer.wf_write {b : Buffer α} (h : Buffer.wf b) (i : Nat) (x : α) : Buffer.wf (Buffer.write b i x) := by
  induction b with
  | nil => simp [Buffer.write, Buffer.wf]
  | cons e rest ih =>
    obtain ⟨k, v⟩ := e
    obtain ⟨hk, hrest⟩ := List.pairwise_cons.mp h
    simp only [Buffer.write]
    split
    · rename_i hik
      refine List.pairwise_cons.mpr ⟨fun d hd => ?_, h⟩
      rcases List.mem_cons.mp hd with rfl | hd
      · exact hik
      · exact lt_trans hik (hk d hd)
    · split
      · subst_vars; exact List.pairwise_cons.mpr ⟨hk, hrest⟩
      · refine List.pairwise_cons.mpr ⟨fun d hd => ?_, ih hrest⟩
        rcases Buffer.mem_write hd with rfl | hd
        · simp only; omega
        · exact hk d hd

/-! ### A sequence of elements -/

/-- A sequence write keeps the canonical form. -/
theorem Buffer.wf_writeSeq {b : Buffer α} (h : Buffer.wf b) (i : Nat) (xs : List α) :
    Buffer.wf (Buffer.writeSeq b i xs) := by
  induction xs generalizing b i with
  | nil => exact h
  | cons x xs ih => exact ih (Buffer.wf_write h i x) (i + 1)

/-- Outside the written range every index holds what it held. -/
theorem Buffer.read_writeSeq_outside (b : Buffer α) (i j : Nat) (xs : List α) (h : j < i ∨ i + xs.length ≤ j) :
    Buffer.read (Buffer.writeSeq b i xs) j = Buffer.read b j := by
  induction xs generalizing b i with
  | nil => rfl
  | cons x xs ih =>
    simp only [List.length_cons] at h
    rw [Buffer.writeSeq, ih _ _ (by omega), Buffer.read_write, if_neg (by omega)]

/-- Inside the written range each index holds its element. -/
theorem Buffer.read_writeSeq_inside (b : Buffer α) (i k : Nat) (xs : List α) (h : k < xs.length) :
    Buffer.read (Buffer.writeSeq b i xs) (i + k) = some xs[k] := by
  induction xs generalizing b i k with
  | nil => simp at h
  | cons x xs ih =>
    rw [Buffer.writeSeq]
    cases k with
    | zero => rw [Buffer.read_writeSeq_outside _ _ _ _ (by omega), Buffer.read_write]; simp
    | succ k =>
      have := ih (Buffer.write b i x) (i + 1) k (by simpa using h)
      rw [show i + (k + 1) = i + 1 + k by omega, this]; simp

/-- Two buffers that agree on a range give the same sequence there. -/
theorem Buffer.readSeq_congr {b b' : Buffer α} (i n : Nat)
    (h : ∀ j, i ≤ j → j < i + n → Buffer.read b j = Buffer.read b' j) :
    Buffer.readSeq b i n = Buffer.readSeq b' i n := by
  induction n generalizing i with
  | zero => rfl
  | succ n ih =>
    simp only [Buffer.readSeq]
    rw [h i (by omega) (by omega), ih (i + 1) fun j hj hj' => h j (by omega) (by omega)]

/-- A sequence read gives its elements one by one. -/
theorem Buffer.readSeq_eq_some_iff {b : Buffer α} {i n : Nat} {xs : List α} :
    Buffer.readSeq b i n = some xs ↔ xs.length = n ∧ ∀ k, k < n → Buffer.read b (i + k) = xs[k]? := by
  induction n generalizing i xs with
  | zero =>
    simp only [Buffer.readSeq]
    constructor
    · rintro h; cases h; simp
    · rintro ⟨h, -⟩; rw [List.length_eq_zero_iff.mp h]
  | succ n ih =>
    simp only [Buffer.readSeq]
    constructor
    · intro h
      split at h
      · rename_i x xs' hx hxs
        cases h
        obtain ⟨hlen, hget⟩ := ih.mp hxs
        refine ⟨by simp [hlen], fun k hk => ?_⟩
        cases k with
        | zero => simpa using hx
        | succ k => simpa [Nat.add_assoc, Nat.add_comm 1] using hget k (by omega)
      · cases h
    · rintro ⟨hlen, hget⟩
      cases xs with
      | nil => simp at hlen
      | cons x xs =>
        have h0 := hget 0 (by omega)
        have hxs : Buffer.readSeq b (i + 1) n = some xs :=
          ih.mpr ⟨by simpa using hlen, fun k hk => by
            simpa [Nat.add_assoc, Nat.add_comm 1] using hget (k + 1) (by omega)⟩
        simp only [Nat.add_zero, List.getElem?_cons_zero] at h0
        simp [h0, hxs]

theorem Buffer.readSeq_length {b : Buffer α} {i n : Nat} {xs : List α} (h : Buffer.readSeq b i n = some xs) :
    xs.length = n := (Buffer.readSeq_eq_some_iff.mp h).1

theorem Buffer.read_of_readSeq {b : Buffer α} {i n k : Nat} {xs : List α} (h : Buffer.readSeq b i n = some xs)
    (hk : k < n) : Buffer.read b (i + k) = xs[k]? := (Buffer.readSeq_eq_some_iff.mp h).2 k hk

/-- A sequence just written is read back. -/
theorem Buffer.readSeq_writeSeq (b : Buffer α) (i : Nat) (xs : List α) :
    Buffer.readSeq (Buffer.writeSeq b i xs) i xs.length = some xs :=
  Buffer.readSeq_eq_some_iff.mpr ⟨rfl, fun k hk => by
    rw [Buffer.read_writeSeq_inside _ _ _ _ hk, List.getElem?_eq_getElem hk]⟩

/-- Two adjacent sequences make one. -/
theorem Buffer.readSeq_append {b : Buffer α} {i n m : Nat} {xs ys : List α} (hx : Buffer.readSeq b i n = some xs)
    (hy : Buffer.readSeq b (i + n) m = some ys) : Buffer.readSeq b i (n + m) = some (xs ++ ys) := by
  have hxl := Buffer.readSeq_length hx
  refine Buffer.readSeq_eq_some_iff.mpr ⟨by simp [hxl, Buffer.readSeq_length hy], fun k hk => ?_⟩
  by_cases hkn : k < n
  · rw [Buffer.read_of_readSeq hx hkn, List.getElem?_append_left (by omega)]
  · have := Buffer.read_of_readSeq hy (k := k - n) (by omega)
    rw [show i + n + (k - n) = i + k by omega] at this
    rw [this, List.getElem?_append_right (by omega), hxl]

/-- What `Append` does to the output (rule R14): the elements so far, then the new ones. -/
theorem Buffer.readSeq_appended {b : Buffer α} {n : Nat} {xs : List α} (h : Buffer.readSeq b 0 n = some xs)
    (ys : List α) : Buffer.readSeq (Buffer.writeSeq b n ys) 0 (n + ys.length) = some (xs ++ ys) := by
  refine Buffer.readSeq_append ?_ (by simpa using Buffer.readSeq_writeSeq b n ys)
  rw [← h]
  exact Buffer.readSeq_congr 0 n fun j _ hj => Buffer.read_writeSeq_outside _ _ _ _ (by omega)

/-- A part of a sequence. -/
theorem Buffer.readSeq_sub {b : Buffer α} {i n : Nat} {xs : List α} (h : Buffer.readSeq b i n = some xs) (k m : Nat)
    (hkm : k + m ≤ n) : Buffer.readSeq b (i + k) m = some ((xs.drop k).take m) := by
  have hl := Buffer.readSeq_length h
  refine Buffer.readSeq_eq_some_iff.mpr ⟨by simp; omega, fun j hj => ?_⟩
  rw [Nat.add_assoc, Buffer.read_of_readSeq h (by omega)]
  simp [hj, List.getElem?_drop]

end Sys2Proof.Machine
end

