-- ==== Sys2Proof/Laws/State.lean ====
section
/-! SUPPORT. One lemma per field and named update of the state: what the update leaves in the field. -/

namespace Sys2Proof.Machine

variable (s : State)

/-! ### `started` -/

@[simp] theorem State.started_prev (c : Command) : (s.started c).prev = s.prev := rfl
@[simp] theorem State.started_pos (c : Command) : (s.started c).pos = s.pos := rfl
@[simp] theorem State.started_cache (c : Command) : (s.started c).cache = s.cache := rfl
@[simp] theorem State.started_cmd (c : Command) : (s.started c).cmd = commandCode c := rfl
@[simp] theorem State.started_status (c : Command) : (s.started c).status = .busy := rfl
@[simp] theorem State.started_err (c : Command) : (s.started c).err = 0 := rfl
@[simp] theorem State.started_width (c : Command) : (s.started c).width = s.width := rfl
@[simp] theorem State.started_height (c : Command) : (s.started c).height = s.height := rfl
@[simp] theorem State.started_channels (c : Command) : (s.started c).channels = s.channels := rfl
@[simp] theorem State.started_colorspace (c : Command) : (s.started c).colorspace = s.colorspace := rfl
@[simp] theorem State.started_inLen (c : Command) : (s.started c).inLen = s.inLen := rfl
@[simp] theorem State.started_outLen (c : Command) : (s.started c).outLen = 0 := rfl
@[simp] theorem State.started_mem (c : Command) : (s.started c).mem = s.mem := rfl
@[simp] theorem State.started_phase (c : Command) : (s.started c).phase = .entry := rfl
@[simp] theorem State.started_hostMoves (c : Command) : (s.started c).hostMoves = s.hostMoves := rfl
@[simp] theorem State.started_resetAsserted (c : Command) : (s.started c).resetAsserted = s.resetAsserted := rfl
@[simp] theorem State.started_cfg (c : Command) : (s.started c).cfg = s.cfg := rfl

/-! ### `initialised` -/

@[simp] theorem State.initialised_prev : (s.initialised).prev = Config.defaultPixel := rfl
@[simp] theorem State.initialised_pos : (s.initialised).pos = 0 := rfl
@[simp] theorem State.initialised_cache : (s.initialised).cache = freshCache := rfl
@[simp] theorem State.initialised_cmd : (s.initialised).cmd = s.cmd := rfl
@[simp] theorem State.initialised_status : (s.initialised).status = s.status := rfl
@[simp] theorem State.initialised_err : (s.initialised).err = s.err := rfl
@[simp] theorem State.initialised_width : (s.initialised).width = s.width := rfl
@[simp] theorem State.initialised_height : (s.initialised).height = s.height := rfl
@[simp] theorem State.initialised_channels : (s.initialised).channels = s.channels := rfl
@[simp] theorem State.initialised_colorspace : (s.initialised).colorspace = s.colorspace := rfl
@[simp] theorem State.initialised_inLen : (s.initialised).inLen = s.inLen := rfl
@[simp] theorem State.initialised_outLen : (s.initialised).outLen = 0 := rfl
@[simp] theorem State.initialised_mem : (s.initialised).mem = s.mem := rfl
@[simp] theorem State.initialised_phase : (s.initialised).phase = .chunks := rfl
@[simp] theorem State.initialised_hostMoves : (s.initialised).hostMoves = s.hostMoves := rfl
@[simp] theorem State.initialised_resetAsserted : (s.initialised).resetAsserted = s.resetAsserted := rfl
@[simp] theorem State.initialised_cfg : (s.initialised).cfg = s.cfg := rfl
@[simp] theorem State.initialised_running : (s.initialised).running = s.running := rfl
@[simp] theorem State.initialised_bodyBase : (s.initialised).bodyBase = s.bodyBase := rfl
@[simp] theorem State.initialised_bodyLen : (s.initialised).bodyLen = s.bodyLen := rfl
@[simp] theorem State.initialised_tagsLegal : (s.initialised).tagsLegal = s.tagsLegal := rfl
@[simp] theorem State.initialised_sizeMatches : (s.initialised).sizeMatches = s.sizeMatches := rfl
@[simp] theorem State.initialised_headerBytes : (s.initialised).headerBytes = s.headerBytes := rfl

/-! ### `finished` -/

@[simp] theorem State.finished_prev : (s.finished).prev = s.prev := rfl
@[simp] theorem State.finished_pos : (s.finished).pos = s.pos := rfl
@[simp] theorem State.finished_cache : (s.finished).cache = s.cache := rfl
@[simp] theorem State.finished_cmd : (s.finished).cmd = s.cmd := rfl
@[simp] theorem State.finished_status : (s.finished).status = .done := rfl
@[simp] theorem State.finished_err : (s.finished).err = s.err := rfl
@[simp] theorem State.finished_width : (s.finished).width = s.width := rfl
@[simp] theorem State.finished_height : (s.finished).height = s.height := rfl
@[simp] theorem State.finished_channels : (s.finished).channels = s.channels := rfl
@[simp] theorem State.finished_colorspace : (s.finished).colorspace = s.colorspace := rfl
@[simp] theorem State.finished_inLen : (s.finished).inLen = s.inLen := rfl
@[simp] theorem State.finished_outLen : (s.finished).outLen = s.outLen := rfl
@[simp] theorem State.finished_mem : (s.finished).mem = s.mem := rfl
@[simp] theorem State.finished_phase : (s.finished).phase = s.phase := rfl
@[simp] theorem State.finished_hostMoves : (s.finished).hostMoves = s.hostMoves := rfl
@[simp] theorem State.finished_resetAsserted : (s.finished).resetAsserted = s.resetAsserted := rfl
@[simp] theorem State.finished_cfg : (s.finished).cfg = s.cfg := rfl
@[simp] theorem State.finished_running : (s.finished).running = s.running := rfl
@[simp] theorem State.finished_bodyBase : (s.finished).bodyBase = s.bodyBase := rfl
@[simp] theorem State.finished_bodyLen : (s.finished).bodyLen = s.bodyLen := rfl
@[simp] theorem State.finished_tagsLegal : (s.finished).tagsLegal = s.tagsLegal := rfl
@[simp] theorem State.finished_sizeMatches : (s.finished).sizeMatches = s.sizeMatches := rfl
@[simp] theorem State.finished_headerBytes : (s.finished).headerBytes = s.headerBytes := rfl

/-! ### `raised` -/

@[simp] theorem State.raised_prev (x : Exc) : (s.raised x).prev = s.prev := rfl
@[simp] theorem State.raised_pos (x : Exc) : (s.raised x).pos = s.pos := rfl
@[simp] theorem State.raised_cache (x : Exc) : (s.raised x).cache = s.cache := rfl
@[simp] theorem State.raised_cmd (x : Exc) : (s.raised x).cmd = s.cmd := rfl
@[simp] theorem State.raised_status (x : Exc) : (s.raised x).status = .error := rfl
@[simp] theorem State.raised_err (x : Exc) : (s.raised x).err = errCode x := rfl
@[simp] theorem State.raised_width (x : Exc) : (s.raised x).width = s.width := rfl
@[simp] theorem State.raised_height (x : Exc) : (s.raised x).height = s.height := rfl
@[simp] theorem State.raised_channels (x : Exc) : (s.raised x).channels = s.channels := rfl
@[simp] theorem State.raised_colorspace (x : Exc) : (s.raised x).colorspace = s.colorspace := rfl
@[simp] theorem State.raised_inLen (x : Exc) : (s.raised x).inLen = s.inLen := rfl
@[simp] theorem State.raised_outLen (x : Exc) : (s.raised x).outLen = 0 := rfl
@[simp] theorem State.raised_mem (x : Exc) : (s.raised x).mem = s.mem := rfl
@[simp] theorem State.raised_phase (x : Exc) : (s.raised x).phase = s.phase := rfl
@[simp] theorem State.raised_hostMoves (x : Exc) : (s.raised x).hostMoves = s.hostMoves := rfl
@[simp] theorem State.raised_resetAsserted (x : Exc) : (s.raised x).resetAsserted = s.resetAsserted := rfl
@[simp] theorem State.raised_cfg (x : Exc) : (s.raised x).cfg = s.cfg := rfl
@[simp] theorem State.raised_running (x : Exc) : (s.raised x).running = s.running := rfl
@[simp] theorem State.raised_bodyBase (x : Exc) : (s.raised x).bodyBase = s.bodyBase := rfl
@[simp] theorem State.raised_bodyLen (x : Exc) : (s.raised x).bodyLen = s.bodyLen := rfl
@[simp] theorem State.raised_tagsLegal (x : Exc) : (s.raised x).tagsLegal = s.tagsLegal := rfl
@[simp] theorem State.raised_sizeMatches (x : Exc) : (s.raised x).sizeMatches = s.sizeMatches := rfl
@[simp] theorem State.raised_headerBytes (x : Exc) : (s.raised x).headerBytes = s.headerBytes := rfl

/-! ### `inserted` -/

@[simp] theorem State.inserted_prev (p : Pixel) : (s.inserted p).prev = s.prev := rfl
@[simp] theorem State.inserted_pos (p : Pixel) : (s.inserted p).pos = s.pos := rfl
@[simp] theorem State.inserted_cache (p : Pixel) : (s.inserted p).cache = cacheInsert s.cache p := rfl
@[simp] theorem State.inserted_cmd (p : Pixel) : (s.inserted p).cmd = s.cmd := rfl
@[simp] theorem State.inserted_status (p : Pixel) : (s.inserted p).status = s.status := rfl
@[simp] theorem State.inserted_err (p : Pixel) : (s.inserted p).err = s.err := rfl
@[simp] theorem State.inserted_width (p : Pixel) : (s.inserted p).width = s.width := rfl
@[simp] theorem State.inserted_height (p : Pixel) : (s.inserted p).height = s.height := rfl
@[simp] theorem State.inserted_channels (p : Pixel) : (s.inserted p).channels = s.channels := rfl
@[simp] theorem State.inserted_colorspace (p : Pixel) : (s.inserted p).colorspace = s.colorspace := rfl
@[simp] theorem State.inserted_inLen (p : Pixel) : (s.inserted p).inLen = s.inLen := rfl
@[simp] theorem State.inserted_outLen (p : Pixel) : (s.inserted p).outLen = s.outLen := rfl
@[simp] theorem State.inserted_mem (p : Pixel) : (s.inserted p).mem = s.mem := rfl
@[simp] theorem State.inserted_phase (p : Pixel) : (s.inserted p).phase = s.phase := rfl
@[simp] theorem State.inserted_hostMoves (p : Pixel) : (s.inserted p).hostMoves = s.hostMoves := rfl
@[simp] theorem State.inserted_resetAsserted (p : Pixel) : (s.inserted p).resetAsserted = s.resetAsserted := rfl
@[simp] theorem State.inserted_cfg (p : Pixel) : (s.inserted p).cfg = s.cfg := rfl
@[simp] theorem State.inserted_running (p : Pixel) : (s.inserted p).running = s.running := rfl
@[simp] theorem State.inserted_bodyBase (p : Pixel) : (s.inserted p).bodyBase = s.bodyBase := rfl
@[simp] theorem State.inserted_bodyLen (p : Pixel) : (s.inserted p).bodyLen = s.bodyLen := rfl
@[simp] theorem State.inserted_tagsLegal (p : Pixel) : (s.inserted p).tagsLegal = s.tagsLegal := rfl
@[simp] theorem State.inserted_sizeMatches (p : Pixel) : (s.inserted p).sizeMatches = s.sizeMatches := rfl
@[simp] theorem State.inserted_headerBytes (p : Pixel) : (s.inserted p).headerBytes = s.headerBytes := rfl

/-! ### `stepped` -/

@[simp] theorem State.stepped_prev (p : Pixel) (n : Nat) : (s.stepped p n).prev = p := rfl
@[simp] theorem State.stepped_pos (p : Pixel) (n : Nat) : (s.stepped p n).pos = s.pos + n := rfl
@[simp] theorem State.stepped_cache (p : Pixel) (n : Nat) : (s.stepped p n).cache = s.cache := rfl
@[simp] theorem State.stepped_cmd (p : Pixel) (n : Nat) : (s.stepped p n).cmd = s.cmd := rfl
@[simp] theorem State.stepped_status (p : Pixel) (n : Nat) : (s.stepped p n).status = s.status := rfl
@[simp] theorem State.stepped_err (p : Pixel) (n : Nat) : (s.stepped p n).err = s.err := rfl
@[simp] theorem State.stepped_width (p : Pixel) (n : Nat) : (s.stepped p n).width = s.width := rfl
@[simp] theorem State.stepped_height (p : Pixel) (n : Nat) : (s.stepped p n).height = s.height := rfl
@[simp] theorem State.stepped_channels (p : Pixel) (n : Nat) : (s.stepped p n).channels = s.channels := rfl
@[simp] theorem State.stepped_colorspace (p : Pixel) (n : Nat) : (s.stepped p n).colorspace = s.colorspace := rfl
@[simp] theorem State.stepped_inLen (p : Pixel) (n : Nat) : (s.stepped p n).inLen = s.inLen := rfl
@[simp] theorem State.stepped_outLen (p : Pixel) (n : Nat) : (s.stepped p n).outLen = s.outLen := rfl
@[simp] theorem State.stepped_mem (p : Pixel) (n : Nat) : (s.stepped p n).mem = s.mem := rfl
@[simp] theorem State.stepped_phase (p : Pixel) (n : Nat) : (s.stepped p n).phase = s.phase := rfl
@[simp] theorem State.stepped_hostMoves (p : Pixel) (n : Nat) : (s.stepped p n).hostMoves = s.hostMoves := rfl
@[simp] theorem State.stepped_resetAsserted (p : Pixel) (n : Nat) : (s.stepped p n).resetAsserted = s.resetAsserted := rfl
@[simp] theorem State.stepped_cfg (p : Pixel) (n : Nat) : (s.stepped p n).cfg = s.cfg := rfl
@[simp] theorem State.stepped_running (p : Pixel) (n : Nat) : (s.stepped p n).running = s.running := rfl
@[simp] theorem State.stepped_bodyBase (p : Pixel) (n : Nat) : (s.stepped p n).bodyBase = s.bodyBase := rfl
@[simp] theorem State.stepped_bodyLen (p : Pixel) (n : Nat) : (s.stepped p n).bodyLen = s.bodyLen := rfl
@[simp] theorem State.stepped_tagsLegal (p : Pixel) (n : Nat) : (s.stepped p n).tagsLegal = s.tagsLegal := rfl
@[simp] theorem State.stepped_sizeMatches (p : Pixel) (n : Nat) : (s.stepped p n).sizeMatches = s.sizeMatches := rfl
@[simp] theorem State.stepped_headerBytes (p : Pixel) (n : Nat) : (s.stepped p n).headerBytes = s.headerBytes := rfl

/-! ### `pushPixels` -/

@[simp] theorem State.pushPixels_prev (ps : List Pixel) : (s.pushPixels ps).prev = s.prev := rfl
@[simp] theorem State.pushPixels_pos (ps : List Pixel) : (s.pushPixels ps).pos = s.pos := rfl
@[simp] theorem State.pushPixels_cache (ps : List Pixel) : (s.pushPixels ps).cache = s.cache := rfl
@[simp] theorem State.pushPixels_cmd (ps : List Pixel) : (s.pushPixels ps).cmd = s.cmd := rfl
@[simp] theorem State.pushPixels_status (ps : List Pixel) : (s.pushPixels ps).status = s.status := rfl
@[simp] theorem State.pushPixels_err (ps : List Pixel) : (s.pushPixels ps).err = s.err := rfl
@[simp] theorem State.pushPixels_width (ps : List Pixel) : (s.pushPixels ps).width = s.width := rfl
@[simp] theorem State.pushPixels_height (ps : List Pixel) : (s.pushPixels ps).height = s.height := rfl
@[simp] theorem State.pushPixels_channels (ps : List Pixel) : (s.pushPixels ps).channels = s.channels := rfl
@[simp] theorem State.pushPixels_colorspace (ps : List Pixel) : (s.pushPixels ps).colorspace = s.colorspace := rfl
@[simp] theorem State.pushPixels_inLen (ps : List Pixel) : (s.pushPixels ps).inLen = s.inLen := rfl
@[simp] theorem State.pushPixels_outLen (ps : List Pixel) : (s.pushPixels ps).outLen = s.outLen + ps.length := rfl
@[simp] theorem State.pushPixels_mem (ps : List Pixel) : (s.pushPixels ps).mem = { s.mem with pixOut := Buffer.writeSeq s.mem.pixOut s.outLen ps } := rfl
@[simp] theorem State.pushPixels_phase (ps : List Pixel) : (s.pushPixels ps).phase = s.phase := rfl
@[simp] theorem State.pushPixels_hostMoves (ps : List Pixel) : (s.pushPixels ps).hostMoves = s.hostMoves := rfl
@[simp] theorem State.pushPixels_resetAsserted (ps : List Pixel) : (s.pushPixels ps).resetAsserted = s.resetAsserted := rfl
@[simp] theorem State.pushPixels_cfg (ps : List Pixel) : (s.pushPixels ps).cfg = s.cfg := rfl
@[simp] theorem State.pushPixels_running (ps : List Pixel) : (s.pushPixels ps).running = s.running := rfl
@[simp] theorem State.pushPixels_bodyBase (ps : List Pixel) : (s.pushPixels ps).bodyBase = s.bodyBase := rfl
@[simp] theorem State.pushPixels_bodyLen (ps : List Pixel) : (s.pushPixels ps).bodyLen = s.bodyLen := rfl
@[simp] theorem State.pushPixels_tagsLegal (ps : List Pixel) : (s.pushPixels ps).tagsLegal = s.tagsLegal := rfl
@[simp] theorem State.pushPixels_sizeMatches (ps : List Pixel) : (s.pushPixels ps).sizeMatches = s.sizeMatches := rfl
@[simp] theorem State.pushPixels_headerBytes (ps : List Pixel) : (s.pushPixels ps).headerBytes = s.headerBytes := rfl

/-! ### `pushBytes` -/

@[simp] theorem State.pushBytes_prev (bs : List Byte) : (s.pushBytes bs).prev = s.prev := rfl
@[simp] theorem State.pushBytes_pos (bs : List Byte) : (s.pushBytes bs).pos = s.pos := rfl
@[simp] theorem State.pushBytes_cache (bs : List Byte) : (s.pushBytes bs).cache = s.cache := rfl
@[simp] theorem State.pushBytes_cmd (bs : List Byte) : (s.pushBytes bs).cmd = s.cmd := rfl
@[simp] theorem State.pushBytes_status (bs : List Byte) : (s.pushBytes bs).status = s.status := rfl
@[simp] theorem State.pushBytes_err (bs : List Byte) : (s.pushBytes bs).err = s.err := rfl
@[simp] theorem State.pushBytes_width (bs : List Byte) : (s.pushBytes bs).width = s.width := rfl
@[simp] theorem State.pushBytes_height (bs : List Byte) : (s.pushBytes bs).height = s.height := rfl
@[simp] theorem State.pushBytes_channels (bs : List Byte) : (s.pushBytes bs).channels = s.channels := rfl
@[simp] theorem State.pushBytes_colorspace (bs : List Byte) : (s.pushBytes bs).colorspace = s.colorspace := rfl
@[simp] theorem State.pushBytes_inLen (bs : List Byte) : (s.pushBytes bs).inLen = s.inLen := rfl
@[simp] theorem State.pushBytes_outLen (bs : List Byte) : (s.pushBytes bs).outLen = s.outLen + bs.length := rfl
@[simp] theorem State.pushBytes_mem (bs : List Byte) : (s.pushBytes bs).mem = { s.mem with byteOut := Buffer.writeSeq s.mem.byteOut s.outLen bs } := rfl
@[simp] theorem State.pushBytes_phase (bs : List Byte) : (s.pushBytes bs).phase = s.phase := rfl
@[simp] theorem State.pushBytes_hostMoves (bs : List Byte) : (s.pushBytes bs).hostMoves = s.hostMoves := rfl
@[simp] theorem State.pushBytes_resetAsserted (bs : List Byte) : (s.pushBytes bs).resetAsserted = s.resetAsserted := rfl
@[simp] theorem State.pushBytes_cfg (bs : List Byte) : (s.pushBytes bs).cfg = s.cfg := rfl
@[simp] theorem State.pushBytes_running (bs : List Byte) : (s.pushBytes bs).running = s.running := rfl
@[simp] theorem State.pushBytes_bodyBase (bs : List Byte) : (s.pushBytes bs).bodyBase = s.bodyBase := rfl
@[simp] theorem State.pushBytes_bodyLen (bs : List Byte) : (s.pushBytes bs).bodyLen = s.bodyLen := rfl
@[simp] theorem State.pushBytes_tagsLegal (bs : List Byte) : (s.pushBytes bs).tagsLegal = s.tagsLegal := rfl
@[simp] theorem State.pushBytes_sizeMatches (bs : List Byte) : (s.pushBytes bs).sizeMatches = s.sizeMatches := rfl
@[simp] theorem State.pushBytes_headerBytes (bs : List Byte) : (s.pushBytes bs).headerBytes = s.headerBytes := rfl

/-! ### `headerWritten` -/

@[simp] theorem State.headerWritten_prev (w h : Word) (c cs : Byte) : (s.headerWritten w h c cs).prev = s.prev := rfl
@[simp] theorem State.headerWritten_pos (w h : Word) (c cs : Byte) : (s.headerWritten w h c cs).pos = s.pos := rfl
@[simp] theorem State.headerWritten_cache (w h : Word) (c cs : Byte) : (s.headerWritten w h c cs).cache = s.cache := rfl
@[simp] theorem State.headerWritten_cmd (w h : Word) (c cs : Byte) : (s.headerWritten w h c cs).cmd = s.cmd := rfl
@[simp] theorem State.headerWritten_status (w h : Word) (c cs : Byte) : (s.headerWritten w h c cs).status = s.status := rfl
@[simp] theorem State.headerWritten_err (w h : Word) (c cs : Byte) : (s.headerWritten w h c cs).err = s.err := rfl
@[simp] theorem State.headerWritten_width (w h : Word) (c cs : Byte) : (s.headerWritten w h c cs).width = w := rfl
@[simp] theorem State.headerWritten_height (w h : Word) (c cs : Byte) : (s.headerWritten w h c cs).height = h := rfl
@[simp] theorem State.headerWritten_channels (w h : Word) (c cs : Byte) : (s.headerWritten w h c cs).channels = c := rfl
@[simp] theorem State.headerWritten_colorspace (w h : Word) (c cs : Byte) : (s.headerWritten w h c cs).colorspace = cs := rfl
@[simp] theorem State.headerWritten_inLen (w h : Word) (c cs : Byte) : (s.headerWritten w h c cs).inLen = s.inLen := rfl
@[simp] theorem State.headerWritten_outLen (w h : Word) (c cs : Byte) : (s.headerWritten w h c cs).outLen = s.outLen := rfl
@[simp] theorem State.headerWritten_mem (w h : Word) (c cs : Byte) : (s.headerWritten w h c cs).mem = s.mem := rfl
@[simp] theorem State.headerWritten_phase (w h : Word) (c cs : Byte) : (s.headerWritten w h c cs).phase = s.phase := rfl
@[simp] theorem State.headerWritten_hostMoves (w h : Word) (c cs : Byte) : (s.headerWritten w h c cs).hostMoves = s.hostMoves := rfl
@[simp] theorem State.headerWritten_resetAsserted (w h : Word) (c cs : Byte) : (s.headerWritten w h c cs).resetAsserted = s.resetAsserted := rfl
@[simp] theorem State.headerWritten_cfg (w h : Word) (c cs : Byte) : (s.headerWritten w h c cs).cfg = s.cfg := rfl
@[simp] theorem State.headerWritten_running (w h : Word) (c cs : Byte) : (s.headerWritten w h c cs).running = s.running := rfl
@[simp] theorem State.headerWritten_bodyBase (w h : Word) (c cs : Byte) : (s.headerWritten w h c cs).bodyBase = s.bodyBase := rfl
@[simp] theorem State.headerWritten_bodyLen (w h : Word) (c cs : Byte) : (s.headerWritten w h c cs).bodyLen = s.bodyLen := rfl

/-! ### `hardwareReset` -/

@[simp] theorem State.hardwareReset_prev : (s.hardwareReset).prev = State.reset.prev := rfl
@[simp] theorem State.hardwareReset_pos : (s.hardwareReset).pos = State.reset.pos := rfl
@[simp] theorem State.hardwareReset_cache : (s.hardwareReset).cache = State.reset.cache := rfl
@[simp] theorem State.hardwareReset_cmd : (s.hardwareReset).cmd = State.reset.cmd := rfl
@[simp] theorem State.hardwareReset_status : (s.hardwareReset).status = State.reset.status := rfl
@[simp] theorem State.hardwareReset_err : (s.hardwareReset).err = State.reset.err := rfl
@[simp] theorem State.hardwareReset_width : (s.hardwareReset).width = State.reset.width := rfl
@[simp] theorem State.hardwareReset_height : (s.hardwareReset).height = State.reset.height := rfl
@[simp] theorem State.hardwareReset_channels : (s.hardwareReset).channels = State.reset.channels := rfl
@[simp] theorem State.hardwareReset_colorspace : (s.hardwareReset).colorspace = State.reset.colorspace := rfl
@[simp] theorem State.hardwareReset_inLen : (s.hardwareReset).inLen = State.reset.inLen := rfl
@[simp] theorem State.hardwareReset_outLen : (s.hardwareReset).outLen = State.reset.outLen := rfl
@[simp] theorem State.hardwareReset_mem : (s.hardwareReset).mem = State.reset.mem := rfl
@[simp] theorem State.hardwareReset_phase : (s.hardwareReset).phase = State.reset.phase := rfl
@[simp] theorem State.hardwareReset_hostMoves : (s.hardwareReset).hostMoves = s.hostMoves := rfl
@[simp] theorem State.hardwareReset_resetAsserted : (s.hardwareReset).resetAsserted = State.reset.resetAsserted := rfl
@[simp] theorem State.hardwareReset_cfg : (s.hardwareReset).cfg = s.cfg := rfl

@[simp] theorem State.started_running (c : Command) : (s.started c).running = some c := by
  cases c <;> rfl

/-! ### `encoded` -/

@[simp] theorem State.encoded_prev (c : Choice) : (s.encoded c).prev = c.pixel := by
  cases h : c.inserts <;> simp [State.encoded, h]
@[simp] theorem State.encoded_pos (c : Choice) : (s.encoded c).pos = s.pos + c.covers := by
  cases h : c.inserts <;> simp [State.encoded, h]
@[simp] theorem State.encoded_cache (c : Choice) : (s.encoded c).cache = if c.inserts then cacheInsert s.cache c.pixel else s.cache := by
  cases h : c.inserts <;> simp [State.encoded, h]
@[simp] theorem State.encoded_cmd (c : Choice) : (s.encoded c).cmd = s.cmd := by
  cases h : c.inserts <;> simp [State.encoded, h]
@[simp] theorem State.encoded_status (c : Choice) : (s.encoded c).status = s.status := by
  cases h : c.inserts <;> simp [State.encoded, h]
@[simp] theorem State.encoded_err (c : Choice) : (s.encoded c).err = s.err := by
  cases h : c.inserts <;> simp [State.encoded, h]
@[simp] theorem State.encoded_width (c : Choice) : (s.encoded c).width = s.width := by
  cases h : c.inserts <;> simp [State.encoded, h]
@[simp] theorem State.encoded_height (c : Choice) : (s.encoded c).height = s.height := by
  cases h : c.inserts <;> simp [State.encoded, h]
@[simp] theorem State.encoded_channels (c : Choice) : (s.encoded c).channels = s.channels := by
  cases h : c.inserts <;> simp [State.encoded, h]
@[simp] theorem State.encoded_colorspace (c : Choice) : (s.encoded c).colorspace = s.colorspace := by
  cases h : c.inserts <;> simp [State.encoded, h]
@[simp] theorem State.encoded_inLen (c : Choice) : (s.encoded c).inLen = s.inLen := by
  cases h : c.inserts <;> simp [State.encoded, h]
@[simp] theorem State.encoded_outLen (c : Choice) : (s.encoded c).outLen = s.outLen := by
  cases h : c.inserts <;> simp [State.encoded, h]
@[simp] theorem State.encoded_mem (c : Choice) : (s.encoded c).mem = s.mem := by
  cases h : c.inserts <;> simp [State.encoded, h]
@[simp] theorem State.encoded_phase (c : Choice) : (s.encoded c).phase = s.phase := by
  cases h : c.inserts <;> simp [State.encoded, h]
@[simp] theorem State.encoded_hostMoves (c : Choice) : (s.encoded c).hostMoves = s.hostMoves := by
  cases h : c.inserts <;> simp [State.encoded, h]
@[simp] theorem State.encoded_resetAsserted (c : Choice) : (s.encoded c).resetAsserted = s.resetAsserted := by
  cases h : c.inserts <;> simp [State.encoded, h]
@[simp] theorem State.encoded_cfg (c : Choice) : (s.encoded c).cfg = s.cfg := by
  cases h : c.inserts <;> simp [State.encoded, h]
@[simp] theorem State.encoded_running (c : Choice) : (s.encoded c).running = s.running := by
  cases h : c.inserts <;> simp [State.encoded, h]
@[simp] theorem State.encoded_bodyBase (c : Choice) : (s.encoded c).bodyBase = s.bodyBase := by
  cases h : c.inserts <;> simp [State.encoded, h]
@[simp] theorem State.encoded_bodyLen (c : Choice) : (s.encoded c).bodyLen = s.bodyLen := by
  cases h : c.inserts <;> simp [State.encoded, h]
@[simp] theorem State.encoded_tagsLegal (c : Choice) : (s.encoded c).tagsLegal = s.tagsLegal := by
  cases h : c.inserts <;> simp [State.encoded, h]
@[simp] theorem State.encoded_sizeMatches (c : Choice) : (s.encoded c).sizeMatches = s.sizeMatches := by
  cases h : c.inserts <;> simp [State.encoded, h]

/-! ### Room in the output buffer depends on OUT_LEN and OUT_CAP alone -/

theorem State.fits_of_unbounded (h : s.cfg.outCap = none) (n : Nat) : s.fits n = true := by
  simp [State.fits, h]

@[simp] theorem State.stepped_fits (p : Pixel) (n k : Nat) : (s.stepped p n).fits k = s.fits k := rfl

@[simp] theorem State.inserted_fits (p : Pixel) (k : Nat) : (s.inserted p).fits k = s.fits k := rfl

@[simp] theorem State.encoded_fits (c : Choice) (k : Nat) : (s.encoded c).fits k = s.fits k := by
  cases h : c.inserts <;> simp [State.encoded, h]

end Sys2Proof.Machine
end

