-- ==== Sys2Proof/Laws/Ops.lean ====
section
/-! SUPPORT. One lemma per shared operation: everything it can do. -/

namespace Sys2Proof.Machine

/-! ### Append -/

/-- Room for more elements is room for fewer. -/
theorem State.fits_mono {s : State} {m n : Nat} (h : s.fits n = true) (hle : m ≤ n) : s.fits m = true := by
  unfold State.fits at *
  split at h <;> simp_all
  omega

/-- Room, from a bound on OUT_CAP. -/
theorem State.fits_of_cap {s : State} {n : Nat} (h : ∀ cap, s.cfg.outCap = some cap → s.outLen + n ≤ cap) :
    s.fits n = true := by
  unfold State.fits
  split
  · rfl
  · rename_i cap hc
    simpa using h cap hc

theorem appendPixels_of_fits {ps : List Pixel} {s : State} (h : s.fits ps.length = true) :
    appendPixels ps s = .next (s.pushPixels ps) := by simp [appendPixels, h]

theorem appendBytes_of_fits {bs : List Byte} {s : State} (h : s.fits bs.length = true) :
    appendBytes bs s = .next (s.pushBytes bs) := by simp [appendBytes, h]

/-- An Append answers a next state exactly when there is room, and then the pushed state. -/
theorem appendPixels_next_iff {ps : List Pixel} {s t : State} :
    appendPixels ps s = .next t ↔ s.fits ps.length = true ∧ t = s.pushPixels ps := by
  unfold appendPixels
  constructor
  · intro h; split at h <;> cases h; exact ⟨‹_›, rfl⟩
  · rintro ⟨h, rfl⟩; rw [if_pos h]

theorem appendBytes_next_iff {bs : List Byte} {s t : State} :
    appendBytes bs s = .next t ↔ s.fits bs.length = true ∧ t = s.pushBytes bs := by
  unfold appendBytes
  constructor
  · intro h; split at h <;> cases h; exact ⟨‹_›, rfl⟩
  · rintro ⟨h, rfl⟩; rw [if_pos h]

/-- The output after an Append: what was there, then the new elements. -/
theorem pushPixels_output {s : State} {xs : List Pixel} (h : Buffer.readSeq s.mem.pixOut 0 s.outLen = some xs)
    (ps : List Pixel) :
    Buffer.readSeq (s.pushPixels ps).mem.pixOut 0 (s.pushPixels ps).outLen = some (xs ++ ps) :=
  Buffer.readSeq_appended h ps

theorem pushBytes_output {s : State} {xs : List Byte} (h : Buffer.readSeq s.mem.byteOut 0 s.outLen = some xs)
    (bs : List Byte) :
    Buffer.readSeq (s.pushBytes bs).mem.byteOut 0 (s.pushBytes bs).outLen = some (xs ++ bs) :=
  Buffer.readSeq_appended h bs

/-- Appends keep the canonical form of memory. -/
theorem pushPixels_wf {s : State} (h : s.mem.wf) (ps : List Pixel) : (s.pushPixels ps).mem.wf :=
  ⟨h.1, h.2.1, h.2.2.1, Buffer.wf_writeSeq h.2.2.2 _ _⟩

theorem pushBytes_wf {s : State} (h : s.mem.wf) (bs : List Byte) : (s.pushBytes bs).mem.wf :=
  ⟨h.1, Buffer.wf_writeSeq h.2.1 _ _, h.2.2.1, h.2.2.2⟩

/-! ### The availability check -/

theorem ifAvailable_of_le {n : Nat} {s : State} {k : Result} (h : s.pos + n ≤ s.bodyLen) : ifAvailable n s k = k := by
  simp [ifAvailable, h]

theorem ifAvailable_of_lt {n : Nat} {s : State} {k : Result} (h : s.bodyLen < s.pos + n) :
    ifAvailable n s k = .next (s.raised .decodeError) := by
  simp [ifAvailable, raise, show ¬ s.pos + n ≤ s.bodyLen by omega]

/-! ### Commands and their codes -/

@[simp] theorem commandOf_commandCode (c : Command) : commandOf (commandCode c) = some c := by
  cases c <;> rfl

theorem decodeCommand_commandCode (c : Command) : decodeCommand (commandCode c) = .ok (startOf c) := by
  cases c <;> rfl

/-- Starting a command: refused while BUSY, refused by an encoding command with an illegal tag, else started. -/
theorem exec_startOf (c : Command) (s : State) :
    exec (startOf c) s =
      if s.status = .busy then .refused .hostWriteWhileBusy
      else if isEncoding c = true ∧ s.tagsLegal = false then .refused .illegalTag
      else .next (s.started c) := by
  cases c <;> cases h : s.tagsLegal <;>
    simp [startOf, exec, execEnc, execDec, execDecBody, execEncHdr, execDecHdr, startWithTags, startCommand, isEncoding, h]

/-! ### A decoded chunk -/

/-- What a chunk leaves when it is not cut short: its last pixel in `prev`, `pos` past its bytes, the cache as it was or with that
pixel inserted, and its pixels appended. -/
theorem exec_chunk_next {i : Instr} {s t : State} (hi : i.space = .body) (h : exec i s = .next t) :
    (s.bodyLen < s.pos + i.byteLength ∧ 1 < i.byteLength ∧ t = s.raised .decodeError) ∨
    ((i.byteLength = 1 ∨ s.pos + i.byteLength ≤ s.bodyLen) ∧
      ∃ (u : State) (ps : List Pixel), (u = s ∨ ∃ p, u = s.inserted p) ∧ ps.length = pixelsProduced i ∧
        s.fits ps.length = true ∧
        ∃ p, t = (u.stepped p i.byteLength).pushPixels ps) := by
  have hins : ∀ (px : Pixel) (n : Nat), emitInserted px n s = .next t →
      ∃ (u : State) (ps : List Pixel), (u = s ∨ ∃ p, u = s.inserted p) ∧ ps.length = 1 ∧ s.fits ps.length = true ∧
        ∃ p, t = (u.stepped p n).pushPixels ps := by
    intro px n hx
    obtain ⟨hf, rfl⟩ := appendPixels_next_iff.mp hx
    exact ⟨s.inserted px, [px], .inr ⟨px, rfl⟩, rfl, hf, px, rfl⟩
  have hmulti : ∀ (px : Pixel) (n : Nat), 1 < n → ifAvailable n s (emitInserted px n s) = .next t →
      (s.bodyLen < s.pos + n ∧ 1 < n ∧ t = s.raised .decodeError) ∨
      ((n = 1 ∨ s.pos + n ≤ s.bodyLen) ∧
        ∃ (u : State) (ps : List Pixel), (u = s ∨ ∃ p, u = s.inserted p) ∧ ps.length = 1 ∧
          s.fits ps.length = true ∧ ∃ p, t = (u.stepped p n).pushPixels ps) := by
    intro px n hn hx
    by_cases hle : s.pos + n ≤ s.bodyLen
    · rw [ifAvailable_of_le hle] at hx
      exact .inr ⟨.inr hle, hins px n hx⟩
    · rw [ifAvailable_of_lt (by omega)] at hx
      cases hx
      exact .inl ⟨by omega, hn, rfl⟩
  cases i with
  | index slot =>
    obtain ⟨hf, rfl⟩ := appendPixels_next_iff.mp h
    exact .inr ⟨.inl rfl, s, _, .inl rfl, rfl, hf, _, rfl⟩
  | diff dr dg db => exact .inr ⟨.inl rfl, hins _ 1 h⟩
  | luma dg drDg dbDg => exact hmulti _ 2 (by omega) h
  | rgb r g b => exact hmulti _ 4 (by omega) h
  | rgba r g b a => exact hmulti _ 5 (by omega) h
  | run count =>
    obtain ⟨hf, rfl⟩ := appendPixels_next_iff.mp h
    exact .inr ⟨.inl rfl, s, _, .inl rfl, by simp [pixelsProduced], hf, _, rfl⟩
  | header w h c cs => cases hi
  | nop => cases hi
  | enc => cases hi
  | dec => cases hi
  | decBody => cases hi
  | encHdr => cases hi
  | decHdr => cases hi

/-! ### The decoder's answers -/

/-- A chunk decoder answers chunks only. -/
theorem decodeChunk_space {bs rest : List Byte} {i : Instr} (h : decodeChunk bs = .ok (i, rest)) : i.space = .body := by
  unfold decodeChunk at h
  split at h
  · cases h
  · split at h
    · split at h <;> cases h; rfl
    · split at h
      · split at h <;> cases h; rfl
      · split at h
        · cases h; rfl
        · split at h
          · cases h; rfl
          · split at h
            · split at h <;> cases h; rfl
            · cases h; rfl

/-- A header decoder answers headers with legal tags only. -/
theorem decodeHeader_ok {m : Magic} {bs rest : List Byte} {i : Instr} (h : decodeHeader m bs = .ok (i, rest)) :
    ∃ w h c cs, i = .header w h c cs ∧ legalChannels c = true ∧ legalColorspace cs = true := by
  unfold decodeHeader at h
  split at h
  · split at h
    · cases h
    · split at h
      · cases h
      · split at h
        · cases h
        · cases h
          exact ⟨_, _, _, _, rfl, by simp_all, by simp_all⟩
  · cases h

/-- A header is decided by its first 14 bytes (rule R121). -/
theorem decodeHeader_take {m : Magic} {bs : List Byte} (h : 14 ≤ bs.length) :
    (∃ e, decodeHeader m bs = .error e ∧ decodeHeader m (bs.take 14) = .error e) ∨
    ∃ i, decodeHeader m bs = .ok (i, bs.drop 14) ∧ decodeHeader m (bs.take 14) = .ok (i, []) := by
  rcases bs with _ | ⟨x0, _ | ⟨x1, _ | ⟨x2, _ | ⟨x3, _ | ⟨x4, _ | ⟨x5, _ | ⟨x6, _ | ⟨x7, _ | ⟨x8, _ | ⟨x9, _ | ⟨x10, _ |
    ⟨x11, _ | ⟨x12, _ | ⟨x13, bs⟩⟩⟩⟩⟩⟩⟩⟩⟩⟩⟩⟩⟩⟩
  all_goals first | (simp at h; done) | skip
  simp only [List.take_succ_cons, List.take_zero, List.drop_succ_cons, List.drop_zero, decodeHeader]
  split
  · exact .inl ⟨_, rfl, rfl⟩
  · split
    · exact .inl ⟨_, rfl, rfl⟩
    · split
      · exact .inl ⟨_, rfl, rfl⟩
      · exact .inr ⟨_, rfl, rfl⟩

/-- A header that is decoded from exactly 14 bytes leaves none over. -/
theorem decodeHeader_exact {m : Magic} {bs rest : List Byte} {i : Instr} (hl : bs.length = 14)
    (h : decodeHeader m bs = .ok (i, rest)) : rest = [] := by
  rcases decodeHeader_take (m := m) hl.ge with ⟨e, he, -⟩ | ⟨j, hj, -⟩
  · rw [h] at he; cases he
  · rw [h] at hj; cases hj
    exact List.drop_of_length_le hl.le

/-- What the header decoder answers on an encoded header (rules R122, R123, R239): the three cases of its tags. -/
theorem decodeHeader_encodeHeader_channels (m : Magic) (w h : Word) {c : Byte} (cs : Byte) (rest : List Byte)
    (hc : legalChannels c = false) : decodeHeader m (encodeHeader m w h c cs ++ rest) = .error .badChannels := by
  simp [encodeHeader, Magic.bytes, be32, decodeHeader, hc]

theorem decodeHeader_encodeHeader_colorspace (m : Magic) (w h : Word) {c cs : Byte} (rest : List Byte)
    (hc : legalChannels c = true) (hcs : legalColorspace cs = false) :
    decodeHeader m (encodeHeader m w h c cs ++ rest) = .error .badColorspace := by
  simp [encodeHeader, Magic.bytes, be32, decodeHeader, hc, hcs]

@[simp] theorem encodeHeader_length (m : Magic) (w h : Word) (c cs : Byte) : (encodeHeader m w h c cs).length = 14 := rfl

@[simp] theorem headerBytes_length (s : State) : s.headerBytes.length = 14 := rfl

end Sys2Proof.Machine
end

