-- ==== Sys2Proof/Laws/Step.lean ====
section
/-! SUPPORT. Everything a step can do, said once: which step each state takes, and the inversion of a step. -/

namespace Sys2Proof.Machine

variable {s : State}

@[simp] theorem perform_run (i : Instr) (u : State) : perform (.run i u) = exec i u := rfl

@[simp] theorem perform_outcome (o : Result) : perform (.outcome o) = o := rfl

/-! ### Which step is taken -/

theorem step_of_reset (h : s.resetAsserted = true) : step s = .next s.hardwareReset := by
  simp [step, nextAction, h]

theorem step_of_not_busy (hr : s.resetAsserted = false) (hb : s.status ≠ .busy) :
    step s = perform (hostTurn s) := by
  unfold step nextAction
  cases hs : s.status <;> simp_all

theorem step_of_entry (hr : s.resetAsserted = false) (hb : s.status = .busy) (hp : s.phase = .entry) :
    step s = perform (entryAction s) := by
  simp [step, nextAction, hr, hb, engineTurn, hp]

theorem step_of_chunks (hr : s.resetAsserted = false) (hb : s.status = .busy) (hp : s.phase = .chunks) :
    step s = perform (chunkAction s) := by
  simp [step, nextAction, hr, hb, engineTurn, hp]

theorem step_of_encChunks (hr : s.resetAsserted = false) (h : s.inChunks .enc) : step s = encChunks s := by
  simp [step_of_chunks hr h.1 h.2.1, chunkAction, h.2.2]

theorem step_of_body (hr : s.resetAsserted = false) (h : s.inBody) :
    step s = perform (fetchChunk s) := by
  rcases h with h | h <;> simp [step_of_chunks hr h.1 h.2.1, chunkAction, h.2.2]

theorem step_of_header (hr : s.resetAsserted = false) (hb : s.status = .busy) (hp : s.phase = .entry)
    (hc : s.running = some .dec ∨ s.running = some .decHdr) :
    step s = perform (fetchHeader s) := by
  rcases hc with hc | hc <;> simp [step_of_entry hr hb hp, entryAction, hc]

/-! ### What a step can leave -/

/-- A state a step can leave, by the kind of step. -/
inductive StepTo (s : State) : State → Prop
  /-- Hardware reset (rule R260). -/
  | reset (h : s.resetAsserted = true) : StepTo s s.hardwareReset
  /-- Nothing happens (rule R248). -/
  | waits (hb : s.status ≠ .busy) : StepTo s s
  /-- A host move that is no CMD write (rule R25). -/
  | hostWrites (rest : List HostMove) (hb : s.status ≠ .busy) (w h : Word) (c cs : Byte) (n : Nat)
      (px : Buffer Pixel) (bs : Buffer Byte) (hpx : Buffer.wf s.mem.pixIn → Buffer.wf px)
      (hbs : Buffer.wf s.mem.byteIn → Buffer.wf bs) :
      StepTo s { s with hostMoves := rest, width := w, height := h, channels := c, colorspace := cs, inLen := n,
                        mem := { s.mem with pixIn := px, byteIn := bs } }
  /-- NOP written (rule R216). -/
  | nop (rest : List HostMove) (hb : s.status ≠ .busy) : StepTo s { s with hostMoves := rest, cmd := 0 }
  /-- A command started (rule R210). -/
  | starts (rest : List HostMove) (c : Command) (hb : s.status ≠ .busy)
      (ht : isEncoding c = true → s.tagsLegal = true) : StepTo s ({ s with hostMoves := rest } |>.started c)
  /-- ENC's size check fails (rule R150). -/
  | sizeMismatch (hb : s.status = .busy) (hp : s.phase = .entry) (hc : s.running = some .enc) :
      StepTo s (s.raised .sizeMismatch)
  /-- ENC's entry action (rule R151). -/
  | encEntry (hb : s.status = .busy) (hp : s.phase = .entry) (hc : s.running = some .enc)
      (hz : s.sizeMatches = true) (hf : s.initialised.fits 14 = true) :
      StepTo s (s.initialised.pushBytes s.headerBytes)
  /-- DEC_BODY's entry action (rule R261). -/
  | bodyEntry (hb : s.status = .busy) (hp : s.phase = .entry) (hc : s.running = some .decBody) :
      StepTo s s.initialised
  /-- ENC_HDR's step (rule R214). -/
  | encHdr (hb : s.status = .busy) (hp : s.phase = .entry) (hc : s.running = some .encHdr) (hf : s.fits 14 = true) :
      StepTo s (s.finished.pushBytes s.headerBytes)
  /-- A bad header (rule R231). -/
  | formatError (hb : s.status = .busy) (hp : s.phase = .entry)
      (hc : s.running = some .dec ∨ s.running = some .decHdr) (cause : FormatCause) :
      StepTo s (s.raised (.formatError cause))
  /-- DEC's header, read (rule R212). -/
  | decEntry (hb : s.status = .busy) (hp : s.phase = .entry) (hc : s.running = some .dec) (hn : 14 ≤ s.inLen)
      (w h : Word) (c cs : Byte) (bs : List Byte) (hbs : Buffer.readSeq s.mem.byteIn 0 14 = some bs)
      (hd : decodeHeader s.cfg.magic bs = .ok (.header w h c cs, [])) : StepTo s (s.headerWritten w h c cs).initialised
  /-- DEC_HDR's header, read (rule R215). -/
  | decHdr (hb : s.status = .busy) (hp : s.phase = .entry) (hc : s.running = some .decHdr) (hn : 14 ≤ s.inLen)
      (w h : Word) (c cs : Byte) (bs : List Byte) (hbs : Buffer.readSeq s.mem.byteIn 0 14 = some bs)
      (hd : decodeHeader s.cfg.magic bs = .ok (.header w h c cs, [])) : StepTo s (s.headerWritten w h c cs).finished
  /-- A chunk emitted (rule R159). -/
  | encChunk (he : s.inChunks .enc) (hpos : s.pos < s.inLen) (c : Choice) (hc : chooseChunk s = some c)
      (hf : s.fits (encode s.cfg.magic c.chunk).length = true) :
      StepTo s ((s.encoded c).pushBytes (encode s.cfg.magic c.chunk))
  /-- A chunk executed (rule R189). -/
  | decChunk (t : State) (hd : s.inBody) (i : Instr) (bs rest : List Byte) (hi : decodeChunk bs = .ok (i, rest))
      (hpos : s.pos + chunkLen bs.headI ≤ s.bodyLen) (hbs : Buffer.readSeq s.mem.byteIn (s.bodyBase + s.pos) (chunkLen bs.headI) = some bs)
      (hx : exec i s = .next t) : StepTo s t
  /-- A chunk cut short (rule R181). -/
  | decodeError (hd : s.inBody) : StepTo s (s.raised .decodeError)
  /-- The end action (rule R217). -/
  | ends (hb : s.status = .busy) (hp : s.phase = .chunks) (he : s.inChunks .enc → s.inLen ≤ s.pos)
      (hd : s.inBody → s.bodyLen ≤ s.pos) : StepTo s s.finished

theorem decodeCommand_ok {code : BitVec 3} {i : Instr} (h : decodeCommand code = .ok i) :
    (i = .nop ∧ code = 0) ∨ ∃ c, i = startOf c ∧ code = commandCode c := by
  unfold decodeCommand at h
  split at h
  · cases h; exact .inl ⟨rfl, ‹_›⟩
  · split at h
    · cases h; exact .inr ⟨.enc, rfl, ‹_›⟩
    · split at h
      · cases h; exact .inr ⟨.dec, rfl, ‹_›⟩
      · split at h
        · cases h; exact .inr ⟨.decBody, rfl, ‹_›⟩
        · split at h
          · cases h; exact .inr ⟨.encHdr, rfl, ‹_›⟩
          · split at h
            · cases h; exact .inr ⟨.decHdr, rfl, ‹_›⟩
            · cases h

theorem hostMove_next {t : State} {m : HostMove} {rest : List HostMove} (hb : s.status ≠ .busy)
    (h : perform (hostMove m { s with hostMoves := rest }) = .next t) :
    StepTo s t := by
  cases m with
  | writeCmd code =>
    simp only [hostMove, hb, if_false] at h
    cases hd : decodeCommand code with
    | error e => simp [hd] at h
    | ok i =>
      simp only [hd, perform_run] at h
      rcases decodeCommand_ok hd with ⟨rfl, rfl⟩ | ⟨c, rfl, rfl⟩
      · simp only [exec, execNop, if_neg hb] at h
        cases h
        exact .nop rest hb
      · rw [exec_startOf, if_neg hb] at h
        split at h
        · cases h
        · rename_i hc
          cases h
          refine .starts rest c hb fun he => ?_
          simpa [State.tagsLegal] using mt (And.intro he) hc
  | writeWidth v =>
    simp only [hostMove, hb, if_false, perform_outcome] at h
    cases h
    exact .hostWrites rest hb v s.height s.channels s.colorspace s.inLen s.mem.pixIn s.mem.byteIn id id
  | writeHeight v =>
    simp only [hostMove, hb, if_false, perform_outcome] at h
    cases h
    exact .hostWrites rest hb s.width v s.channels s.colorspace s.inLen s.mem.pixIn s.mem.byteIn id id
  | writeChannels v =>
    simp only [hostMove, hb, if_false, perform_outcome] at h
    cases h
    exact .hostWrites rest hb s.width s.height v s.colorspace s.inLen s.mem.pixIn s.mem.byteIn id id
  | writeColorspace v =>
    simp only [hostMove, hb, if_false, perform_outcome] at h
    cases h
    exact .hostWrites rest hb s.width s.height s.channels v s.inLen s.mem.pixIn s.mem.byteIn id id
  | writeInLen n =>
    simp only [hostMove, hb, if_false, perform_outcome] at h
    cases h
    exact .hostWrites rest hb s.width s.height s.channels s.colorspace n s.mem.pixIn s.mem.byteIn id id
  | putPixels i ps =>
    simp only [hostMove, hb, if_false, perform_outcome] at h
    cases h
    exact .hostWrites rest hb s.width s.height s.channels s.colorspace s.inLen _ s.mem.byteIn
      (fun h => Buffer.wf_writeSeq h i ps) id
  | putBytes i bs =>
    simp only [hostMove, hb, if_false, perform_outcome] at h
    cases h
    exact .hostWrites rest hb s.width s.height s.channels s.colorspace s.inLen s.mem.pixIn _ id
      (fun h => Buffer.wf_writeSeq h i bs)

/-- A HEADER with legal tags fills the registers and lets its command go on. -/
theorem execHeader_legal (w h : Word) {c cs : Byte} (hc : legalChannels c = true) (hcs : legalColorspace cs = true) :
    exec (.header w h c cs) s = .next (afterHeader (s.headerWritten w h c cs)) := by
  simp [exec, execHeader, hc, hcs]

theorem fetchHeader_next {t : State} (hb : s.status = .busy) (hp : s.phase = .entry)
    (hc : s.running = some .dec ∨ s.running = some .decHdr)
    (h : perform (fetchHeader s) = .next t) : StepTo s t := by
  unfold fetchHeader at h
  split at h
  · cases h
    exact .formatError hb hp hc .truncated
  · rename_i hn
    cases hbs : Buffer.readSeq s.mem.byteIn 0 Config.headerBytes with
    | none => simp [hbs] at h
    | some bs =>
      simp only [hbs] at h
      cases hd : decodeHeader s.cfg.magic bs with
      | error e =>
        simp only [hd] at h
        cases h
        exact .formatError hb hp hc (headerCause e)
      | ok r =>
        obtain ⟨i, rest⟩ := r
        obtain ⟨w, hh, c, cs, rfl, hlc, hls⟩ := decodeHeader_ok hd
        simp only [hd, perform_run] at h
        rw [execHeader_legal w hh hlc hls] at h
        cases h
        have hn' : 14 ≤ s.inLen := by simpa [Config.headerBytes] using hn
        cases decodeHeader_exact (Buffer.readSeq_length hbs) hd
        rcases hc with hc | hc
        · simpa [afterHeader, hc] using StepTo.decEntry (s := s) hb hp hc hn' w hh c cs bs hbs hd
        · simpa [afterHeader, hc] using StepTo.decHdr (s := s) hb hp hc hn' w hh c cs bs hbs hd

theorem fetchChunk_next {t : State} (hd : s.inBody)
    (h : perform (fetchChunk s) = .next t) : StepTo s t := by
  have hbp : s.status = .busy ∧ s.phase = .chunks := by rcases hd with hd | hd <;> exact ⟨hd.1, hd.2.1⟩
  unfold fetchChunk at h
  split at h
  · cases hb0 : Buffer.read s.mem.byteIn (s.bodyBase + s.pos) with
    | none => simp [hb0] at h
    | some b0 =>
      simp only [hb0] at h
      split at h
      · rename_i hle
        cases hbs : Buffer.readSeq s.mem.byteIn (s.bodyBase + s.pos) (chunkLen b0) with
        | none => simp [hbs] at h
        | some bs =>
          have hhd : bs.headI = b0 := by
            have hpos : 0 < chunkLen b0 := by unfold chunkLen; split_ifs <;> omega
            have := Buffer.read_of_readSeq hbs hpos
            rw [Nat.add_zero, hb0] at this
            cases bs with
            | nil => simp at this
            | cons x xs => simpa using this.symm
          simp only [hbs] at h
          cases hi : decodeChunk bs with
          | error e =>
            simp only [hi] at h
            cases h
            exact .decodeError hd
          | ok r =>
            obtain ⟨i, rest⟩ := r
            simp only [hi] at h
            exact .decChunk t hd i bs rest hi (by rw [hhd]; exact hle) (by rw [hhd]; exact hbs) h
      · cases h
        exact .decodeError hd
  · cases h
    rename_i hpos
    refine .ends hbp.1 hbp.2 (fun he => ?_) fun _ => by omega
    exfalso
    rcases hd with hd | hd <;> simp [State.inChunks, hd.2.2] at he

/-- The inversion of a step: whatever a step leaves, one of these is how. -/
theorem step_next {t : State} (h : step s = .next t) : StepTo s t := by
  cases hr : s.resetAsserted with
  | true =>
    rw [step_of_reset hr] at h
    cases h
    exact .reset hr
  | false =>
    by_cases hb : s.status = .busy
    · cases hp : s.phase with
      | entry =>
        cases hc : s.running with
        | none => simp [step_of_entry hr hb hp, entryAction, hc] at h
        | some c =>
          cases c with
          | enc =>
            simp only [step_of_entry hr hb hp, entryAction, hc, Machine.encEntry] at h
            split at h
            · rename_i hz
              obtain ⟨hf, rfl⟩ := appendBytes_next_iff.mp h
              exact .encEntry hb hp hc hz hf
            · cases h
              exact .sizeMismatch hb hp hc
          | dec => exact fetchHeader_next hb hp (.inl hc) (by rwa [step_of_header hr hb hp (.inl hc)] at h)
          | decBody =>
            simp only [step_of_entry hr hb hp, entryAction, hc] at h
            cases h
            exact .bodyEntry hb hp hc
          | encHdr =>
            simp only [step_of_entry hr hb hp, entryAction, hc, encHdrEntry] at h
            obtain ⟨hf, rfl⟩ := appendBytes_next_iff.mp h
            exact .encHdr hb hp hc hf
          | decHdr => exact fetchHeader_next hb hp (.inr hc) (by rwa [step_of_header hr hb hp (.inr hc)] at h)
      | chunks =>
        cases hc : s.running with
        | none => simp [step_of_chunks hr hb hp, chunkAction, hc] at h
        | some c =>
          have stray : s.running = some .encHdr ∨ s.running = some .decHdr → StepTo s s.finished := by
            intro hs
            refine .ends hb hp (fun he => ?_) (fun hd => ?_)
            · exfalso; rcases hs with hs | hs <;> simp [State.inChunks, hs] at he
            · exfalso; rcases hs with hs | hs <;> simp [State.inBody, State.inChunks, hs] at hd
          cases c with
          | enc =>
            have he : s.inChunks .enc := ⟨hb, hp, hc⟩
            rw [step_of_encChunks hr he] at h
            unfold encChunks at h
            split at h
            · rename_i hpos
              unfold encoderStep at h
              split at h
              · cases h
              · rename_i c hch
                obtain ⟨hf, rfl⟩ := appendBytes_next_iff.mp h
                exact .encChunk he hpos c hch (by simpa using hf)
            · cases h
              refine .ends hb hp (fun _ => by omega) fun hd => ?_
              exfalso; simp [State.inBody, State.inChunks, hc] at hd
          | dec =>
            exact fetchChunk_next (.inl ⟨hb, hp, hc⟩) (by rwa [step_of_body hr (.inl ⟨hb, hp, hc⟩)] at h)
          | decBody =>
            exact fetchChunk_next (.inr ⟨hb, hp, hc⟩) (by rwa [step_of_body hr (.inr ⟨hb, hp, hc⟩)] at h)
          | encHdr =>
            simp only [step_of_chunks hr hb hp, chunkAction, hc] at h
            cases h
            exact stray (.inl hc)
          | decHdr =>
            simp only [step_of_chunks hr hb hp, chunkAction, hc] at h
            cases h
            exact stray (.inr hc)
    · rw [step_of_not_busy hr hb] at h
      unfold hostTurn at h
      split at h
      · cases h
        exact .waits hb
      · exact hostMove_next hb h

end Sys2Proof.Machine
end

