-- ==== Sys2Proof/Laws/Run.lean ====
section
/-! SUPPORT. The laws of a command's run: its start, one step of it, and that more steps than it needs change nothing. -/

namespace Sys2Proof.Machine

variable {s t : State}

@[simp] theorem State.started_headerBytes (s : State) (c : Command) : (s.started c).headerBytes = s.headerBytes := rfl

/-- A command starts where the engine is not BUSY and, for an encoding command, the tags are legal (rule R210). -/
theorem exec_startOf_legal {c : Command} (hb : s.status ≠ .busy) (ht : isEncoding c = true → s.tagsLegal = true) :
    exec (startOf c) s = .next (s.started c) := by
  rw [exec_startOf, if_neg hb, if_neg]
  rintro ⟨h1, h2⟩
  rw [ht h1] at h2
  cases h2

theorem runCommand_of_not_busy (h : s.status ≠ .busy) (k : Nat) : runCommand k s = .next s := by
  cases k <;> simp [runCommand, h]

theorem runCommand_succ (h : s.status = .busy) (hs : step s = .next t) (k : Nat) :
    runCommand (k + 1) s = runCommand k t := by
  simp [runCommand, h, hs]

/-- An ended run is the same with more steps allowed. -/
theorem runCommand_mono {k : Nat} (h : runCommand k s = .next t) (ht : t.status ≠ .busy) {j : Nat} (hj : k ≤ j) :
    runCommand j s = .next t := by
  induction k generalizing s j with
  | zero =>
    cases h
    exact runCommand_of_not_busy ht j
  | succ k ih =>
    obtain ⟨j, rfl⟩ : ∃ i, j = i + 1 := ⟨j - 1, by omega⟩
    by_cases hb : s.status = .busy
    · simp only [runCommand, hb, if_true] at h ⊢
      cases hst : step s with
      | next u => simp only [hst] at h ⊢; exact ih h (by omega)
      | fault r => simp [hst] at h
      | refused r => simp [hst] at h
    · rw [runCommand_of_not_busy hb] at h ⊢
      exact h

/-- An encoder step, while pixels remain (rule R151). -/
theorem step_of_encoder (hr : s.resetAsserted = false) (h : s.inChunks .enc) (hp : s.pos < s.inLen) :
    step s = encoderStep s := by
  rw [step_of_encChunks hr h]
  simp [encChunks, hp]

end Sys2Proof.Machine
end

