-- ==== Sys2Proof/Laws/Decoder.lean ====
section
/-! SUPPORT. What the chunk decoder answers on the bytes its first byte asks for, and the step of a body whose bytes are known. -/

namespace Sys2Proof.Machine

/-- A chunk is 1 to 5 bytes long (rule R91). -/
theorem chunkLen_bounds (b : Byte) : 1 ≤ chunkLen b ∧ chunkLen b ≤ 5 := by
  unfold chunkLen
  split_ifs <;> omega

/-- A decoded chunk has the length its first byte gives and stands for 1 to 62 pixels (rules R90, R91). -/
theorem decodeChunk_length {bs rest : List Byte} {i : Instr} (h : decodeChunk bs = .ok (i, rest)) :
    i.byteLength = chunkLen bs.headI ∧ 1 ≤ pixelsProduced i ∧ pixelsProduced i ≤ 62 := by
  have hrun : ∀ b : Byte, b ≠ 0xFE → b ≠ 0xFF → bits b 5 0 + 1 ≤ 62 ∨ bits b 7 6 ≠ 3 := by decide
  cases bs with
  | nil => cases h
  | cons b0 tl =>
    change i.byteLength = chunkLen b0 ∧ _
    unfold chunkLen
    simp only [decodeChunk] at h
    split at h
    · rename_i h1
      simp only [if_pos h1]
      split at h <;> cases h
      simp [Instr.byteLength, pixelsProduced]
    · rename_i h1
      simp only [if_neg h1]
      split at h
      · rename_i h2
        simp only [if_pos h2]
        split at h <;> cases h
        simp [Instr.byteLength, pixelsProduced]
      · rename_i h2
        simp only [if_neg h2]
        split at h
        · rename_i h3
          cases h
          simp [h3, Instr.byteLength, pixelsProduced]
        · split at h
          · rename_i h3
            cases h
            simp [h3, Instr.byteLength, pixelsProduced]
          · split at h
            · rename_i h3
              simp only [if_pos h3]
              split at h <;> cases h
              simp [Instr.byteLength, pixelsProduced]
            · rename_i h3 h4 h5
              simp only [if_neg h5]
              cases h
              have h76 : bits b0 7 6 < 4 := by unfold bits; omega
              refine ⟨rfl, by simp [pixelsProduced], ?_⟩
              rcases hrun b0 h1 h2 with h | h
              · exact h
              · omega

/-- The bytes the first byte asks for are one chunk, whatever they hold (rule R83). -/
theorem decodeChunk_take {b0 : Byte} {bs : List Byte} (hle : chunkLen b0 ≤ bs.length + 1) :
    ∃ i, decodeChunk ((b0 :: bs).take (chunkLen b0)) = .ok (i, []) := by
  by_cases h1 : b0 = 0xFE
  · have hc : chunkLen b0 = 4 := by unfold chunkLen; rw [if_pos h1]
    rw [hc] at hle ⊢
    rcases bs with _ | ⟨a, _ | ⟨b, _ | ⟨c, rest⟩⟩⟩ <;> simp at hle
    subst h1
    exact ⟨_, rfl⟩
  by_cases h2 : b0 = 0xFF
  · have hc : chunkLen b0 = 5 := by unfold chunkLen; rw [if_neg h1, if_pos h2]
    rw [hc] at hle ⊢
    rcases bs with _ | ⟨a, _ | ⟨b, _ | ⟨c, _ | ⟨d, rest⟩⟩⟩⟩ <;> simp at hle
    subst h2
    exact ⟨_, rfl⟩
  by_cases h3 : bits b0 7 6 = 2
  · have hc : chunkLen b0 = 2 := by unfold chunkLen; rw [if_neg h1, if_neg h2, if_pos h3]
    rw [hc] at hle ⊢
    rcases bs with _ | ⟨a, rest⟩
    · simp at hle
    · simp only [List.take_succ_cons, List.take_zero, decodeChunk]
      rw [if_neg h1, if_neg h2, if_neg (by omega), if_neg (by omega), if_pos h3]
      exact ⟨_, rfl⟩
  · have hc : chunkLen b0 = 1 := by unfold chunkLen; rw [if_neg h1, if_neg h2, if_neg h3]
    rw [hc]
    simp only [List.take_succ_cons, List.take_zero, decodeChunk, h1, h2, h3, if_false]
    split
    · exact ⟨_, rfl⟩
    · split <;> exact ⟨_, rfl⟩

/-- What is left of the body at `pos` is exactly `bs`. -/
def State.restIs (d : State) (bs : List Byte) : Prop :=
  d.pos + bs.length = d.bodyLen ∧ Buffer.readSeq d.mem.byteIn (d.bodyBase + d.pos) bs.length = some bs

/-- A body step with the rest of the body known: a whole chunk is run, a cut one raises (rule R181). -/
theorem step_of_rest {d : State} (hr : d.resetAsserted = false) (hd : d.inBody) {b0 : Byte} {bs : List Byte}
    (h : d.restIs (b0 :: bs)) :
    (chunkLen b0 ≤ bs.length + 1 →
      ∃ i, decodeChunk ((b0 :: bs).take (chunkLen b0)) = .ok (i, []) ∧ step d = exec i d) ∧
    (bs.length + 1 < chunkLen b0 → step d = .next (d.raised .decodeError)) := by
  obtain ⟨hl, hrd⟩ := h
  simp only [List.length_cons] at hl hrd
  have hb0 := Buffer.read_of_readSeq hrd (k := 0) (by omega)
  simp only [Nat.add_zero, List.getElem?_cons_zero] at hb0
  constructor
  · intro hle
    obtain ⟨i, hi⟩ := decodeChunk_take hle
    refine ⟨i, hi, ?_⟩
    have hsub := Buffer.readSeq_sub hrd 0 (chunkLen b0) (by omega)
    simp only [Nat.add_zero, List.drop_zero] at hsub
    rw [step_of_body hr hd, fetchChunk, if_pos (by omega), hb0]
    simp only
    rw [if_pos (by omega), hsub]
    simp only [hi, perform_run]
  · intro hlt
    rw [step_of_body hr hd, fetchChunk, if_pos (by omega), hb0]
    simp only
    rw [if_neg (by omega)]
    rfl

end Sys2Proof.Machine
end

