-- ==== Sys2Proof/Laws/PerInstr.lean ====
section
/-! SUPPORT. What holds of every instruction as syntax, one lemma per constructor: its encoding has its length, and a chunk's first
byte tells that length. -/

namespace Sys2Proof.Laws.EncodingLength

/-- The encoding of `i` has `i`'s length, and where `i` is a well-formed chunk its first byte alone gives it (rule R91). -/
def Statement (i : Instr) : Prop :=
  ∀ m : Magic, (encode m i).length = i.byteLength ∧
    (i.space = .body → i.WellFormed → ∃ b0 rest, encode m i = b0 :: rest ∧ chunkLen b0 = i.byteLength)

theorem index (slot : Slot) : Statement (.index slot) := by
  intro m
  refine ⟨rfl, fun _ _ => ⟨_, _, rfl, ?_⟩⟩
  revert slot
  decide

/-- A field between two bounds is one of finitely many values. -/
theorem within_iff {lo hi x : Int} : within lo hi x = true ↔ lo ≤ x ∧ x ≤ hi := by
  simp [within]

theorem diff (dr dg db : Int) : Statement (.diff dr dg db) := by
  intro m
  refine ⟨rfl, fun _ hw => ⟨_, _, rfl, ?_⟩⟩
  simp only [Instr.WellFormed, Instr.wellFormed, Bool.and_eq_true, within_iff] at hw
  obtain ⟨⟨⟨hr, hr'⟩, hg, hg'⟩, hb, hb'⟩ := hw
  have : ∀ x y z : Fin 4, chunkLen (0x40#8 ||| biased (x.val - 2) 2 <<< 4 ||| biased (y.val - 2) 2 <<< 2 |||
      biased (z.val - 2) 2) = 1 := by decide
  have := this ⟨(dr + 2).toNat, by omega⟩ ⟨(dg + 2).toNat, by omega⟩ ⟨(db + 2).toNat, by omega⟩
  simpa [show ((dr + 2).toNat : Int) = dr + 2 by omega, show ((dg + 2).toNat : Int) = dg + 2 by omega,
    show ((db + 2).toNat : Int) = db + 2 by omega, Instr.byteLength] using this

theorem luma (dg drDg dbDg : Int) : Statement (.luma dg drDg dbDg) := by
  intro m
  refine ⟨rfl, fun _ hw => ⟨_, _, rfl, ?_⟩⟩
  simp only [Instr.WellFormed, Instr.wellFormed, Bool.and_eq_true, within_iff] at hw
  have : ∀ x : Fin 64, chunkLen (0x80#8 ||| biased (x.val - 32) 32) = 2 := by decide
  have := this ⟨(dg + 32).toNat, by omega⟩
  simpa [show ((dg + 32).toNat : Int) = dg + 32 by omega, Instr.byteLength] using this

theorem rgb (r g b : Byte) : Statement (.rgb r g b) :=
  fun _ => ⟨rfl, fun _ _ => ⟨_, _, rfl, rfl⟩⟩

theorem rgba (r g b a : Byte) : Statement (.rgba r g b a) :=
  fun _ => ⟨rfl, fun _ _ => ⟨_, _, rfl, rfl⟩⟩

theorem run (count : Nat) : Statement (.run count) := by
  intro m
  refine ⟨rfl, fun _ hw => ⟨_, _, rfl, ?_⟩⟩
  simp only [Instr.WellFormed, Instr.wellFormed, Bool.and_eq_true] at hw
  have : ∀ x : Fin 62, chunkLen (0xC0#8 ||| BitVec.ofNat 8 x.val) = 1 := by decide
  obtain ⟨-, hle⟩ := hw
  have hle : count ≤ 62 := of_decide_eq_true hle
  exact this ⟨count - 1, by omega⟩

theorem header (width height : Word) (channels colorspace : Byte) :
    Statement (.header width height channels colorspace) :=
  fun _ => ⟨rfl, fun h => nomatch h⟩

theorem nop : Statement .nop := fun _ => ⟨rfl, fun h => nomatch h⟩

theorem enc : Statement .enc := fun _ => ⟨rfl, fun h => nomatch h⟩

theorem dec : Statement .dec := fun _ => ⟨rfl, fun h => nomatch h⟩

theorem decBody : Statement .decBody := fun _ => ⟨rfl, fun h => nomatch h⟩

theorem encHdr : Statement .encHdr := fun _ => ⟨rfl, fun h => nomatch h⟩

theorem decHdr : Statement .decHdr := fun _ => ⟨rfl, fun h => nomatch h⟩

end Sys2Proof.Laws.EncodingLength
end

