-- ==== Sys2Proof/Laws/Encoder.lean ====
section
/-! SUPPORT. What the encoder's choice says: how far a run goes, which of the three paths is taken, the operands' ranges, how many bytes. -/

namespace Sys2Proof.Machine

open Sys2Proof.Laws.EncodingLength (within_iff)

/-- A run of `e` elements from `i` on, stopped by the count, by the end of the input or by another pixel (rule R152). -/
structure RunsTo (b : Buffer Pixel) (inLen : Nat) (p : Pixel) (fuel i e : Nat) : Prop where
  le_fuel : e ≤ fuel
  equal : ∀ j, j < e → i + j < inLen ∧ Buffer.read b (i + j) = some p
  stops : e = fuel ∨ inLen ≤ i + e ∨ ∃ q, q ≠ p ∧ Buffer.read b (i + e) = some q

theorem runExtra_eq_some_iff {b : Buffer Pixel} {inLen : Nat} {p : Pixel} {fuel i e : Nat} :
    runExtra b inLen p fuel i = some e ↔ RunsTo b inLen p fuel i e := by
  induction fuel generalizing i e with
  | zero =>
    simp only [runExtra, Option.some.injEq]
    constructor
    · rintro rfl; exact ⟨by omega, by omega, .inl rfl⟩
    · rintro ⟨h, -, -⟩; omega
  | succ fuel ih =>
    unfold runExtra
    by_cases hlt : i < inLen
    · rw [if_pos hlt]
      cases hq : Buffer.read b i with
      | none =>
        simp only [reduceCtorEq, false_iff]
        rintro ⟨-, heq, hst⟩
        by_cases he : e = 0
        · subst he
          rcases hst with h | h | ⟨q, -, h⟩
          · omega
          · omega
          · simp [hq] at h
        · have := (heq 0 (by omega)).2
          simp [hq] at this
      | some q =>
        simp only
        by_cases hqp : q = p
        · subst hqp
          rw [if_pos rfl]
          constructor
          · intro h
            cases hx : runExtra b inLen q fuel (i + 1) with
            | none => simp [hx] at h
            | some x =>
              simp only [hx, Option.some.injEq] at h
              subst h
              obtain ⟨h1, h2, h3⟩ := ih.mp hx
              refine ⟨by omega, fun j hj => ?_, ?_⟩
              · cases j with
                | zero => exact ⟨hlt, hq⟩
                | succ j => simpa [Nat.add_assoc, Nat.add_comm 1] using h2 j (by omega)
              · rcases h3 with h3 | h3 | ⟨r, hr, h3⟩
                · exact .inl (by omega)
                · exact .inr (.inl (by omega))
                · exact .inr (.inr ⟨r, hr, by rwa [show i + (x + 1) = i + 1 + x by omega]⟩)
          · rintro ⟨h1, h2, h3⟩
            have he : e ≠ 0 := by
              rintro rfl
              rcases h3 with h | h | ⟨r, hr, h⟩
              · omega
              · omega
              · simp only [Nat.add_zero, hq, Option.some.injEq] at h; exact hr h.symm
            obtain ⟨x, rfl⟩ : ∃ x, e = x + 1 := ⟨e - 1, by omega⟩
            have : runExtra b inLen q fuel (i + 1) = some x := by
              refine ih.mpr ⟨by omega, fun j hj => ?_, ?_⟩
              · have := h2 (j + 1) (by omega)
                rwa [show i + (j + 1) = i + 1 + j by omega] at this
              · rcases h3 with h | h | ⟨r, hr, h⟩
                · exact .inl (by omega)
                · exact .inr (.inl (by omega))
                · exact .inr (.inr ⟨r, hr, by rwa [show i + (x + 1) = i + 1 + x by omega] at h⟩)
            simp [this]
        · rw [if_neg hqp]
          simp only [Option.some.injEq]
          constructor
          · rintro rfl
            exact ⟨by omega, by omega, .inr (.inr ⟨q, hqp, hq⟩)⟩
          · rintro ⟨-, h2, -⟩
            by_contra he
            have := (h2 0 (by omega)).2
            simp only [Nat.add_zero, hq, Option.some.injEq] at this
            exact hqp this
    · rw [if_neg hlt]
      simp only [Option.some.injEq]
      constructor
      · rintro rfl
        exact ⟨by omega, by omega, .inr (.inl (by omega))⟩
      · rintro ⟨-, h2, -⟩
        by_contra he
        have := (h2 0 (by omega)).1
        omega

/-- A run that reaches an element that was never placed has no length (rule R14). -/
theorem runExtra_eq_none_of_absent {b : Buffer Pixel} {inLen : Nat} {p : Pixel} {fuel i e : Nat} (he : e < fuel)
    (hlt : i + e < inLen) (heq : ∀ j, j < e → Buffer.read b (i + j) = some p) (habs : Buffer.read b (i + e) = none) :
    runExtra b inLen p fuel i = none := by
  rw [Option.eq_none_iff_forall_ne_some]
  intro x hx
  obtain ⟨-, hall, hst⟩ := runExtra_eq_some_iff.mp hx
  have hxe : x ≤ e := by
    by_contra h
    have := (hall e (by omega)).2
    simp [habs] at this
  rcases hst with h | h | ⟨q, hq, h⟩
  · omega
  · omega
  · rcases Nat.lt_or_eq_of_le hxe with h' | rfl
    · rw [heq x h', Option.some.injEq] at h
      exact hq h.symm
    · simp [habs] at h

/-- So the encoder has no choice where its run's lookahead reaches such an element (rule R152). -/
theorem chooseChunk_eq_none_of_absent {s : State} {e : Nat} (he : e < 61) (hlt : s.pos + 1 + e < s.inLen)
    (heq : ∀ j, j ≤ e → Buffer.read s.mem.pixIn (s.pos + j) = some s.prev)
    (habs : Buffer.read s.mem.pixIn (s.pos + 1 + e) = none) : chooseChunk s = none := by
  have hr : runExtra s.mem.pixIn s.inLen s.prev (Config.maxRun - 1) (s.pos + 1) = none :=
    runExtra_eq_none_of_absent he hlt
      (fun j hj => by simpa [Nat.add_assoc, Nat.add_comm 1] using heq (j + 1) (by omega)) habs
  have hp : Buffer.read s.mem.pixIn s.pos = some s.prev := by simpa using heq 0 (by omega)
  simp [chooseChunk, hp, hr]

/-- A choice is made on one of three paths: run, cache hit, delta/literal (rule R159). -/
theorem chooseChunk_eq_some_iff {s : State} {c : Choice} :
    chooseChunk s = some c ↔ ∃ p, Buffer.read s.mem.pixIn s.pos = some p ∧
      ((p = s.prev ∧ ∃ e, RunsTo s.mem.pixIn s.inLen p 61 (s.pos + 1) e ∧ c = ⟨.run (e + 1), p, e + 1, false⟩) ∨
       (p ≠ s.prev ∧ s.cache[pixelHash p] = p ∧ c = ⟨.index (pixelHash p), p, 1, false⟩) ∨
       (p ≠ s.prev ∧ s.cache[pixelHash p] ≠ p ∧ c = ⟨literalChunk s.prev p, p, 1, true⟩)) := by
  unfold chooseChunk
  cases hp : Buffer.read s.mem.pixIn s.pos with
  | none => simp
  | some p =>
    simp only [Option.some.injEq, exists_eq_left']
    by_cases hprev : p = s.prev
    · rw [if_pos hprev]
      simp only [hprev, true_and, ne_eq, not_true_eq_false, false_and, or_false]
      rw [← hprev]
      show (match runExtra s.mem.pixIn s.inLen p 61 (s.pos + 1) with
        | none => none
        | some extra => some ⟨.run (extra + 1), p, extra + 1, false⟩) = some c ↔ _
      cases hx : runExtra s.mem.pixIn s.inLen p 61 (s.pos + 1) with
      | none =>
        simp only [reduceCtorEq, false_iff, not_exists, not_and]
        intro e he
        rw [runExtra_eq_some_iff.mpr he] at hx
        cases hx
      | some x =>
        simp only [Option.some.injEq]
        constructor
        · rintro rfl; exact ⟨x, runExtra_eq_some_iff.mp hx, rfl⟩
        · rintro ⟨e, he, rfl⟩
          rw [runExtra_eq_some_iff.mpr he] at hx
          cases hx; rfl
    · rw [if_neg hprev]
      simp only [hprev, false_and, false_or, ne_eq, not_false_eq_true, true_and]
      unfold cacheLookup
      by_cases hc : s.cache[pixelHash p] = p
      · simp only [hc, if_true, Option.some.injEq, true_and, not_true_eq_false, false_and, or_false]
        exact eq_comm
      · simp only [hc, if_false, Option.some.injEq, false_and, not_false_eq_true, true_and, false_or]
        exact eq_comm

/-- The delta/literal path emits one of four chunks, each under its condition (rules R155 to R158). -/
theorem literalChunk_cases (prev p : Pixel) :
    (p.a ≠ prev.a ∧ literalChunk prev p = .rgba p.r p.g p.b p.a) ∨
    (p.a = prev.a ∧ diffFits (delta p.r prev.r) (delta p.g prev.g) (delta p.b prev.b) = true ∧
      literalChunk prev p = .diff (delta p.r prev.r) (delta p.g prev.g) (delta p.b prev.b)) ∨
    (p.a = prev.a ∧ diffFits (delta p.r prev.r) (delta p.g prev.g) (delta p.b prev.b) = false ∧
      lumaFits (delta p.r prev.r) (delta p.g prev.g) (delta p.b prev.b) = true ∧
      literalChunk prev p = .luma (delta p.g prev.g) (delta p.r prev.r - delta p.g prev.g)
        (delta p.b prev.b - delta p.g prev.g)) ∨
    (p.a = prev.a ∧ diffFits (delta p.r prev.r) (delta p.g prev.g) (delta p.b prev.b) = false ∧
      lumaFits (delta p.r prev.r) (delta p.g prev.g) (delta p.b prev.b) = false ∧
      literalChunk prev p = .rgb p.r p.g p.b) := by
  unfold literalChunk
  by_cases ha : p.a = prev.a
  · cases hd : diffFits (delta p.r prev.r) (delta p.g prev.g) (delta p.b prev.b) <;>
      cases hl : lumaFits (delta p.r prev.r) (delta p.g prev.g) (delta p.b prev.b) <;> simp [ha]
  · simp [ha]

/-- What is chosen is a well-formed chunk of 1 to 5 bytes that covers 1 to 62 pixels and none beyond IN_LEN. -/
theorem chooseChunk_shape {s : State} {c : Choice} (h : chooseChunk s = some c) :
    c.chunk.WellFormed ∧ c.chunk.space = .body ∧ 1 ≤ c.chunk.byteLength ∧ c.chunk.byteLength ≤ 5 ∧
      1 ≤ c.covers ∧ c.covers ≤ 62 ∧ (s.pos < s.inLen → s.pos + c.covers ≤ s.inLen) := by
  obtain ⟨p, hp, ⟨-, e, he, rfl⟩ | ⟨-, -, rfl⟩ | ⟨-, -, rfl⟩⟩ := chooseChunk_eq_some_iff.mp h
  · have := he.le_fuel
    refine ⟨?_, rfl, by simp [Instr.byteLength], by simp [Instr.byteLength], by simp, by simp; omega, fun hlt => ?_⟩
    · simp [Instr.WellFormed, Instr.wellFormed, Config.maxRun]; omega
    · by_cases h0 : e = 0
      · subst h0; simp; omega
      · have := (he.equal (e - 1) (by omega)).1
        simp only; omega
  · exact ⟨rfl, rfl, by simp [Instr.byteLength], by simp [Instr.byteLength], by simp, by simp, fun h => by simpa using h⟩
  · have key : ∀ i : Instr, literalChunk s.prev p = i → i.WellFormed → i.space = .body → 1 ≤ i.byteLength →
        i.byteLength ≤ 5 → _ ∧ _ ∧ _ ∧ _ := fun i hi h1 h2 h3 h4 =>
      (⟨hi ▸ h1, hi ▸ h2, hi ▸ h3, hi ▸ h4⟩ : (literalChunk s.prev p).WellFormed ∧ (literalChunk s.prev p).space = .body ∧
        1 ≤ (literalChunk s.prev p).byteLength ∧ (literalChunk s.prev p).byteLength ≤ 5)
    have : (literalChunk s.prev p).WellFormed ∧ (literalChunk s.prev p).space = .body ∧
        1 ≤ (literalChunk s.prev p).byteLength ∧ (literalChunk s.prev p).byteLength ≤ 5 := by
      rcases literalChunk_cases s.prev p with ⟨-, h⟩ | ⟨-, hd, h⟩ | ⟨-, -, hl, h⟩ | ⟨-, -, -, h⟩
      · exact key _ h rfl rfl (by simp [Instr.byteLength]) (by simp [Instr.byteLength])
      · exact key _ h hd rfl (by simp [Instr.byteLength]) (by simp [Instr.byteLength])
      · exact key _ h hl rfl (by simp [Instr.byteLength]) (by simp [Instr.byteLength])
      · exact key _ h rfl rfl (by simp [Instr.byteLength]) (by simp [Instr.byteLength])
    exact ⟨this.1, this.2.1, this.2.2.1, this.2.2.2, by simp, by simp, fun h => by simpa using h⟩

/-- The bytes of any instruction are as many as its length says. -/
theorem encode_length (m : Magic) (i : Instr) : (encode m i).length = i.byteLength := by
  cases i <;> rfl

/-- An encoder step with room, from a choice. -/
theorem encoderStep_of_choice {s : State} {c : Choice} (h : chooseChunk s = some c)
    (hf : s.fits c.chunk.byteLength = true) :
    encoderStep s = .next ((s.encoded c).pushBytes (encode s.cfg.magic c.chunk)) := by
  simp only [encoderStep, h]
  exact appendBytes_of_fits (by rw [encode_length]; simpa using hf)

/-! ### What the conditions and the bytes are, in numbers -/

theorem diffFits_iff {dr dg db : Int} :
    diffFits dr dg db = true ↔ -2 ≤ dr ∧ dr ≤ 1 ∧ -2 ≤ dg ∧ dg ≤ 1 ∧ -2 ≤ db ∧ db ≤ 1 := by
  simp [diffFits, within_iff, and_assoc]

theorem lumaFits_iff {dr dg db : Int} :
    lumaFits dr dg db = true ↔
      -32 ≤ dg ∧ dg ≤ 31 ∧ -8 ≤ dr - dg ∧ dr - dg ≤ 7 ∧ -8 ≤ db - dg ∧ db - dg ≤ 7 := by
  unfold lumaFits
  simp only [Bool.and_eq_true, within_iff, and_assoc]

/-- DIFF's byte as a sum (rule R85). -/
theorem encode_diff (m : Magic) {dr dg db : Int} (h : diffFits dr dg db = true) :
    encode m (.diff dr dg db) = [BitVec.ofInt 8 (64 + (dr + 2) * 16 + (dg + 2) * 4 + (db + 2))] := by
  have := diffFits_iff.mp h
  have key : ∀ x y z : Fin 4, (0x40#8 ||| biased (x.val - 2) 2 <<< 4 ||| biased (y.val - 2) 2 <<< 2 |||
      biased (z.val - 2) 2) = BitVec.ofInt 8 (64 + (x.val : Int) * 16 + y.val * 4 + z.val) := by decide
  have := key ⟨(dr + 2).toNat, by omega⟩ ⟨(dg + 2).toNat, by omega⟩ ⟨(db + 2).toNat, by omega⟩
  simp only [show ((dr + 2).toNat : Int) = dr + 2 by omega, show ((dg + 2).toNat : Int) = dg + 2 by omega,
    show ((db + 2).toNat : Int) = db + 2 by omega, Int.add_sub_cancel] at this
  simp only [encode, this]

/-- LUMA's bytes as sums (rule R86). -/
theorem encode_luma (m : Magic) {dg x y : Int} (hg : -32 ≤ dg ∧ dg ≤ 31) (hx : -8 ≤ x ∧ x ≤ 7) (hy : -8 ≤ y ∧ y ≤ 7) :
    encode m (.luma dg x y) = [BitVec.ofInt 8 (128 + (dg + 32)), BitVec.ofInt 8 ((x + 8) * 16 + (y + 8))] := by
  have key0 : ∀ x : Fin 64, (0x80#8 ||| biased (x.val - 32) 32) = BitVec.ofInt 8 (128 + (x.val : Int)) := by decide
  have key1 : ∀ x y : Fin 16, (biased (x.val - 8) 8 <<< 4 ||| biased (y.val - 8) 8) =
      BitVec.ofInt 8 ((x.val : Int) * 16 + y.val) := by decide
  have h0 := key0 ⟨(dg + 32).toNat, by omega⟩
  have h1 := key1 ⟨(x + 8).toNat, by omega⟩ ⟨(y + 8).toNat, by omega⟩
  simp only [show ((dg + 32).toNat : Int) = dg + 32 by omega, show ((x + 8).toNat : Int) = x + 8 by omega,
    show ((y + 8).toNat : Int) = y + 8 by omega, Int.add_sub_cancel] at h0 h1
  simp only [encode, h0, h1]

/-! ### The pixels a choice covers -/

/-- Every pixel a choice covers is the pixel it chose for (rules R152, R160). -/
theorem chooseChunk_covers {s : State} {c : Choice} (hc : chooseChunk s = some c) :
    Buffer.readSeq s.mem.pixIn s.pos c.covers = some (List.replicate c.covers c.pixel) := by
  have one : ∀ p, Buffer.read s.mem.pixIn s.pos = some p → Buffer.readSeq s.mem.pixIn s.pos 1 = some [p] := by
    intro p hp
    simp [Buffer.readSeq, hp]
  obtain ⟨p, hp, ⟨-, e, he, rfl⟩ | ⟨-, -, rfl⟩ | ⟨-, -, rfl⟩⟩ := chooseChunk_eq_some_iff.mp hc
  · refine Buffer.readSeq_eq_some_iff.mpr ⟨by simp, fun k hk => ?_⟩
    cases k with
    | zero => simp [hp]
    | succ k =>
      have := (he.equal k (by simp at hk; omega)).2
      rw [show s.pos + (k + 1) = s.pos + 1 + k by omega, this]
      rw [List.getElem?_replicate, if_pos hk]
  · exact one p hp
  · exact one p hp

/-- The chosen chunk stands for as many pixels as it covers (rule R218). -/
theorem chooseChunk_produced {s : State} {c : Choice} (hc : chooseChunk s = some c) :
    pixelsProduced c.chunk = c.covers := by
  obtain ⟨p, -, ⟨-, e, -, rfl⟩ | ⟨-, -, rfl⟩ | ⟨-, -, rfl⟩⟩ := chooseChunk_eq_some_iff.mp hc
  · rfl
  · rfl
  · rcases literalChunk_cases s.prev p with ⟨-, h⟩ | ⟨-, -, h⟩ | ⟨-, -, -, h⟩ | ⟨-, -, -, h⟩ <;> simp [h, pixelsProduced]

/-- Where every pixel is there a run's length is found. -/
theorem runExtra_total {b : Buffer Pixel} {n : Nat} (hb : ∀ j, j < n → (Buffer.read b j).isSome = true) (p : Pixel)
    (fuel i : Nat) : ∃ e, runExtra b n p fuel i = some e := by
  induction fuel generalizing i with
  | zero => exact ⟨0, rfl⟩
  | succ f ih =>
    unfold runExtra
    by_cases h : i < n
    · obtain ⟨q, hq⟩ := Option.isSome_iff_exists.mp (hb i h)
      rw [if_pos h, hq]
      by_cases hqp : q = p
      · obtain ⟨e, he⟩ := ih (i + 1)
        exact ⟨e + 1, by simp [hqp, he]⟩
      · exact ⟨0, by simp [hqp]⟩
    · exact ⟨0, by rw [if_neg h]⟩

/-- Where every pixel is there the encoder always has a choice (rule R161). -/
theorem chooseChunk_total {s : State} (hb : ∀ j, j < s.inLen → (Buffer.read s.mem.pixIn j).isSome = true)
    (hp : s.pos < s.inLen) : ∃ c, chooseChunk s = some c := by
  obtain ⟨p, hp⟩ := Option.isSome_iff_exists.mp (hb _ hp)
  by_cases h1 : p = s.prev
  · obtain ⟨e, he⟩ := runExtra_total hb p 61 (s.pos + 1)
    exact ⟨_, chooseChunk_eq_some_iff.mpr ⟨p, hp, .inl ⟨h1, e, runExtra_eq_some_iff.mp he, rfl⟩⟩⟩
  · by_cases h2 : s.cache[pixelHash p] = p
    · exact ⟨_, chooseChunk_eq_some_iff.mpr ⟨p, hp, .inr (.inl ⟨h1, h2, rfl⟩)⟩⟩
    · exact ⟨_, chooseChunk_eq_some_iff.mpr ⟨p, hp, .inr (.inr ⟨h1, h2, rfl⟩)⟩⟩

end Sys2Proof.Machine
end

