-- ==== Sys2Proof/Laws/Operands.lean ====
section
/-! SUPPORT. The laws of channel arithmetic and of packing. -/

namespace Sys2Proof.Machine

/-- `wrap8` is the integer modulo 256 (rule R13). -/
theorem wrap8_toNat (x : Int) : ((wrap8 x).toNat : Int) = x % 256 := by
  simp [wrap8, BitVec.toNat_ofInt]; omega

/-- `s8` is the signed reading of the integer modulo 256 (rule R13). -/
theorem s8_eq (x : Int) : s8 x = if 128 ≤ x % 256 then x % 256 - 256 else x % 256 := by
  have := wrap8_toNat x
  simp only [s8]
  split <;> split <;> omega

/-- The word a pixel packs into: red highest, alpha lowest (rule R66). -/
theorem packPixel_toNat (p : Pixel) :
    (packPixel p).toNat = p.r.toNat * 2 ^ 24 + p.g.toNat * 2 ^ 16 + p.b.toNat * 2 ^ 8 + p.a.toNat := by
  have := p.r.isLt; have := p.g.isLt; have := p.b.isLt; have := p.a.isLt
  simp only [packPixel, BitVec.toNat_append]
  rw [← Nat.shiftLeft_add_eq_or_of_lt (by omega), ← Nat.shiftLeft_add_eq_or_of_lt (by omega),
    ← Nat.shiftLeft_add_eq_or_of_lt (by omega)]
  simp [Nat.shiftLeft_eq]; omega

/-- Packing loses nothing (rule R66). -/
theorem unpackPixel_packPixel (p : Pixel) : unpackPixel (packPixel p) = p := by
  have hp := packPixel_toNat p
  cases p with | mk r g b a =>
  have := r.isLt; have := g.isLt; have := b.isLt; have := a.isLt
  simp only [unpackPixel, Pixel.mk.injEq]
  refine ⟨?_, ?_, ?_, ?_⟩ <;> apply BitVec.eq_of_toNat_eq <;>
    simp only [BitVec.extractLsb'_toNat, Nat.shiftRight_eq_div_pow, hp] <;> omega

end Sys2Proof.Machine
end

