-- ==== Sys2Proof/Tests/Slice0.lean ====
section
/-! SUPPORT. The model's own tests: what WellFormed refuses, words written out from the spec, single steps with the values of
spec/95_test_vectors.md, and for every statement with hypotheses a concrete state that meets them. -/

namespace Sys2Proof.Tests

open Sys2Proof Sys2Proof.Machine

/-! ### WellFormed: an ill-formed term for each check, refused -/

theorem test_diff_red_out_of_range : (Instr.diff 2 0 0).wellFormed = false := by decide
theorem test_diff_green_out_of_range : (Instr.diff 0 (-3) 0).wellFormed = false := by decide
theorem test_diff_blue_out_of_range : (Instr.diff 0 0 2).wellFormed = false := by decide
theorem test_luma_green_out_of_range : (Instr.luma 32 0 0).wellFormed = false := by decide
theorem test_luma_red_out_of_range : (Instr.luma 0 (-9) 0).wellFormed = false := by decide
theorem test_luma_blue_out_of_range : (Instr.luma 0 0 8).wellFormed = false := by decide
theorem test_run_of_none : (Instr.run 0).wellFormed = false := by decide
theorem test_run_too_long : (Instr.run 63).wellFormed = false := by decide
theorem test_header_channels_illegal : (Instr.header 1 1 5 0).wellFormed = false := by decide
theorem test_header_colorspace_illegal : (Instr.header 1 1 4 2).wellFormed = false := by decide

/-! ### Decoding: words written out bit by bit from rules R81, R84 to R89 and R26 -/

/-- R84: `00` and slot 53. -/
theorem test_decode_index : decodeChunk [0b00110101] = .ok (.index 53, []) := by decide
/-- R85: `01`, dr + 2 = 3, dg + 2 = 2, db + 2 = 1. -/
theorem test_decode_diff : decodeChunk [0b01111001] = .ok (.diff 1 0 (-1), []) := by decide
/-- R86: `10`, dg + 32 = 42, then 8 and 4. -/
theorem test_decode_luma : decodeChunk [0b10101010, 0b10000100] = .ok (.luma 10 0 (-4), []) := by decide
/-- R87. -/
theorem test_decode_rgb : decodeChunk [0b11111110, 200, 100, 50] = .ok (.rgb 200 100 50, []) := by decide
/-- R88. -/
theorem test_decode_rgba : decodeChunk [0b11111111, 10, 10, 10, 128] = .ok (.rgba 10 10 10 128, []) := by decide
/-- R89: `11` and count - 1 = 61; one more is the RGB tag. -/
theorem test_decode_run : decodeChunk [0b11111101] = .ok (.run 62, []) := by decide
/-- R81, R122: big-endian fields. -/
theorem test_decode_header :
    decodeHeader Config.standard.magic [0x71, 0x6F, 0x69, 0x66, 0, 0, 1, 0, 0, 0, 0, 16, 3, 1] =
      .ok (.header 256 16 3 1, []) := by decide
/-- R26: the eight codes. -/
theorem test_decode_commands :
    [0, 1, 2, 3, 4, 5].map decodeCommand =
      [.ok .nop, .ok .enc, .ok .dec, .ok .decBody, .ok .encHdr, .ok .decHdr] := by decide
theorem test_decode_reserved : [6, 7].map decodeCommand = [.error .reservedCommand, .error .reservedCommand] := by decide
/-- The other way: the bytes the rules give. -/
theorem test_encode :
    [Instr.index 53, .diff 1 0 (-1), .luma 10 0 (-4), .rgb 200 100 50, .rgba 10 10 10 128, .run 62].map
        (encode Config.standard.magic) =
      [[0x35], [0x79], [0xAA, 0x84], [0xFE, 0xC8, 0x64, 0x32], [0xFF, 0x0A, 0x0A, 0x0A, 0x80], [0xFD]] := by decide
/-- spec/95 S2, the fifth row. -/
theorem test_encode_header :
    encodeHeader Config.standard.magic 16909060 168496141 4 0 =
      [0x71, 0x6F, 0x69, 0x66, 1, 2, 3, 4, 0x0A, 0x0B, 0x0C, 0x0D, 4, 0] := by decide

/-! ### Arithmetic and hash: spec/95 2.1 and the corners of R13 -/

theorem test_hash : [(⟨0, 0, 0, 255⟩ : Pixel), ⟨255, 255, 255, 255⟩, ⟨10, 10, 10, 128⟩, ⟨86, 0, 0, 0⟩].map pixelHash =
    [53, 38, 22, 2] := by decide
theorem test_delta_wraps : delta 0 255 = 1 ∧ delta 255 0 = -1 ∧ delta 128 0 = -128 ∧ delta 0 128 = -128 := by decide

/-! ### Small states -/

/-- An engine that is not BUSY and may encode. -/
def ready : State := { State.reset with channels := 4 }

/-- DEC_BODY in its chunk steps, at the start of `bs`. -/
def decoding (prev : Pixel) (bs : List Byte) : State :=
  { State.reset with
    status := .busy, cmd := 3, phase := .chunks, prev := prev, inLen := bs.length
    mem := { State.reset.mem with byteIn := Buffer.writeSeq [] 0 bs } }

/-- ENC in its chunk steps, at the start of `ps`, the header written. -/
def encoding (prev : Pixel) (ps : List Pixel) : State :=
  { ready with
    status := .busy, cmd := 1, phase := .chunks, prev := prev, inLen := ps.length
    width := BitVec.ofNat 32 ps.length, height := 1, outLen := 14
    mem := { State.reset.mem with
      pixIn := Buffer.writeSeq [] 0 ps
      byteOut := Buffer.writeSeq [] 0 (encodeHeader Config.standard.magic (BitVec.ofNat 32 ps.length) 1 4 0) } }

/-- An engine ready to encode a one-line image. -/
def withPixels (ps : List Pixel) : State :=
  { ready with
    inLen := ps.length, width := BitVec.ofNat 32 ps.length, height := 1
    mem := { State.reset.mem with pixIn := Buffer.writeSeq [] 0 ps } }

/-- An engine with bytes to decode. -/
def withBytes (bs : List Byte) : State :=
  { ready with inLen := bs.length, mem := { State.reset.mem with byteIn := Buffer.writeSeq [] 0 bs } }

/-- The entry step of a command to come. -/
def entering (c : Command) (s : State) : State := s.started c

/-- The header of a 2 by 1 image (spec/95 2.7). -/
def header21 : List Byte := [0x71, 0x6F, 0x69, 0x66, 0, 0, 0, 2, 0, 0, 0, 1, 4, 0]

/-- The state an outcome holds. -/
def nextOf : Result → Option State
  | .next t => some t
  | .fault _ => none
  | .refused _ => none

/-- `prev`, the slot asked for, `pos` and what was appended to PIX_OUT from index 0 on. -/
def seen (slot : Slot) (r : Result) : Option (Pixel × Pixel × Nat × Option (List Pixel)) :=
  (nextOf r).map fun t => (t.prev, t.cache[slot], t.pos, Buffer.readSeq t.mem.pixOut 0 t.outLen)

/-- What an encoder step left: `pos` and the bytes after the header. -/
def emitted (r : Result) : Option (Nat × Option (List Byte)) :=
  (nextOf r).map fun t => (t.pos, Buffer.readSeq t.mem.byteOut 14 (t.outLen - 14))

/-! ### Single steps of the decoder: spec/95 2.4 and 2.5 -/

theorem test_step_index : seen 53 (step (decoding ⟨9, 9, 9, 9⟩ [0x35])) =
    some (⟨0, 0, 0, 255⟩, ⟨0, 0, 0, 255⟩, 1, some [⟨0, 0, 0, 255⟩]) := by decide
theorem test_step_diff : seen 4 (step (decoding ⟨1, 0, 1, 200⟩ [0x40])) =
    some (⟨255, 254, 255, 200⟩, ⟨255, 254, 255, 200⟩, 1, some [⟨255, 254, 255, 200⟩]) := by decide
theorem test_step_luma : seen 30 (step (decoding ⟨250, 250, 250, 3⟩ [0xBF, 0xFF])) =
    some (⟨32, 25, 32, 3⟩, ⟨32, 25, 32, 3⟩, 2, some [⟨32, 25, 32, 3⟩]) := by decide
theorem test_step_rgb : seen 23 (step (decoding ⟨9, 9, 9, 9⟩ [0xFE, 1, 2, 3])) =
    some (⟨1, 2, 3, 255⟩, ⟨1, 2, 3, 255⟩, 4, some [⟨1, 2, 3, 255⟩]) := by decide
theorem test_step_rgba : seen 14 (step (decoding ⟨9, 9, 9, 9⟩ [0xFF, 1, 2, 3, 4])) =
    some (⟨1, 2, 3, 4⟩, ⟨1, 2, 3, 4⟩, 5, some [⟨1, 2, 3, 4⟩]) := by decide
theorem test_step_run : seen 0 (step (decoding ⟨7, 7, 7, 7⟩ [0xC1])) =
    some (⟨7, 7, 7, 7⟩, ⟨0, 0, 0, 255⟩, 1, some [⟨7, 7, 7, 7⟩, ⟨7, 7, 7, 7⟩]) := by decide
theorem test_step_cut_short :
    (nextOf (step (decoding ⟨9, 9, 9, 9⟩ [0xFE, 1, 2]))).map (fun t => (t.status, t.err, t.outLen, t.pos, t.prev)) =
      some (.error, 3, 0, 0, ⟨9, 9, 9, 9⟩) := by decide

/-! ### Single steps of the encoder: spec/95 2.6 -/

theorem test_encode_run : emitted (step (encoding ⟨5, 5, 5, 255⟩ [⟨5, 5, 5, 255⟩, ⟨5, 5, 5, 255⟩, ⟨1, 1, 1, 1⟩])) =
    some (2, some [0xC1]) := by decide
theorem test_encode_hit_before_diff : emitted (step (encoding ⟨255, 255, 255, 255⟩ [⟨0, 0, 0, 255⟩])) =
    some (1, some [0x35]) := by decide
theorem test_encode_alpha_before_diff : emitted (step (encoding ⟨0, 0, 0, 255⟩ [⟨1, 1, 1, 254⟩])) =
    some (1, some [0xFF, 1, 1, 1, 0xFE]) := by decide
theorem test_encode_diff : emitted (step (encoding ⟨0, 0, 0, 255⟩ [⟨255, 0, 1, 255⟩])) = some (1, some [0x5B]) := by decide
theorem test_encode_luma : emitted (step (encoding ⟨0, 0, 0, 255⟩ [⟨216, 224, 231, 255⟩])) =
    some (1, some [0x80, 0x0F]) := by decide
theorem test_encode_rgb : emitted (step (encoding ⟨0, 0, 0, 255⟩ [⟨223, 223, 223, 255⟩])) =
    some (1, some [0xFE, 0xDF, 0xDF, 0xDF]) := by decide

/-! ### Single steps of the commands: spec/95 2.3 and 2.7 -/

theorem test_enc_size_is_exact :
    (nextOf (step (entering .enc { ready with width := 65536, height := 65536 }))).map (fun t => (t.status, t.err)) =
      some (.error, 2) := by decide
theorem test_dec_hdr :
    (nextOf (step (entering .decHdr (withBytes header21)))).map (fun t => (t.status, t.headerRegs)) =
      some (.done, ⟨2, 1, 4, 0⟩) := by decide
theorem test_dec_bad_magic :
    (nextOf (step (entering .dec (withBytes (0 :: header21.tail))))).map (fun t => (t.status, t.err, t.headerRegs)) =
      some (.error, 0x09, ready.headerRegs) := by decide
theorem test_enc_hdr :
    (nextOf (step (entering .encHdr { ready with width := 2, height := 1 }))).bind State.byteOutput =
      some header21 := by decide
theorem test_host_starts_dec_body :
    (nextOf (step { ready with err := 3, status := .error, hostMoves := [.writeCmd 3] })).map
        (fun t => (t.status, t.err, t.cmd, t.hostMoves)) = some (.busy, 0, 3, []) := by decide
theorem test_nop_changes_nothing : nextOf (exec .nop ready) = some ready := by decide
/-- `withFetchWord` places each kind of word for the very next step: LUMA, HEADER, ENC. -/
theorem test_fetch_word_luma : seen 43 (step (State.reset.withFetchWord 16 0x84AA)) =
    some (⟨10, 10, 6, 255⟩, ⟨0, 0, 0, 255⟩, 2, some [⟨10, 10, 6, 255⟩]) := by decide
theorem test_fetch_word_command :
    (nextOf (step (State.reset.withFetchWord 8 1))).map (fun t => (t.status, t.cmd)) = some (.busy, 1) := by decide

/-! ### Witnesses: states and operands that meet every hypothesis of a statement -/

theorem witness_AssertedResetAbandonsAnyState :
    ({ decoding ⟨1, 2, 3, 4⟩ [0xFE] with resetAsserted := true } : State).resetAsserted = true := by decide

theorem witness_EngineWaitsForTheHost :
    ({ ready with status := .done } : State).resetAsserted = false ∧ ({ ready with status := .done } : State).status ≠ .busy ∧
      ({ ready with status := .done } : State).hostMoves = [] := by decide

theorem witness_HostWritesLandInRegistersAndBuffers :
    ∀ m ∈ [HostMove.writeWidth 0xFFFFFFFF, .writeHeight 0, .writeChannels 255, .writeColorspace 1, .writeInLen 0,
        .putPixels 2 [⟨1, 2, 3, 4⟩, ⟨5, 6, 7, 8⟩], .putBytes 0 [0x7F]],
      ({ ready with hostMoves := [m, .writeCmd 1] } : State).resetAsserted = false ∧
      ({ ready with hostMoves := [m, .writeCmd 1] } : State).status ≠ .busy ∧
      ({ ready with hostMoves := [m, .writeCmd 1] } : State).hostMoves = m :: [.writeCmd 1] := by decide

theorem witness_HostIsRefusedWhileBusy : (decoding ⟨0, 0, 0, 255⟩ [0x35]).status = .busy := by decide

/-- The codes on both sides of the boundary. -/
theorem witness_ReservedCodesAreRefused :
    ∀ code ∈ [5, 6, 7], ({ ready with hostMoves := [.writeCmd code] } : State).resetAsserted = false ∧
      ({ ready with hostMoves := [.writeCmd code] } : State).status ≠ .busy ∧
      ({ ready with hostMoves := [.writeCmd code] } : State).hostMoves = .writeCmd code :: [] := by decide

theorem witness_IllegalTagsAreRefused :
    (∀ s ∈ [{ ready with channels := 2 }, { ready with channels := 5 }, { ready with colorspace := 2 }, State.reset],
      s.status ≠ .busy ∧ ¬ ((s.channels = 3 ∨ s.channels = 4) ∧ (s.colorspace = 0 ∨ s.colorspace = 1))) ∧
    (∀ s ∈ [ready, { ready with channels := 3, colorspace := 1 }],
      s.status ≠ .busy ∧ (s.channels = 3 ∨ s.channels = 4) ∧ (s.colorspace = 0 ∨ s.colorspace = 1)) := by decide

/-- Every command from `ready`; a decoding command even with an illegal tag. -/
theorem witness_CommandsStartAsOneAction :
    ready.status ≠ .busy ∧ (∀ c ∈ [Command.enc, .dec, .decBody, .encHdr, .decHdr], isEncoding c = true → ready.tagsLegal = true) ∧
      State.reset.status ≠ .busy ∧ (isEncoding .dec = true → State.reset.tagsLegal = true) := by decide

theorem witness_StepRunsTheCommandWritten :
    ∀ p ∈ [((0 : BitVec 3), Instr.nop), (1, .enc), (5, .decHdr)],
      ({ ready with hostMoves := [.writeCmd p.1] } : State).resetAsserted = false ∧
      ({ ready with hostMoves := [.writeCmd p.1] } : State).status ≠ .busy ∧
      ({ ready with hostMoves := [.writeCmd p.1] } : State).hostMoves = .writeCmd p.1 :: [] ∧
      decodeCommand p.1 = .ok p.2 := by decide

/-- A first byte at both ends of each clause. -/
theorem witness_FirstByteSelectsTheChunk :
    (∀ b ∈ [(0x00 : Byte), 0x3F], b.toNat < 64) ∧ (∀ b ∈ [(0x40 : Byte), 0x7F], 64 ≤ b.toNat ∧ b.toNat < 128) ∧
    (∀ b ∈ [(0x80 : Byte), 0xBF], 128 ≤ b.toNat ∧ b.toNat < 192) ∧
    (∀ b ∈ [(0xC0 : Byte), 0xFD], 192 ≤ b.toNat ∧ b.toNat < 254) ∧ (0xFE : Byte).toNat = 254 ∧ (0xFF : Byte).toNat = 255 := by
  decide

theorem witness_ChunkLengthFromFirstByteAlone :
    chunkLen 0xFF ≤ [(1 : Byte), 2, 3, 4].length + 1 ∧ chunkLen 0x35 ≤ ([] : List Byte).length + 1 ∧
    [(1 : Byte), 2, 3].length + 1 < chunkLen 0xFF ∧ ([] : List Byte).length + 1 < chunkLen 0x80 := by decide

theorem witness_DecodeInvertsEncode :
    ∀ i ∈ [Instr.index 63, .diff (-2) 1 0, .luma (-32) 7 (-8), .rgb 0 255 1, .rgba 1 2 3 0, .run 1, .run 62,
      .header 0xFFFFFFFF 0 3 1, .nop, .enc, .dec, .decBody, .encHdr, .decHdr], i.WellFormed := by decide

theorem witness_EncodeInvertsDecode :
    decode Config.standard.magic .body [0xFD, 7] = .ok (.run 62, [7]) ∧
    decode Config.standard.magic .header (header21 ++ [9]) = .ok (.header 2 1 4 0, [9]) ∧
    decode Config.standard.magic .command [5] = .ok (.decHdr, []) := by decide

/-- Tags at the edges of the three clauses, and the longest part of the 14 bytes that is too short. -/
theorem witness_HeaderRoundTrips :
    ((3 : Byte) = 3 ∨ (3 : Byte) = 4) ∧ ((1 : Byte) = 0 ∨ (1 : Byte) = 1) ∧
    (∀ c ∈ [(2 : Byte), 5], ¬ (c = 3 ∨ c = 4)) ∧ ¬ ((2 : Byte) = 0 ∨ (2 : Byte) = 1) ∧ 13 < 14 := by decide

/-- A header that fails each test, the one after it failing too where there is one, and one that passes. -/
theorem witness_HeaderTestsInOrder :
    let m := Config.standard.magic
    let ok : List Byte := header21 ++ [1]
    let badMagic : List Byte := 0 :: header21.tail
    let badChannels : List Byte := header21.take 12 ++ [5, 2]
    let badColorspace : List Byte := header21.take 13 ++ [2]
    (header21.take 13).length < 14 ∧ 14 ≤ badMagic.length ∧ badMagic.take 4 ≠ m.bytes ∧
    14 ≤ badChannels.length ∧ badChannels.take 4 = m.bytes ∧ badChannels[12]? ≠ some 3 ∧ badChannels[12]? ≠ some 4 ∧
    14 ≤ badColorspace.length ∧ badColorspace.take 4 = m.bytes ∧ (badColorspace[12]? = some 3 ∨ badColorspace[12]? = some 4) ∧
    badColorspace[13]? ≠ some 0 ∧ badColorspace[13]? ≠ some 1 ∧
    14 ≤ ok.length ∧ ok.take 4 = m.bytes ∧ (ok[12]? = some 3 ∨ ok[12]? = some 4) ∧ (ok[13]? = some 0 ∨ ok[13]? = some 1) := by
  decide

theorem witness_InsertOverwritesOneSlot :
    (52 : Slot) ≠ pixelHash ⟨0, 0, 0, 255⟩ ∧ (⟨128, 0, 0, 255⟩ : Pixel) ≠ ⟨0, 0, 0, 255⟩ ∧
      pixelHash ⟨128, 0, 0, 255⟩ = pixelHash ⟨0, 0, 0, 255⟩ := by decide

/-- An engine with room for exactly one more pixel, and an unbounded one: INDEX and DIFF ask for no more. -/
theorem witness_IndexFetchesFromTheCache :
    ({ decoding ⟨0, 0, 0, 255⟩ [0x35] with cfg := ⟨Config.standard.magic, some 1⟩ } : State).fits 1 = true := by decide

theorem witness_DiffAddsDeltasToPrev : (decoding ⟨255, 0, 0, 9⟩ [0x7F]).fits 1 = true := by decide

/-- Exactly enough bytes, and one too few. -/
theorem witness_LumaAddsGreenRelativeDeltas :
    (decoding ⟨1, 2, 3, 4⟩ [0x80, 0]).fits 1 = true ∧
    (decoding ⟨1, 2, 3, 4⟩ [0x80, 0]).pos + 2 ≤ (decoding ⟨1, 2, 3, 4⟩ [0x80, 0]).bodyLen ∧
    (decoding ⟨1, 2, 3, 4⟩ [0x80]).fits 1 = true ∧
    (decoding ⟨1, 2, 3, 4⟩ [0x80]).bodyLen < (decoding ⟨1, 2, 3, 4⟩ [0x80]).pos + 2 := by decide

theorem witness_RgbForcesAlphaOpaque :
    (decoding ⟨1, 2, 3, 4⟩ [0xFE, 1, 2, 3]).fits 1 = true ∧
    (decoding ⟨1, 2, 3, 4⟩ [0xFE, 1, 2, 3]).pos + 4 ≤ (decoding ⟨1, 2, 3, 4⟩ [0xFE, 1, 2, 3]).bodyLen ∧
    (decoding ⟨1, 2, 3, 4⟩ [0xFE, 1, 2]).fits 1 = true ∧
    (decoding ⟨1, 2, 3, 4⟩ [0xFE, 1, 2]).bodyLen < (decoding ⟨1, 2, 3, 4⟩ [0xFE, 1, 2]).pos + 4 := by decide

theorem witness_RgbaTakesAllChannels :
    (decoding ⟨1, 2, 3, 4⟩ [0xFF, 1, 2, 3, 4]).fits 1 = true ∧
    (decoding ⟨1, 2, 3, 4⟩ [0xFF, 1, 2, 3, 4]).pos + 5 ≤ (decoding ⟨1, 2, 3, 4⟩ [0xFF, 1, 2, 3, 4]).bodyLen ∧
    (decoding ⟨1, 2, 3, 4⟩ [0xFF, 1, 2, 3]).fits 1 = true ∧
    (decoding ⟨1, 2, 3, 4⟩ [0xFF, 1, 2, 3]).bodyLen < (decoding ⟨1, 2, 3, 4⟩ [0xFF, 1, 2, 3]).pos + 5 := by decide

theorem witness_RunRepeatsPrev :
    ({ decoding ⟨7, 7, 7, 7⟩ [0xFD] with cfg := ⟨Config.standard.magic, some 62⟩ } : State).fits 62 = true := by decide

theorem decoding_inBody (p : Pixel) (bs : List Byte) : (decoding p bs).inBody := .inr ⟨rfl, rfl, rfl⟩

theorem encoding_inChunks (p : Pixel) (ps : List Pixel) : (encoding p ps).inChunks .enc := ⟨rfl, rfl, rfl⟩

theorem witness_StepRaisesDecodeErrorPrecisely :
    let s := decoding ⟨9, 9, 9, 9⟩ [0xFE, 1, 2]
    s.resetAsserted = false ∧ s.inBody ∧ s.pos < s.bodyLen ∧ Buffer.read s.mem.byteIn (s.bodyBase + s.pos) = some 0xFE ∧
      s.bodyLen < s.pos + chunkLen 0xFE :=
  ⟨by decide, decoding_inBody _ _, by decide, by decide, by decide⟩

/-- OUT_CAP 1: one element fits, two do not; a RUN 2 and a 5-byte chunk do not. -/
theorem witness_OutCapRefusesNeverTruncates :
    let s : State := { decoding ⟨9, 9, 9, 9⟩ [0xC1] with cfg := ⟨Config.standard.magic, some 1⟩ }
    let e : State := { encoding ⟨0, 0, 0, 255⟩ [⟨1, 1, 1, 254⟩] with cfg := ⟨Config.standard.magic, some 18⟩ }
    s.cfg.outCap = some 1 ∧ s.outLen + [(⟨1, 1, 1, 1⟩ : Pixel)].length ≤ 1 ∧ s.outLen + [(1 : Byte)].length ≤ 1 ∧
      (Instr.run 2).space = .body ∧ (Instr.run 2).byteLength = 1 ∧ 1 < s.outLen + pixelsProduced (.run 2) ∧
      e.cfg.outCap = some 18 ∧ chooseChunk e = some ⟨.rgba 1 1 1 254, ⟨1, 1, 1, 254⟩, 1, true⟩ ∧
      18 < e.outLen + (Instr.rgba 1 1 1 254).byteLength := by decide

theorem witness_AbsentInputIsRefused :
    (let s := entering .dec { ready with inLen := 14 };
      s.resetAsserted = false ∧ s.status = .busy ∧ s.phase = .entry ∧ s.running = some .dec ∧ 14 ≤ s.inLen ∧
        13 < 14 ∧ Buffer.read s.mem.byteIn 13 = none) ∧
    (let s : State := { decoding ⟨0, 0, 0, 255⟩ [0xFE, 1, 2] with inLen := 4 };
      s.inBody ∧ s.pos + 4 ≤ s.bodyLen ∧ (Buffer.read s.mem.byteIn (s.bodyBase + s.pos)).map chunkLen = some 4 ∧
        3 < 4 ∧ Buffer.read s.mem.byteIn (s.bodyBase + s.pos + 3) = none) ∧
    (let s : State := { decoding ⟨0, 0, 0, 255⟩ [] with inLen := 1 };
      s.inBody ∧ s.pos < s.bodyLen ∧ Buffer.read s.mem.byteIn (s.bodyBase + s.pos) = none) ∧
    (let s : State := { encoding ⟨0, 0, 0, 255⟩ [] with inLen := 1 };
      s.inChunks .enc ∧ s.pos < s.inLen ∧ Buffer.read s.mem.pixIn s.pos = none) ∧
    (∀ extra ∈ [0, 60],
      let s : State := { encoding ⟨0, 0, 0, 255⟩ (List.replicate (extra + 1) ⟨0, 0, 0, 255⟩) with inLen := extra + 2 };
      s.inChunks .enc ∧ extra < 61 ∧ s.pos + 1 + extra < s.inLen ∧
        (∀ j, j ≤ extra → Buffer.read s.mem.pixIn (s.pos + j) = some s.prev) ∧
        Buffer.read s.mem.pixIn (s.pos + 1 + extra) = none) := by
  refine ⟨by decide, ⟨.inr ⟨rfl, rfl, rfl⟩, by decide⟩, ⟨.inr ⟨rfl, rfl, rfl⟩, by decide⟩,
    ⟨⟨rfl, rfl, rfl⟩, by decide⟩, fun extra he => ?_⟩
  fin_cases he
  · exact ⟨⟨rfl, rfl, rfl⟩, by decide⟩
  · exact ⟨⟨rfl, rfl, rfl⟩, by decide, by decide, by simp only [← Nat.lt_succ_iff]; decide, by decide⟩

theorem witness_StepRunsTheDecodedChunk :
    let s := decoding ⟨1, 0, 255, 255⟩ [0xAA, 0x84]
    s.resetAsserted = false ∧ s.inBody ∧ s.pos + (Instr.luma 10 0 (-4)).byteLength ≤ s.bodyLen ∧
      Buffer.readSeq s.mem.byteIn (s.bodyBase + s.pos) (Instr.luma 10 0 (-4)).byteLength = some [0xAA, 0x84] ∧
      decodeChunk ([0xAA, 0x84] ++ [0x35]) = .ok (.luma 10 0 (-4), [0x35]) :=
  ⟨by decide, decoding_inBody _ _, by decide, by decide, by decide⟩

theorem witness_StepRunsTheDecodedHeader :
    ∀ c ∈ [Command.dec, .decHdr], let s := entering c (withBytes header21)
      s.resetAsserted = false ∧ s.status = .busy ∧ s.phase = .entry ∧
      (s.running = some .dec ∨ s.running = some .decHdr) ∧ 14 ≤ s.inLen ∧
      Buffer.readSeq s.mem.byteIn 0 14 = some header21 ∧
      decodeHeader s.cfg.magic (header21 ++ [7]) = .ok (.header 2 1 4 0, [7]) := by decide

theorem witness_HeaderFillsTheRegisters :
    ((3 : Byte) = 3 ∨ (3 : Byte) = 4) ∧ ((1 : Byte) = 0 ∨ (1 : Byte) = 1) ∧
    (entering .dec ready).running = some .dec ∧ (entering .decHdr ready).running = some .decHdr ∧
    ¬ ((5 : Byte) = 3 ∨ (5 : Byte) = 4) ∧ ((4 : Byte) = 3 ∨ (4 : Byte) = 4) ∧ ¬ ((2 : Byte) = 0 ∨ (2 : Byte) = 1) := by decide

theorem witness_BadHeaderRaisesFormatError :
    ∀ bs ∈ [header21.take 13, 0 :: header21.tail, header21.take 12 ++ [5, 2], header21.take 13 ++ [2]],
      let s := entering .dec (withBytes bs)
      s.resetAsserted = false ∧ s.status = .busy ∧ s.phase = .entry ∧ (s.running = some .dec ∨ s.running = some .decHdr) ∧
      (s.inLen < 14 ∨ 14 ≤ s.inLen ∧ Buffer.readSeq s.mem.byteIn 0 14 = some bs ∧
        (bs.take 4 ≠ s.cfg.magic.bytes ∨
          bs.take 4 = s.cfg.magic.bytes ∧ (bs[12]? ≠ some 3 ∧ bs[12]? ≠ some 4 ∨
            (bs[12]? = some 3 ∨ bs[12]? = some 4) ∧ bs[13]? ≠ some 0 ∧ bs[13]? ≠ some 1))) := by decide

theorem witness_EncChecksTheExactSizeFirst :
    (let s := entering .enc { ready with width := 65536, height := 65536 };
      s.resetAsserted = false ∧ s.status = .busy ∧ s.phase = .entry ∧ s.running = some .enc ∧
        s.inLen ≠ s.width.toNat * s.height.toNat) ∧
    (let s := entering .enc { withPixels [⟨1, 2, 3, 4⟩] with cfg := ⟨Config.standard.magic, some 14⟩ };
      s.resetAsserted = false ∧ s.status = .busy ∧ s.phase = .entry ∧ s.running = some .enc ∧
        s.inLen = s.width.toNat * s.height.toNat ∧ s.cfg.outCap = some 14) := by decide

theorem witness_DecBodyStartsFresh :
    let s := entering .decBody (withBytes [0x35])
    s.resetAsserted = false ∧ s.status = .busy ∧ s.phase = .entry ∧ s.running = some .decBody := by decide

theorem witness_CommandEndsAtTheEndOfInput :
    (let s := encoding ⟨0, 0, 0, 255⟩ [];
      s.resetAsserted = false ∧ s.inChunks .enc ∧ s.pos = s.inLen) ∧
    (let s := decoding ⟨0, 0, 0, 255⟩ [];
      s.resetAsserted = false ∧ s.inBody ∧ s.pos = s.bodyLen) :=
  ⟨⟨by decide, encoding_inChunks _ _, by decide⟩, ⟨by decide, decoding_inBody _ _, by decide⟩⟩

/-- A run stopped by another pixel, by the end of the input, and by its greatest length. -/
theorem witness_EncoderEmitsTheLongestRun :
    (let s := encoding ⟨5, 5, 5, 255⟩ [⟨5, 5, 5, 255⟩, ⟨5, 5, 5, 255⟩, ⟨1, 1, 1, 1⟩];
      s.resetAsserted = false ∧ s.inChunks .enc ∧ s.pos < s.inLen ∧ Buffer.read s.mem.pixIn s.pos = some s.prev ∧ 1 ≤ 61 ∧
        (∀ j, j < 1 → s.pos + 1 + j < s.inLen ∧ Buffer.read s.mem.pixIn (s.pos + 1 + j) = some s.prev) ∧
        (⟨1, 1, 1, 1⟩ : Pixel) ≠ s.prev ∧ Buffer.read s.mem.pixIn (s.pos + 1 + 1) = some ⟨1, 1, 1, 1⟩ ∧ s.fits 1 = true) ∧
    (let s := encoding ⟨5, 5, 5, 255⟩ [⟨5, 5, 5, 255⟩];
      s.pos < s.inLen ∧ Buffer.read s.mem.pixIn s.pos = some s.prev ∧ s.inLen ≤ s.pos + 1 + 0 ∧ s.fits 1 = true) ∧
    (let s := encoding ⟨5, 5, 5, 255⟩ (List.replicate 70 ⟨5, 5, 5, 255⟩);
      s.pos < s.inLen ∧ Buffer.read s.mem.pixIn s.pos = some s.prev ∧
        (∀ j, j < 61 → s.pos + 1 + j < s.inLen ∧ Buffer.read s.mem.pixIn (s.pos + 1 + j) = some s.prev) ∧ s.fits 1 = true) :=
  ⟨⟨by decide, encoding_inChunks _ _, by decide⟩, by decide, by decide⟩

theorem witness_EncoderEmitsCacheHits :
    let s := encoding ⟨255, 255, 255, 255⟩ [⟨0, 0, 0, 255⟩]
    s.resetAsserted = false ∧ s.inChunks .enc ∧ s.pos < s.inLen ∧ Buffer.read s.mem.pixIn s.pos = some ⟨0, 0, 0, 255⟩ ∧
      (⟨0, 0, 0, 255⟩ : Pixel) ≠ s.prev ∧ s.cache[pixelHash ⟨0, 0, 0, 255⟩] = ⟨0, 0, 0, 255⟩ ∧ s.fits 1 = true :=
  ⟨by decide, encoding_inChunks _ _, by decide⟩

/-- A pixel for each of the four chunks, at the edges of their ranges. -/
theorem witness_EncoderTriesAlphaDiffLumaRgb :
    (encoding ⟨0, 0, 0, 255⟩ [⟨0, 0, 0, 254⟩]).inChunks .enc ∧
    ∀ p ∈ [(⟨0, 0, 0, 254⟩ : Pixel), ⟨254, 254, 1, 255⟩, ⟨216, 224, 231, 255⟩, ⟨223, 223, 223, 255⟩],
      let s := encoding ⟨0, 0, 0, 255⟩ [p]
      s.resetAsserted = false ∧ s.pos < s.inLen ∧ Buffer.read s.mem.pixIn s.pos = some p ∧ p ≠ s.prev ∧
        s.cache[pixelHash p] ≠ p ∧ s.fits 5 = true ∧
        (p = ⟨0, 0, 0, 254⟩ ∧ p.a ≠ s.prev.a ∨
          p = ⟨254, 254, 1, 255⟩ ∧ p.a = s.prev.a ∧ diffFits (delta p.r 0) (delta p.g 0) (delta p.b 0) = true ∨
          p = ⟨216, 224, 231, 255⟩ ∧ p.a = s.prev.a ∧ diffFits (delta p.r 0) (delta p.g 0) (delta p.b 0) = false ∧
            lumaFits (delta p.r 0) (delta p.g 0) (delta p.b 0) = true ∨
          p = ⟨223, 223, 223, 255⟩ ∧ p.a = s.prev.a ∧ diffFits (delta p.r 0) (delta p.g 0) (delta p.b 0) = false ∧
            lumaFits (delta p.r 0) (delta p.g 0) (delta p.b 0) = false) :=
  ⟨encoding_inChunks _ _, by decide⟩

/-- A run that ends before 62, an index, an RGBA and an RGB chosen. -/
theorem witness_EncoderNeverChooses :
    chooseChunk (encoding ⟨5, 5, 5, 255⟩ [⟨5, 5, 5, 255⟩, ⟨1, 1, 1, 1⟩]) = some ⟨.run 1, ⟨5, 5, 5, 255⟩, 1, false⟩ ∧
    chooseChunk ((encoding ⟨5, 5, 5, 255⟩ [⟨5, 5, 5, 255⟩, ⟨1, 1, 1, 1⟩]).encoded ⟨.run 1, ⟨5, 5, 5, 255⟩, 1, false⟩) =
      some ⟨.rgba 1 1 1 1, ⟨1, 1, 1, 1⟩, 1, true⟩ ∧
    chooseChunk (encoding ⟨255, 255, 255, 255⟩ [⟨0, 0, 0, 255⟩]) = some ⟨.index 53, ⟨0, 0, 0, 255⟩, 1, false⟩ ∧
    chooseChunk (encoding ⟨0, 0, 0, 255⟩ [⟨223, 223, 223, 255⟩]) =
      some ⟨.rgb 223 223 223, ⟨223, 223, 223, 255⟩, 1, true⟩ := by decide

/-- A BUSY state that meets the invariant, and its step. -/
theorem witness_EveryStepKeepsTheInvariant :
    (entering .decBody (withBytes [])).Inv ∧
      step (entering .decBody (withBytes [])) = .next (entering .decBody (withBytes [])).initialised := by
  refine ⟨⟨by decide, ?_, ?_, ?_, ?_, ?_, ?_, ?_, ?_, ?_, ?_, ?_, ?_, ?_, ?_, ?_⟩, rfl⟩ <;>
    simp [entering, withBytes, ready, State.inChunks, State.inBody, isEncoding]

theorem witness_ChunkStepsAdvance :
    (let s := encoding ⟨0, 0, 0, 255⟩ [⟨1, 1, 1, 255⟩];
      s.resetAsserted = false ∧ (nextOf (step s)).map State.status = some .busy ∧ s.inChunks .enc) ∧
    (let s := decoding ⟨0, 0, 0, 255⟩ [0xFF, 1, 2, 3, 4];
      s.resetAsserted = false ∧ (nextOf (step s)).map State.status = some .busy ∧ s.inBody) :=
  ⟨⟨by decide, by decide, encoding_inChunks _ _⟩, ⟨by decide, by decide, decoding_inBody _ _⟩⟩

/-- A step of each kind: nothing, a start, an end. -/
theorem witness_StatusMovesAsRuled :
    ∀ s ∈ [ready, { ready with hostMoves := [.writeCmd 3] }, decoding ⟨0, 0, 0, 255⟩ []],
      s.resetAsserted = false ∧ (nextOf (step s)).isSome = true := by decide

/-- A step that raises, for each of the three exceptions. -/
theorem witness_OnlyTheRuledExceptions :
    ∀ s ∈ [entering .enc { ready with width := 1, height := 1 }, entering .dec (withBytes [0x71]),
        decoding ⟨0, 0, 0, 255⟩ [0xFE]],
      s.resetAsserted = false ∧ s.status ≠ .error ∧ (nextOf (step s)).map State.status = some .error := by decide

theorem witness_EngineNeverWritesItsInputs :
    ∀ s ∈ [entering .dec (withBytes header21), decoding ⟨0, 0, 0, 255⟩ [0x35], encoding ⟨0, 0, 0, 255⟩ [⟨1, 1, 1, 255⟩]],
      s.resetAsserted = false ∧ s.status = .busy ∧ (nextOf (step s)).isSome = true := by decide

theorem witness_DecoderIgnoresTheHeaderRegisters :
    let s := decoding ⟨0, 0, 0, 255⟩ [0x35]
    s.resetAsserted = false ∧ s.inBody ∧ (nextOf (step s)).isSome = true :=
  ⟨by decide, decoding_inBody _ _, by decide⟩

/-- Illegal tags; and legal ones with exactly 14 elements of room. -/
theorem witness_EncHdrWritesAHeader :
    (State.reset.resetAsserted = false ∧ State.reset.status ≠ .busy ∧ State.reset.tagsLegal = false) ∧
    (let s : State := { ready with inLen := 7, cfg := ⟨Config.standard.magic, some 14⟩ };
      s.resetAsserted = false ∧ s.status ≠ .busy ∧ s.tagsLegal = true ∧ s.cfg.outCap = some 14) := by decide

theorem witness_DecHdrReadsAHeader :
    let s := withBytes (header21 ++ [0x80])
    s.resetAsserted = false ∧ s.status ≠ .busy ∧ 14 ≤ s.inLen ∧ ((4 : Byte) = 3 ∨ (4 : Byte) = 4) ∧
      ((0 : Byte) = 0 ∨ (0 : Byte) = 1) ∧
      Buffer.readSeq s.mem.byteIn 0 14 = some (encodeHeader s.cfg.magic 2 1 4 0) := by decide

/-- The two pixels of spec/95 S5, in an unbounded engine and in one with just enough room. -/
theorem witness_EncAlwaysEndsDone :
    let px : List Pixel := [⟨10, 10, 10, 255⟩, ⟨10, 10, 10, 128⟩]
    let s : State := { withPixels px with cfg := ⟨Config.standard.magic, some 24⟩ }
    s.resetAsserted = false ∧ s.status ≠ .busy ∧ s.tagsLegal = true ∧ s.inLen = s.width.toNat * s.height.toNat ∧
      Buffer.readSeq s.mem.pixIn 0 s.inLen = some px ∧ s.cfg.outCap = some 24 ∧ 14 + 5 * s.inLen ≤ 24 := by decide

theorem witness_DecBodyAlwaysEnds :
    let s : State := { withBytes [0xFD, 0xFE] with cfg := ⟨Config.standard.magic, some 124⟩ }
    s.resetAsserted = false ∧ s.status ≠ .busy ∧ Buffer.readSeq s.mem.byteIn 0 s.inLen = some [0xFD, 0xFE] ∧
      s.cfg.outCap = some 124 ∧ 62 * s.inLen ≤ 124 := by decide

/-- A stream whose header parses, and one whose header does not. -/
theorem witness_DecAlwaysEnds :
    ∀ bs ∈ [header21 ++ [0xAA, 0x88, 0xFF, 0x0A, 0x0A, 0x0A, 0x80], [0x71]], let s := withBytes bs
      s.resetAsserted = false ∧ s.status ≠ .busy ∧ Buffer.readSeq s.mem.byteIn 0 s.inLen = some bs ∧
      s.cfg.outCap = none := by decide

theorem witness_EmptyImageIsHeaderOnly :
    let s : State := { ready with height := 7 }
    let d := withBytes [0x71, 0x6F, 0x69, 0x66, 0, 0, 0, 0, 0, 0, 0, 7, 4, 0]
    s.resetAsserted = false ∧ s.status ≠ .busy ∧ s.tagsLegal = true ∧ s.inLen = 0 ∧ (s.width = 0 ∨ s.height = 0) ∧
      s.cfg.outCap = none ∧ d.resetAsserted = false ∧ d.status ≠ .busy ∧ d.inLen = 14 ∧ d.cfg = s.cfg ∧
      Buffer.readSeq d.mem.byteIn 0 14 =
        some (encodeHeader s.cfg.magic s.width s.height s.channels s.colorspace) := by decide

/-- spec/95 P4: the second pixel, an RGB chunk for alpha 128 (the hazard); and a RUN of two (no hazard). -/
theorem witness_EncoderAndDecoderStayInLockstep :
    (let s := encoding ⟨0, 0, 0, 128⟩ [⟨100, 0, 0, 128⟩];
      let c : Choice := ⟨.rgb 100 0 0, ⟨100, 0, 0, 128⟩, 1, true⟩;
      let d := decoding ⟨0, 0, 0, 128⟩ [0xFE, 100, 0, 0];
      chooseChunk s = some c ∧ (nextOf (encoderStep s)).isSome = true ∧ d.prev = s.prev ∧ d.cache = s.cache ∧
        d.pos + c.chunk.byteLength ≤ d.bodyLen ∧ (nextOf (exec c.chunk d)).isSome = true ∧ c.pixel.a ≠ 255) ∧
    (let s := encoding ⟨5, 5, 5, 9⟩ [⟨5, 5, 5, 9⟩, ⟨5, 5, 5, 9⟩];
      let c : Choice := ⟨.run 2, ⟨5, 5, 5, 9⟩, 2, false⟩;
      let d := decoding ⟨5, 5, 5, 9⟩ [0xC1];
      chooseChunk s = some c ∧ (nextOf (encoderStep s)).isSome = true ∧ d.prev = s.prev ∧ d.cache = s.cache ∧
        d.pos + c.chunk.byteLength ≤ d.bodyLen ∧ (nextOf (exec c.chunk d)).isSome = true) := by decide

/-- spec/95 P4 whole: the image, and its stream in the decoding engine. -/
theorem witness_RoundTripExactlyWithoutAlphaHazard :
    let px : List Pixel := [⟨0, 0, 0, 128⟩, ⟨100, 0, 0, 128⟩, ⟨101, 0, 0, 128⟩, ⟨0, 0, 0, 128⟩]
    let s := withPixels px
    let stream : List Byte := [0x71, 0x6F, 0x69, 0x66, 0, 0, 0, 4, 0, 0, 0, 1, 4, 0,
      0xFF, 0, 0, 0, 0x80, 0xFE, 0x64, 0, 0, 0x7A, 0]
    let d := withBytes stream
    s.resetAsserted = false ∧ s.status ≠ .busy ∧ s.tagsLegal = true ∧ s.inLen = s.width.toNat * s.height.toNat ∧
      Buffer.readSeq s.mem.pixIn 0 s.inLen = some px ∧ s.cfg.outCap = none ∧
      d.resetAsserted = false ∧ d.status ≠ .busy ∧ d.cfg = s.cfg ∧ d.inLen = stream.length ∧
      Buffer.readSeq d.mem.byteIn 0 d.inLen = some stream := by decide

theorem witness_OpaqueImagesRoundTrip :
    let px : List Pixel := [⟨128, 0, 0, 255⟩, ⟨0, 0, 0, 255⟩]
    let s := withPixels px
    let d := withBytes (header21 ++ [0xFE, 0x80, 0, 0, 0xFE, 0, 0, 0])
    s.resetAsserted = false ∧ s.status ≠ .busy ∧ s.tagsLegal = true ∧ s.inLen = s.width.toNat * s.height.toNat ∧
      Buffer.readSeq s.mem.pixIn 0 s.inLen = some px ∧ (∀ p, p ∈ px → p.a = 255) ∧ s.cfg.outCap = none ∧
      d.resetAsserted = false ∧ d.status ≠ .busy ∧ d.cfg = s.cfg := by decide

/-- The same empty body in two engines with different pasts. -/
theorem witness_CommandsArePureFunctions :
    let s := withBytes []
    let s' : State := { withBytes [] with prev := ⟨1, 2, 3, 4⟩, pos := 9, status := .error, err := 3, outLen := 5 }
    s.resetAsserted = false ∧ s'.resetAsserted = false ∧ s'.status ≠ .busy ∧ s'.cfg = s.cfg ∧
      s'.headerRegs = s.headerRegs ∧ s'.inLen = s.inLen ∧ s'.mem.pixIn = s.mem.pixIn ∧ s'.mem.byteIn = s.mem.byteIn ∧
      CompletesWithin 2 (startOf .decBody) s (s.started .decBody).initialised.finished :=
  ⟨by decide, by decide, by decide, by decide, by decide, by decide, by decide, by decide, _, rfl, rfl, by decide⟩

/-- A body that ends whole, and one cut short. -/
theorem witness_ByteSerialFormAgrees :
    ∀ bs ∈ [[(0xC1 : Byte), 0x79, 0xAA, 0x84], [0x7F, 0xAA]], let s := withBytes bs
      s.resetAsserted = false ∧ s.status ≠ .busy ∧ Buffer.readSeq s.mem.byteIn 0 s.inLen = some bs ∧
      s.cfg.outCap = none := by decide

end Sys2Proof.Tests
end

section
/-! Proofs of O17 and O30: channel arithmetic undone, and the refusal of input elements that were never placed. -/

namespace Sys2Proof.Machine

/-! ### Channel arithmetic (rule R13) -/

/-- `s8` keeps the residue modulo 256. -/
theorem s8_emod (x : Int) : s8 x % 256 = x % 256 := by
  rw [s8_eq]
  split <;> omega

theorem s8_range (x : Int) : -128 ≤ s8 x ∧ s8 x ≤ 127 := by
  rw [s8_eq]
  split <;> omega

/-- A byte is what `wrap8` makes of any integer with its residue. -/
theorem wrap8_eq_of_emod {x : Int} {c : Byte} (h : x % 256 = c.toNat) : wrap8 x = c :=
  BitVec.eq_of_toNat_eq (Int.ofNat_inj.mp ((wrap8_toNat x).trans h))

/-- The wrap of the subtraction and the wrap of the addition cancel modulo 256. -/
theorem applyDelta_delta (c p : Byte) : applyDelta p (delta c p) = c := by
  have hdelta : delta c p % 256 = ((c.toNat : Int) - p.toNat) % 256 := s8_emod _
  have hc := c.isLt
  exact wrap8_eq_of_emod (by omega)

/-- Settles O17: `delta` keeps the difference modulo 256, which is all that `apply` needs to give the byte back. -/
theorem applyUndoesDelta : Obligations.ApplyUndoesDelta :=
  fun c p => ⟨applyDelta_delta c p, s8_range _⟩

/-! ### Reading what was never placed (rules R14, R33) -/

/-- A sequence read over an absent element has no value. -/
theorem Buffer.readSeq_eq_none_of_absent {α : Type} {b : Buffer α} {i n j : Nat} (hj : j < n)
    (habs : Buffer.read b (i + j) = none) : Buffer.readSeq b i n = none := by
  rw [Option.eq_none_iff_forall_ne_some]
  intro xs hxs
  have hget := Buffer.read_of_readSeq hxs hj
  rw [habs, eq_comm, List.getElem?_eq_none_iff, Buffer.readSeq_length hxs] at hget
  omega

variable {s : State}

theorem fetchHeader_of_absent {j : Nat} (hlen : 14 ≤ s.inLen) (hj : j < 14)
    (habs : Buffer.read s.mem.byteIn j = none) : fetchHeader s = .outcome (.refused .inputElementAbsent) := by
  have hseq : Buffer.readSeq s.mem.byteIn 0 Config.headerBytes = none :=
    Buffer.readSeq_eq_none_of_absent hj (by rwa [Nat.zero_add])
  have hlong : ¬ s.inLen < Config.headerBytes := Nat.not_lt.mpr hlen
  rw [fetchHeader, if_neg hlong, hseq]

theorem fetchChunk_of_first_absent (hpos : s.pos < s.bodyLen)
    (habs : Buffer.read s.mem.byteIn (s.bodyBase + s.pos) = none) :
    fetchChunk s = .outcome (.refused .inputElementAbsent) := by
  rw [fetchChunk, if_pos hpos, habs]

/-- The first byte is there and announces a chunk that the body holds whole, but one of its bytes is absent. -/
theorem fetchChunk_of_later_absent {b0 : Byte} {j : Nat} (hb0 : Buffer.read s.mem.byteIn (s.bodyBase + s.pos) = some b0)
    (hfits : s.pos + chunkLen b0 ≤ s.bodyLen) (hj : j < chunkLen b0)
    (habs : Buffer.read s.mem.byteIn (s.bodyBase + s.pos + j) = none) :
    fetchChunk s = .outcome (.refused .inputElementAbsent) := by
  have hpos : s.pos < s.bodyLen := by omega
  simp only [fetchChunk, if_pos hpos, hb0, if_pos hfits, Buffer.readSeq_eq_none_of_absent hj habs]

theorem chooseChunk_eq_none_of_pixel_absent (habs : Buffer.read s.mem.pixIn s.pos = none) : chooseChunk s = none := by
  rw [chooseChunk, habs]

theorem encoderStep_of_no_choice (h : chooseChunk s = none) : encoderStep s = .refused .inputElementAbsent := by
  rw [encoderStep, h]

/-- Settles O30: each of the four reads (header, chunk, pixel, lookahead of a run) has no value where it meets an absent element. -/
theorem absentInputIsRefused : Obligations.AbsentInputIsRefused := by
  intro s hr
  refine ⟨?header, ?chunk, ?first, ?pixel, ?lookahead⟩
  case header =>
    rintro hb hp hc hlen ⟨j, hj, habs⟩
    rw [step_of_header hr hb hp hc, fetchHeader_of_absent hlen hj habs, perform_outcome]
  case chunk =>
    rintro n hd hfits - hn ⟨j, hj, habs⟩
    obtain ⟨b0, hb0, rfl⟩ := Option.map_eq_some_iff.mp hn
    rw [step_of_body hr hd, fetchChunk_of_later_absent hb0 hfits hj habs, perform_outcome]
  case first =>
    intro hd hpos habs
    rw [step_of_body hr hd, fetchChunk_of_first_absent hpos habs, perform_outcome]
  case pixel =>
    intro he hpos habs
    rw [step_of_encoder hr he hpos, encoderStep_of_no_choice (chooseChunk_eq_none_of_pixel_absent habs)]
  case lookahead =>
    intro extra he hextra hlt heq habs
    have hpos : s.pos < s.inLen := by omega
    rw [step_of_encoder hr he hpos, encoderStep_of_no_choice (chooseChunk_eq_none_of_absent hextra hlt heq habs)]

end Sys2Proof.Machine
end
section
/-! Proofs of O43 and O42: the invariant holds at reset and every step keeps it. -/

namespace Sys2Proof.Machine

variable {s t : State}

/-! ### Which command's chunk steps a state is in -/

/-- A state is in the chunk steps of one command only (rule R243). -/
theorem State.inChunks_unique {c d : Command} (hc : s.inChunks c) (hd : s.inChunks d) : c = d :=
  Option.some.inj (hc.2.2.symm.trans hd.2.2)

theorem State.not_inBody_of_enc (he : s.inChunks .enc) : ¬ s.inBody := by
  rintro (hd | hd) <;> cases State.inChunks_unique he hd

theorem State.not_enc_of_inBody (hd : s.inBody) : ¬ s.inChunks .enc :=
  fun he => State.not_inBody_of_enc he hd

theorem State.inBody.busy (hd : s.inBody) : s.status = .busy := hd.elim (·.1) (·.1)

theorem State.inBody.chunks (hd : s.inBody) : s.phase = .chunks := hd.elim (·.2.1) (·.2.1)

theorem State.inBody.running (hd : s.inBody) : s.running = some .dec ∨ s.running = some .decBody :=
  hd.imp (·.2.2) (·.2.2)

/-- Where a state stands depends on STATUS, the phase and the running command alone. -/
theorem State.inChunks_congr (hs : t.status = s.status) (hp : t.phase = s.phase) (hr : t.running = s.running)
    (c : Command) : t.inChunks c ↔ s.inChunks c := by
  simp only [State.inChunks, hs, hp, hr]

theorem State.inBody_congr (hs : t.status = s.status) (hp : t.phase = s.phase) (hr : t.running = s.running) :
    t.inBody ↔ s.inBody :=
  or_congr (inChunks_congr hs hp hr .dec) (inChunks_congr hs hp hr .decBody)

/-! ### What the invariant asks, by where the machine stands -/

/-- Of an engine that is not BUSY the invariant asks canonical buffers and the ERR of its STATUS. -/
theorem State.Inv.of_not_busy (hb : t.status ≠ .busy) (hmem : t.mem.wf) (hclear : t.status ≠ .error → t.err = 0)
    (hheld : t.status = .error → t.outLen = 0 ∧ ∃ x, t.err = errCode x) : t.Inv where
  memory := hmem
  runs h := absurd h hb
  entryEmpty h := absurd h hb
  chunkCommands h := absurd h hb
  headerThere h := absurd h.1 hb
  posInPixels h := absurd h.1 hb
  posInBody h := absurd h.busy hb
  tags h := absurd h hb
  sized h := absurd h.1 hb
  prevCached h := absurd h.1 hb
  encodedSize h := absurd h.1 hb
  decodedSize h := absurd h.busy hb
  bytesThere h := absurd h.1 hb
  pixelsThere h := absurd h.busy hb
  errCleared := hclear
  errHeld := hheld

/-- Of an engine before its entry action: a command that runs, legal tags if it encodes, and no output yet. -/
theorem State.Inv.of_entry {c : Command} (hb : t.status = .busy) (hp : t.phase = .entry) (hc : t.running = some c)
    (hmem : t.mem.wf) (hout : t.outLen = 0) (herr : t.err = 0) (htags : isEncoding c = true → t.tagsLegal = true) :
    t.Inv := by
  have hne : t.phase ≠ .chunks := by simp [hp]
  exact {
    memory := hmem
    runs := fun _ => by simp [hc]
    entryEmpty := fun _ _ => hout
    chunkCommands := fun _ h => absurd h hne
    headerThere := fun h => absurd h.2.1 hne
    posInPixels := fun h => absurd h.2.1 hne
    posInBody := fun h => absurd h.chunks hne
    tags := fun _ ⟨d, hd, henc⟩ => htags (Option.some.inj (hc.symm.trans hd) ▸ henc)
    sized := fun h => absurd h.2.1 hne
    prevCached := fun h => absurd h.2.1 hne
    encodedSize := fun h => absurd h.2.1 hne
    decodedSize := fun h => absurd h.chunks hne
    bytesThere := fun h => absurd h.2.1 hne
    pixelsThere := fun h => absurd h.chunks hne
    errCleared := fun _ => herr
    errHeld := fun h => by simp [hb] at h }

/-- Of an encoder in its chunk steps. -/
theorem State.Inv.of_encoding (he : t.inChunks .enc) (hmem : t.mem.wf) (hpos : t.pos ≤ t.inLen)
    (htags : t.tagsLegal = true) (hsized : t.sizeMatches = true) (hprev : t.cache[pixelHash t.prev] = t.prev)
    (hsize : Config.headerBytes ≤ t.outLen ∧ t.outLen ≤ Config.headerBytes + 5 * t.pos)
    (hout : (Buffer.readSeq t.mem.byteOut 0 t.outLen).isSome = true) (herr : t.err = 0) : t.Inv where
  memory := hmem
  runs _ := by simp [he.2.2]
  entryEmpty _ hp := by simp [he.2.1] at hp
  chunkCommands _ _ := .inl he
  headerThere hd := absurd he (not_enc_of_inBody (.inl hd))
  posInPixels _ := hpos
  posInBody hd := absurd he (not_enc_of_inBody hd)
  tags _ _ := htags
  sized _ := hsized
  prevCached _ := hprev
  encodedSize _ := hsize
  decodedSize hd := absurd he (not_enc_of_inBody hd)
  bytesThere _ := hout
  pixelsThere hd := absurd he (not_enc_of_inBody hd)
  errCleared _ := herr
  errHeld h := by simp [he.1] at h

/-- Of a decoder in its body. -/
theorem State.Inv.of_body (hd : t.inBody) (hmem : t.mem.wf) (hhdr : t.inChunks .dec → Config.headerBytes ≤ t.inLen)
    (hpos : t.pos ≤ t.bodyLen) (hsize : t.outLen ≤ Config.maxRun * t.pos)
    (hout : (Buffer.readSeq t.mem.pixOut 0 t.outLen).isSome = true) (herr : t.err = 0) : t.Inv where
  memory := hmem
  runs _ := by rcases hd.running with h | h <;> simp [h]
  entryEmpty _ hp := by simp [hd.chunks] at hp
  chunkCommands _ _ := .inr hd
  headerThere := hhdr
  posInPixels he := absurd hd (not_inBody_of_enc he)
  posInBody _ := hpos
  tags := by
    rintro - ⟨c, hc, henc⟩
    rcases hd.running with h | h <;> rw [h] at hc <;> cases hc <;> cases henc
  sized he := absurd hd (not_inBody_of_enc he)
  prevCached he := absurd hd (not_inBody_of_enc he)
  encodedSize he := absurd hd (not_inBody_of_enc he)
  decodedSize _ := hsize
  bytesThere he := absurd hd (not_inBody_of_enc he)
  pixelsThere _ := hout
  errCleared _ := herr
  errHeld h := by simp [hd.busy] at h

/-! ### The steps that keep it -/

/-- Reset, whatever the host's moves and the parameters (rules R37, R260). -/
theorem hardwareReset_inv (s : State) : s.hardwareReset.Inv :=
  .of_not_busy (by simp [State.reset]) ⟨.nil, .nil, .nil, .nil⟩ (fun _ => rfl) (by simp [State.reset])

/-- An exception taken (rule R237). -/
theorem raised_inv (hmem : s.mem.wf) (x : Exc) : (s.raised x).Inv :=
  .of_not_busy (by simp) (by simpa using hmem) (by simp) fun _ => ⟨rfl, x, rfl⟩

/-- A command ended without error (rule R217). -/
theorem ended_inv (hst : t.status = .done) (hmem : t.mem.wf) (herr : t.err = 0) : t.Inv :=
  .of_not_busy (by simp [hst]) hmem (fun _ => herr) (by simp [hst])

/-- A command started (rule R210). -/
theorem started_inv {c : Command} (hmem : s.mem.wf) (htags : isEncoding c = true → s.tagsLegal = true) :
    (s.started c).Inv :=
  .of_entry rfl rfl (State.started_running s c) hmem rfl rfl htags

/-- An output that is there is there after an Append. -/
theorem pushPixels_isSome (h : (Buffer.readSeq s.mem.pixOut 0 s.outLen).isSome = true) (ps : List Pixel) :
    (Buffer.readSeq (s.pushPixels ps).mem.pixOut 0 (s.pushPixels ps).outLen).isSome = true := by
  obtain ⟨xs, hxs⟩ := Option.isSome_iff_exists.mp h
  rw [pushPixels_output hxs]
  rfl

theorem pushBytes_isSome (h : (Buffer.readSeq s.mem.byteOut 0 s.outLen).isSome = true) (bs : List Byte) :
    (Buffer.readSeq (s.pushBytes bs).mem.byteOut 0 (s.pushBytes bs).outLen).isSome = true := by
  obtain ⟨xs, hxs⟩ := Option.isSome_iff_exists.mp h
  rw [pushBytes_output hxs]
  rfl

theorem freshCache_holds_default (k : Slot) : freshCache[k] = Config.defaultPixel := by
  simp [freshCache]

theorem State.Inv.err_of_busy (h : s.Inv) (hb : s.status = .busy) : s.err = 0 := h.errCleared (by simp [hb])

/-- ENC's entry action: the fresh working state and the 14 header bytes (rule R151). -/
theorem encEntry_inv (h : s.Inv) (hb : s.status = .busy) (hc : s.running = some .enc) (hsized : s.sizeMatches = true) :
    (s.initialised.pushBytes s.headerBytes).Inv := by
  have htags : s.tagsLegal = true := h.tags hb ⟨.enc, hc, rfl⟩
  refine .of_encoding ⟨hb, rfl, hc⟩ (pushBytes_wf (s := s.initialised) h.memory _) (Nat.zero_le _) htags hsized ?prev ?size
    (pushBytes_isSome rfl _) (h.err_of_busy hb)
  case prev => exact freshCache_holds_default (pixelHash Config.defaultPixel)
  case size => simp [Config.headerBytes]

/-- The initialisation before a body (rules R212, R213, R261). -/
theorem bodyEntry_inv (hmem : s.mem.wf) (hb : s.status = .busy) (herr : s.err = 0)
    (hc : (s.running = some .dec ∧ Config.headerBytes ≤ s.inLen) ∨ s.running = some .decBody) : s.initialised.Inv := by
  refine .of_body ?_ hmem ?_ (Nat.zero_le _) (Nat.zero_le _) rfl herr
  · exact hc.imp (fun hdec => ⟨hb, rfl, hdec.1⟩) fun hbody => ⟨hb, rfl, hbody⟩
  · rintro ⟨-, -, hrun⟩
    rcases hc with ⟨-, hlen⟩ | hbody
    · exact hlen
    · rw [State.initialised_running, hbody] at hrun
      cases hrun

/-- After a choice the encoder's new `prev` is at its hash slot: a run leaves `prev`, a hit found it there, a literal was
inserted (rule R136). -/
theorem encoded_prevCached {c : Choice} (hc : chooseChunk s = some c) (hprev : s.cache[pixelHash s.prev] = s.prev) :
    (s.encoded c).cache[pixelHash (s.encoded c).prev] = (s.encoded c).prev := by
  obtain ⟨p, -, ⟨rfl, e, -, rfl⟩ | ⟨-, hhit, rfl⟩ | ⟨-, -, rfl⟩⟩ := chooseChunk_eq_some_iff.mp hc
  · simpa using hprev
  · simpa using hhit
  · simp [cacheInsert]

/-- A chunk emitted (rules R159 to R161): at most 5 bytes for at least one pixel. -/
theorem encChunk_inv (h : s.Inv) (he : s.inChunks .enc) (hpos : s.pos < s.inLen) {c : Choice}
    (hc : chooseChunk s = some c) : ((s.encoded c).pushBytes (encode s.cfg.magic c.chunk)).Inv := by
  obtain ⟨-, -, -, hlen, hcov, -, hend⟩ := chooseChunk_shape hc
  obtain ⟨hlow, hhigh⟩ := h.encodedSize he
  refine .of_encoding ?_ (pushBytes_wf (by simpa using h.memory) _) ?_ ?_ ?_ (encoded_prevCached hc (h.prevCached he)) ?_
    (pushBytes_isSome (by simpa using h.bytesThere he) _) ?_
  · exact (State.inChunks_congr (by simp) (by simp) (by simp) .enc).mpr he
  · simpa using hend hpos
  · simpa using h.tags he.1 ⟨.enc, he.2.2, rfl⟩
  · simpa using h.sized he
  · simp only [State.pushBytes_outLen, State.pushBytes_pos, State.encoded_outLen, State.encoded_pos, encode_length]
    omega
  · simpa using h.err_of_busy he.1

/-- A chunk executed (rules R189, R192): at most 62 pixels for at least one byte, and `pos` still within the body. -/
theorem decChunk_inv (h : s.Inv) (hd : s.inBody) {i : Instr} {bs rest : List Byte} (hi : decodeChunk bs = .ok (i, rest))
    (hpos : s.pos + chunkLen bs.headI ≤ s.bodyLen) (hx : exec i s = .next t) : t.Inv := by
  obtain ⟨hlen, -, hmax⟩ := decodeChunk_length hi
  have hbytes := chunkLen_bounds bs.headI
  rcases exec_chunk_next (decodeChunk_space hi) hx with ⟨-, -, rfl⟩ | ⟨-, u, ps, hu, hps, -, p, rfl⟩
  · exact raised_inv h.memory _
  · have hsize := h.decodedSize hd
    obtain ⟨slots, rfl⟩ : ∃ slots, u = { s with cache := slots } := by
      rcases hu with rfl | ⟨q, rfl⟩
      · exact ⟨_, rfl⟩
      · exact ⟨_, rfl⟩
    refine .of_body hd (pushPixels_wf h.memory _) h.headerThere ?_ ?_ (pushPixels_isSome (h.pixelsThere hd) ps)
      (h.err_of_busy hd.busy)
    · change s.pos + i.byteLength ≤ s.bodyLen
      omega
    · change s.outLen + ps.length ≤ 62 * (s.pos + i.byteLength)
      change s.outLen ≤ 62 * s.pos at hsize
      omega

/-- What the host does keeps STATUS, ERR and OUT_LEN, where no command starts (rule R25). -/
theorem State.Inv.of_host (h : s.Inv) (hb : t.status ≠ .busy) (hst : t.status = s.status) (herr : t.err = s.err)
    (hout : t.outLen = s.outLen) (hmem : t.mem.wf) : t.Inv := by
  refine .of_not_busy hb hmem ?_ ?_
  · rw [hst, herr]; exact h.errCleared
  · rw [hst, herr, hout]; exact h.errHeld

/-- Every kind of step keeps the invariant. -/
theorem StepTo.inv (h : s.Inv) (hstep : StepTo s t) : t.Inv := by
  obtain ⟨hpixIn, hbyteOut, hbyteIn, hpixOut⟩ := h.memory
  cases hstep with
  | reset => exact hardwareReset_inv s
  | waits => exact h
  | hostWrites rest hb w hh c cs n px bs hpx hbs =>
    exact h.of_host hb rfl rfl rfl ⟨hpx hpixIn, hbyteOut, hbs hbyteIn, hpixOut⟩
  | nop rest hb => exact h.of_host hb rfl rfl rfl h.memory
  | starts rest c hb htags => exact started_inv h.memory htags
  | sizeMismatch => exact raised_inv h.memory _
  | encEntry hb hp hc hsized => exact encEntry_inv h hb hc hsized
  | bodyEntry hb hp hc => exact bodyEntry_inv h.memory hb (h.err_of_busy hb) (.inr hc)
  | encHdr hb => exact ended_inv rfl (pushBytes_wf h.memory _) (h.err_of_busy hb)
  | formatError => exact raised_inv h.memory _
  | decEntry hb hp hc hlen => exact bodyEntry_inv h.memory hb (h.err_of_busy hb) (.inl ⟨hc, hlen⟩)
  | decHdr hb => exact ended_inv rfl h.memory (h.err_of_busy hb)
  | encChunk he hpos c hc => exact encChunk_inv h he hpos hc
  | decChunk t hd i bs rest hi hpos hbs hx => exact decChunk_inv h hd hi hpos hx
  | decodeError => exact raised_inv h.memory _
  | ends hb => exact ended_inv rfl h.memory (h.err_of_busy hb)

/-- Settles O43, by the kinds of step: each leaves an ended engine, one before its entry action, an encoder or a body decoder,
and of each the invariant asks what that step has just made so. -/
theorem everyStepKeepsTheInvariant : Obligations.EveryStepKeepsTheInvariant :=
  fun _ _ h hstep => (step_next hstep).inv h

/-- Settles O42: hardware reset leaves exactly the reset state where no move is to come and the parameters are the standard ones. -/
theorem resetMeetsTheInvariant : Obligations.ResetMeetsTheInvariant := hardwareReset_inv State.reset

end Sys2Proof.Machine
end
section
/-! Proof of O58: a command's run is simulated by the same command in an engine with another past. -/

namespace Sys2Proof.Machine

variable {s t d : State} {c : Command}

/-! ### The same state with another past -/

/-- `s` with the output buffers and the host's later moves of `d`. -/
def State.withOutputs (s d : State) : State :=
  { s with hostMoves := d.hostMoves, mem := { s.mem with byteOut := d.mem.byteOut, pixOut := d.mem.pixOut } }

/-- `s` with all that an earlier command can have left behind in `d`: `prev`, `pos`, the cache, the output buffers, the host's
later moves. -/
def State.withPast (s d : State) : State :=
  { s.withOutputs d with prev := d.prev, pos := d.pos, cache := d.cache }

@[simp] theorem State.withPast_running : (s.withPast d).running = s.running := rfl
@[simp] theorem State.withPast_inLen : (s.withPast d).inLen = s.inLen := rfl
@[simp] theorem State.withPast_cfg : (s.withPast d).cfg = s.cfg := rfl
@[simp] theorem State.withPast_byteIn : (s.withPast d).mem.byteIn = s.mem.byteIn := rfl
@[simp] theorem State.withPast_sizeMatches : (s.withPast d).sizeMatches = s.sizeMatches := rfl
@[simp] theorem State.withPast_headerBytes : (s.withPast d).headerBytes = s.headerBytes := rfl

@[simp] theorem State.withOutputs_pos : (s.withOutputs d).pos = s.pos := rfl
@[simp] theorem State.withOutputs_running : (s.withOutputs d).running = s.running := rfl
@[simp] theorem State.withOutputs_inLen : (s.withOutputs d).inLen = s.inLen := rfl
@[simp] theorem State.withOutputs_cfg : (s.withOutputs d).cfg = s.cfg := rfl
@[simp] theorem State.withOutputs_byteIn : (s.withOutputs d).mem.byteIn = s.mem.byteIn := rfl
@[simp] theorem State.withOutputs_bodyBase : (s.withOutputs d).bodyBase = s.bodyBase := rfl
@[simp] theorem State.withOutputs_bodyLen : (s.withOutputs d).bodyLen = s.bodyLen := rfl

/-- The encoder chooses by the pixels, `prev` and the cache (rule R159). -/
@[simp] theorem chooseChunk_withOutputs : chooseChunk (s.withOutputs d) = chooseChunk s := rfl

@[simp] theorem State.withOutputs_encoded (ch : Choice) : (s.withOutputs d).encoded ch = (s.encoded ch).withOutputs d := by
  cases h : ch.inserts <;> simp [State.encoded, h] <;> rfl

/-- The running command `c` cannot tell `s` from `s.withPast d`: the working state agrees once it is initialised (rule R261), and
the command's own output agrees below OUT_LEN. -/
structure State.AllowsPast (s : State) (c : Command) (d : State) : Prop where
  runs : s.running = some c
  noReset : s.resetAsserted = false
  working : s.phase = .chunks → d.prev = s.prev ∧ d.pos = s.pos ∧ d.cache = s.cache
  bytes : isEncoding c = true → ∀ j, j < s.outLen → Buffer.read d.mem.byteOut j = Buffer.read s.mem.byteOut j
  pixels : isEncoding c = false → ∀ j, j < s.outLen → Buffer.read d.mem.pixOut j = Buffer.read s.mem.pixOut j

/-- In the chunk steps only the output buffers can differ. -/
theorem State.AllowsPast.withPast_of_chunks (h : s.AllowsPast c d) (hp : s.phase = .chunks) :
    s.withPast d = s.withOutputs d := by
  obtain ⟨hprev, hpos, hcache⟩ := h.working hp
  simp only [State.withPast, hprev, hpos, hcache]
  rfl

/-- Before anything is appended every past will do. -/
theorem State.AllowsPast.of_empty (hc : s.running = some c) (hr : s.resetAsserted = false) (hout : s.outLen = 0)
    (hwork : s.phase = .chunks → d.prev = s.prev ∧ d.pos = s.pos ∧ d.cache = s.cache) : s.AllowsPast c d where
  runs := hc
  noReset := hr
  working := hwork
  bytes _ j hj := absurd hj (by omega)
  pixels _ j hj := absurd hj (by omega)

/-- A change of the working state alone, made in the chunk steps of both engines. -/
theorem State.AllowsPast.of_working (h : s.AllowsPast c d) (hc : t.running = s.running)
    (hr : t.resetAsserted = s.resetAsserted) (hout : t.outLen = s.outLen) (hmem : t.mem = s.mem) :
    t.AllowsPast c (t.withOutputs d) where
  runs := hc.trans h.runs
  noReset := hr.trans h.noReset
  working _ := ⟨rfl, rfl, rfl⟩
  bytes := by rw [hout, hmem]; exact h.bytes
  pixels := by rw [hout, hmem]; exact h.pixels

/-! ### Outcomes that follow one another -/

/-- Whatever next state `o` leaves, `o'` leaves the same with another past that `c` allows. -/
def Follows (c : Command) (o o' : Result) : Prop :=
  ∀ t, o = .next t → ∃ d, o' = .next (t.withPast d) ∧ t.AllowsPast c d

theorem Follows.of_refused {r : Refusal} {o' : Result} : Follows c (.refused r) o' := fun _ h => by cases h

theorem Follows.of_next (h : s.AllowsPast c d) : Follows c (.next s) (.next (s.withPast d)) := by
  intro t ht
  cases ht
  exact ⟨d, rfl, h⟩

theorem Follows.raise (h : s.AllowsPast c d) (x : Exc) : Follows c (raise x s) (raise x (s.withPast d)) :=
  .of_next (s := s.raised x) (.of_empty h.runs h.noReset rfl h.working)

theorem Follows.initialised (h : s.AllowsPast c d) :
    Follows c (.next s.initialised) (.next (s.withPast d).initialised) :=
  .of_next (s := s.initialised) (d := d.initialised) (.of_empty h.runs h.noReset rfl fun _ => ⟨rfl, rfl, rfl⟩)

theorem State.AllowsPast.finished (h : s.AllowsPast c d) : s.finished.AllowsPast c d :=
  ⟨h.runs, h.noReset, h.working, h.bytes, h.pixels⟩

/-- Two buffers that agree below `n` agree below `n + xs.length` after the same elements are appended to both. -/
theorem Buffer.read_appended_congr {α : Type} {b b' : Buffer α} {n : Nat}
    (h : ∀ j, j < n → Buffer.read b' j = Buffer.read b j) (xs : List α) (j : Nat) (hj : j < n + xs.length) :
    Buffer.read (Buffer.writeSeq b' n xs) j = Buffer.read (Buffer.writeSeq b n xs) j := by
  by_cases hjn : j < n
  · rw [Buffer.read_writeSeq_outside _ _ _ _ (.inl hjn), Buffer.read_writeSeq_outside _ _ _ _ (.inl hjn), h j hjn]
  · obtain ⟨k, rfl⟩ : ∃ k, j = n + k := ⟨j - n, by omega⟩
    rw [Buffer.read_writeSeq_inside _ _ _ _ (by omega), Buffer.read_writeSeq_inside _ _ _ _ (by omega)]

theorem Follows.appendPixels (h : s.AllowsPast c d) (hc : isEncoding c = false) (ps : List Pixel) :
    Follows c (appendPixels ps s) (appendPixels ps (s.withPast d)) := by
  intro t ht
  obtain ⟨hf, rfl⟩ := appendPixels_next_iff.mp ht
  refine ⟨{ d with mem := { d.mem with pixOut := Buffer.writeSeq d.mem.pixOut s.outLen ps } },
    appendPixels_next_iff.mpr ⟨hf, rfl⟩, h.runs, h.noReset, h.working, ?_, fun _ => ?_⟩
  · simp [hc]
  · exact Buffer.read_appended_congr (h.pixels hc) ps

theorem Follows.appendBytes (h : s.AllowsPast c d) (hc : isEncoding c = true) (bs : List Byte) :
    Follows c (appendBytes bs s) (appendBytes bs (s.withPast d)) := by
  intro t ht
  obtain ⟨hf, rfl⟩ := appendBytes_next_iff.mp ht
  refine ⟨{ d with mem := { d.mem with byteOut := Buffer.writeSeq d.mem.byteOut s.outLen bs } },
    appendBytes_next_iff.mpr ⟨hf, rfl⟩, h.runs, h.noReset, h.working, fun _ => ?_, ?_⟩
  · exact Buffer.read_appended_congr (h.bytes hc) bs
  · simp [hc]

/-! ### The entry actions -/

/-- A header read by DEC or DEC_HDR fills the same registers in both engines. -/
theorem Follows.afterHeader (h : s.AllowsPast c d) (hc : c = .dec ∨ c = .decHdr) (w hh : Word) (ch cs : Byte) :
    Follows c (.next (afterHeader (s.headerWritten w hh ch cs)))
      (.next (afterHeader ((s.withPast d).headerWritten w hh ch cs))) := by
  have hw : (s.headerWritten w hh ch cs).AllowsPast c d := ⟨h.runs, h.noReset, h.working, h.bytes, h.pixels⟩
  have hr : (s.headerWritten w hh ch cs).running = some c := h.runs
  have hr' : ((s.withPast d).headerWritten w hh ch cs).running = some c := h.runs
  rcases hc with rfl | rfl
  · simp only [Machine.afterHeader, hr, hr']
    exact .initialised (d := d) hw
  · simp only [Machine.afterHeader, hr, hr']
    exact .of_next (d := d) hw.finished

theorem Follows.fetchHeader (h : s.AllowsPast c d) (hc : c = .dec ∨ c = .decHdr) :
    Follows c (perform (fetchHeader s)) (perform (fetchHeader (s.withPast d))) := by
  simp only [Machine.fetchHeader, State.withPast_inLen, State.withPast_byteIn, State.withPast_cfg]
  by_cases hlen : s.inLen < Config.headerBytes
  · simp only [hlen, if_true]
    exact .raise h _
  · simp only [hlen, if_false]
    cases hbs : Buffer.readSeq s.mem.byteIn 0 Config.headerBytes with
    | none => exact .of_refused
    | some bs =>
      simp only
      cases hd : decodeHeader s.cfg.magic bs with
      | error e => exact .raise h _
      | ok r =>
        obtain ⟨i, rest⟩ := r
        obtain ⟨w, hh, ch, cs, rfl, hch, hcs⟩ := decodeHeader_ok hd
        simp only [perform_run, execHeader_legal w hh hch hcs]
        exact .afterHeader h hc w hh ch cs

/-- The entry action reads the registers and the input, none of it part of the past (rules R211 to R215). -/
theorem Follows.entryAction (h : s.AllowsPast c d) :
    Follows c (perform (entryAction s)) (perform (entryAction (s.withPast d))) := by
  simp only [Machine.entryAction, State.withPast_running, h.runs]
  cases c with
  | enc =>
    simp only [perform_outcome, encEntry, State.withPast_sizeMatches, State.withPast_headerBytes]
    have hinit : s.initialised.AllowsPast .enc d.initialised :=
      .of_empty h.runs h.noReset rfl fun _ => ⟨rfl, rfl, rfl⟩
    by_cases hsize : s.sizeMatches = true
    · simp only [hsize, if_true]
      exact .appendBytes hinit rfl s.headerBytes
    · simp only [hsize]
      exact .raise h _
  | dec => exact .fetchHeader h (.inl rfl)
  | decBody => exact .initialised h
  | encHdr => exact .appendBytes h.finished rfl s.headerBytes
  | decHdr => exact .fetchHeader h (.inr rfl)

/-! ### The chunk steps -/

section
variable (h : s.AllowsPast c (s.withOutputs d))
include h

/-- An Append after a change of the working state. -/
theorem Follows.append_of_working (hc : isEncoding c = false) {u : State} (ps : List Pixel) (hrun : u.running = s.running)
    (hres : u.resetAsserted = s.resetAsserted) (hout : u.outLen = s.outLen) (hmem : u.mem = s.mem) :
    Follows c (Machine.appendPixels ps u) (Machine.appendPixels ps (u.withOutputs d)) :=
  .appendPixels (h.of_working hrun hres hout hmem) hc ps

theorem Follows.ifAvailable {n : Nat} {o o' : Result} (ho : Follows c o o') :
    Follows c (ifAvailable n s o) (ifAvailable n (s.withOutputs d) o') := by
  by_cases hn : s.pos + n ≤ s.bodyLen
  · rwa [ifAvailable_of_le hn, ifAvailable_of_le (by simpa using hn)]
  · rw [ifAvailable_of_lt (by omega), ifAvailable_of_lt (by simpa using hn)]
    exact .raise h _

/-- The meaning of a chunk reads `prev`, the cache and `pos`, never an output buffer (rules R182 to R187). -/
theorem Follows.exec_chunk (hc : isEncoding c = false) {i : Instr} (hi : i.space = .body) :
    Follows c (exec i s) (exec i (s.withOutputs d)) := by
  have emit (px : Pixel) (n : Nat) : Follows c (emitInserted px n s) (emitInserted px n (s.withOutputs d)) :=
    .append_of_working h hc (u := (s.inserted px).stepped px n) [px] rfl rfl rfl rfl
  cases i with
  | index slot =>
    exact .append_of_working h hc (u := s.stepped (cacheGet s.cache slot) 1) _ rfl rfl rfl rfl
  | diff dr dg db => exact emit _ 1
  | luma dg drDg dbDg => exact .ifAvailable h (emit _ 2)
  | rgb r g b => exact .ifAvailable h (emit _ 4)
  | rgba r g b a => exact .ifAvailable h (emit _ 5)
  | run count => exact .append_of_working h hc (u := s.stepped s.prev 1) _ rfl rfl rfl rfl
  | header w hh ch cs => cases hi
  | nop => cases hi
  | enc => cases hi
  | dec => cases hi
  | decBody => cases hi
  | encHdr => cases hi
  | decHdr => cases hi

/-- Both engines fetch the same chunk, for they read the same bytes at the same `pos` (rules R180, R181). -/
theorem Follows.fetchChunk (hc : isEncoding c = false) :
    Follows c (perform (fetchChunk s)) (perform (fetchChunk (s.withOutputs d))) := by
  simp only [Machine.fetchChunk, State.withOutputs_pos, State.withOutputs_bodyLen, State.withOutputs_bodyBase,
    State.withOutputs_byteIn]
  by_cases hpos : s.pos < s.bodyLen
  · simp only [hpos, if_true]
    cases hb0 : Buffer.read s.mem.byteIn (s.bodyBase + s.pos) with
    | none => exact .of_refused
    | some b0 =>
      by_cases hlen : s.pos + chunkLen b0 ≤ s.bodyLen
      · simp only [hlen, if_true]
        cases hbs : Buffer.readSeq s.mem.byteIn (s.bodyBase + s.pos) (chunkLen b0) with
        | none => exact .of_refused
        | some bs =>
          simp only
          cases hi : decodeChunk bs with
          | error e => exact .raise h _
          | ok r => exact .exec_chunk h hc (decodeChunk_space hi)
      · simp only [hlen, if_false]
        exact .raise h _
  · simp only [hpos, if_false]
    exact .of_next h.finished

/-- Both encoders choose the same chunk (rule R159). -/
theorem Follows.encChunks (hc : isEncoding c = true) :
    Follows c (encChunks s) (encChunks (s.withOutputs d)) := by
  simp only [Machine.encChunks, encoderStep, State.withOutputs_pos, State.withOutputs_inLen, chooseChunk_withOutputs,
    State.withOutputs_encoded, State.withOutputs_cfg]
  by_cases hpos : s.pos < s.inLen
  · simp only [hpos, if_true]
    cases chooseChunk s with
    | none => exact .of_refused
    | some ch =>
      have hch : (s.encoded ch).AllowsPast c ((s.encoded ch).withOutputs d) :=
        h.of_working (by simp) (by simp) (by simp) (by simp)
      exact .appendBytes hch hc _
  · simp only [hpos, if_false]
    exact .of_next h.finished

/-- A chunk step reads the working state, the input and the registers, never an output buffer. -/
theorem Follows.chunkAction : Follows c (perform (chunkAction s)) (perform (chunkAction (s.withOutputs d))) := by
  simp only [Machine.chunkAction, State.withOutputs_running, h.runs]
  cases c with
  | enc => exact .encChunks h rfl
  | dec => exact .fetchChunk h rfl
  | decBody => exact .fetchChunk h rfl
  | encHdr => exact .of_next h.finished
  | decHdr => exact .of_next h.finished

end

/-! ### Steps and runs -/

/-- One step of a BUSY engine (rule R217). -/
theorem Follows.step (h : s.AllowsPast c d) (hb : s.status = .busy) : Follows c (step s) (step (s.withPast d)) := by
  cases hp : s.phase with
  | entry =>
    rw [step_of_entry h.noReset hb hp, step_of_entry (s := s.withPast d) h.noReset hb hp]
    exact .entryAction h
  | chunks =>
    have hpast := h.withPast_of_chunks hp
    rw [step_of_chunks h.noReset hb hp, step_of_chunks (s := s.withPast d) h.noReset hb hp, hpast]
    exact .chunkAction (h.of_working rfl rfl rfl rfl)

/-- A run of a command, however long. -/
theorem Follows.runCommand (k : Nat) {s d : State} (h : s.AllowsPast c d) :
    Follows c (runCommand k s) (runCommand k (s.withPast d)) := by
  induction k generalizing s d with
  | zero => exact .of_next h
  | succ k ih =>
    by_cases hb : s.status = .busy
    · intro t ht
      simp only [Machine.runCommand, hb, if_true] at ht
      cases hs : Machine.step s with
      | next u =>
        simp only [hs] at ht
        obtain ⟨e, hu, he⟩ := Follows.step h hb u hs
        rw [runCommand_succ (s := s.withPast d) hb hu]
        exact ih he t ht
      | fault r => simp [hs] at ht
      | refused r => simp [hs] at ht
    · rw [runCommand_of_not_busy hb, runCommand_of_not_busy (s := s.withPast d) hb]
      exact .of_next h

/-! ### The observation -/

/-- What the host may observe of an ended run shows nothing of the past (rule R217). -/
theorem observe_withPast (h : s.AllowsPast c d) : observe c (s.withPast d) = observe c s := by
  have hbytes : (if isEncoding c then (s.withPast d).byteOutput else none) = if isEncoding c then s.byteOutput else none := by
    split
    · rename_i hc
      have hread : Buffer.readSeq d.mem.byteOut 0 s.outLen = Buffer.readSeq s.mem.byteOut 0 s.outLen :=
        Buffer.readSeq_congr 0 s.outLen fun j _ hj => h.bytes hc j (by omega)
      exact congrArg (fun o => if s.status = .done then o else none) hread
    · rfl
  have hpixels : (if isEncoding c then none else (s.withPast d).pixelOutput) = if isEncoding c then none else s.pixelOutput := by
    split
    · rfl
    · rename_i hc
      have hread : Buffer.readSeq d.mem.pixOut 0 s.outLen = Buffer.readSeq s.mem.pixOut 0 s.outLen :=
        Buffer.readSeq_congr 0 s.outLen fun j _ hj => h.pixels (by simpa using hc) j (by omega)
      exact congrArg (fun o => if s.status = .done then o else none) hread
  simp only [observe, hbytes, hpixels]
  rfl

/-- Engines that agree on the inputs of a command stand, once it is started, in the same state but for the past. -/
theorem started_eq_withPast {s' : State} (hr : s'.resetAsserted = s.resetAsserted) (hcfg : s'.cfg = s.cfg)
    (hregs : s'.headerRegs = s.headerRegs) (hlen : s'.inLen = s.inLen) (hpix : s'.mem.pixIn = s.mem.pixIn)
    (hbyte : s'.mem.byteIn = s.mem.byteIn) (c : Command) : s'.started c = (s.started c).withPast s' := by
  obtain ⟨hw, hh, hch, hcs⟩ := HeaderRegs.mk.inj hregs
  simp only [State.started, State.withPast, State.withOutputs, hr, hcfg, hw, hh, hch, hcs, hlen, ← hpix, ← hbyte]

/-- Where a command starts, and in what state (rule R210). -/
theorem exec_startOf_next {u : State} (h : exec (startOf c) s = .next u) :
    (isEncoding c = true → s.tagsLegal = true) ∧ u = s.started c := by
  rw [exec_startOf] at h
  split at h
  · cases h
  · split at h
    · cases h
    · rename_i htags
      cases h
      exact ⟨fun henc => by simpa [henc] using htags, rfl⟩

/-- Settles O58: once started the two engines differ in the past alone, which no step of a run reads and no observation shows. -/
theorem commandsArePureFunctions : Obligations.CommandsArePureFunctions := by
  rintro c k s t s' hr hr' hb' hcfg hregs hlen hpix hbyte ⟨u, hstart, hrun, hend⟩
  obtain ⟨htags, rfl⟩ := exec_startOf_next hstart
  have htags' : isEncoding c = true → s'.tagsLegal = true := by
    obtain ⟨-, -, hch, hcs⟩ := HeaderRegs.mk.inj hregs
    simpa only [State.tagsLegal, hch, hcs] using htags
  have hpast : (s.started c).AllowsPast c s' := .of_empty (by simp) hr rfl (by simp)
  obtain ⟨d, hrun', hd⟩ := Follows.runCommand k hpast t hrun
  rw [← started_eq_withPast (hr'.trans hr.symm) hcfg hregs hlen hpix hbyte c] at hrun'
  exact ⟨t.withPast d, ⟨s'.started c, exec_startOf_legal hb' htags', hrun', hend⟩, observe_withPast hd⟩

end Sys2Proof.Machine
end
section
/-! Proofs of O44 and O45: how far a chunk step advances, and where STATUS can go. -/

namespace Sys2Proof.Machine

variable {s t : State}

/-! ### The chunk steps -/

/-- The four lengths of a chunk (rule R91). -/
theorem chunkLen_cases (b : Byte) : chunkLen b = 1 ∨ chunkLen b = 2 ∨ chunkLen b = 4 ∨ chunkLen b = 5 := by
  unfold chunkLen
  split_ifs <;> simp

/-- A step of an encoder that stays BUSY emits the chunk chosen (rule R159). -/
theorem step_encChunk_next (hr : s.resetAsserted = false) (he : s.inChunks .enc) (h : step s = .next t)
    (hb : t.status = .busy) :
    ∃ c, chooseChunk s = some c ∧ t = (s.encoded c).pushBytes (encode s.cfg.magic c.chunk) := by
  rw [step_of_encChunks hr he, encChunks] at h
  split at h
  · rw [encoderStep] at h
    split at h
    · cases h
    · rename_i c hc
      exact ⟨c, hc, (appendBytes_next_iff.mp h).2⟩
  · cases h
    cases hb

/-- A step of a body decoder runs a decoded chunk, raises DecodeError or ends its command (rules R180, R181). -/
theorem StepTo.of_inBody (hr : s.resetAsserted = false) (hd : s.inBody) (h : StepTo s t) :
    (∃ i bs rest, decodeChunk bs = .ok (i, rest) ∧ exec i s = .next t) ∨ t = s.raised .decodeError ∨ t = s.finished := by
  have hentry : s.phase ≠ .entry := by simp [hd.chunks]
  cases h with
  | reset hres => simp [hr] at hres
  | waits hb | hostWrites _ hb | nop _ hb | starts _ _ hb => exact absurd hd.busy hb
  | sizeMismatch _ hp | encEntry _ hp | bodyEntry _ hp | encHdr _ hp | formatError _ hp | decEntry _ hp | decHdr _ hp =>
    exact absurd hp hentry
  | encChunk he => exact absurd hd (State.not_inBody_of_enc he)
  | decChunk _ _ i bs rest hi _ _ hx => exact .inl ⟨i, bs, rest, hi, hx⟩
  | decodeError => exact .inr (.inl rfl)
  | ends => exact .inr (.inr rfl)

/-- What a chunk run in its body leaves: an exception, or STATUS as it was and `pos` past the chunk's bytes. -/
theorem exec_chunk_status_pos {i : Instr} (hi : i.space = .body) (h : exec i s = .next t) :
    t.status = .error ∨ (t.status = s.status ∧ t.pos = s.pos + i.byteLength) := by
  rcases exec_chunk_next hi h with ⟨-, -, rfl⟩ | ⟨-, u, ps, rfl | ⟨q, rfl⟩, -, -, p, rfl⟩
  · exact .inl rfl
  · exact .inr ⟨rfl, rfl⟩
  · exact .inr ⟨rfl, rfl⟩

/-- A step of a body decoder that stays BUSY leaves `pos` past the bytes of one chunk (rules R182 to R188). -/
theorem step_decChunk_pos (hr : s.resetAsserted = false) (hd : s.inBody) (h : step s = .next t)
    (hb : t.status = .busy) : ∃ b0, t.pos = s.pos + chunkLen b0 := by
  rcases (step_next h).of_inBody hr hd with ⟨i, bs, rest, hi, hx⟩ | rfl | rfl
  · rcases exec_chunk_status_pos (decodeChunk_space hi) hx with herr | ⟨-, hpos⟩
    · simp [hb] at herr
    · exact ⟨bs.headI, (decodeChunk_length hi).1 ▸ hpos⟩
  · cases hb
  · cases hb

/-- Settles O44: the encoder advances by the pixels its choice covers, the decoder by the length its first byte gives. -/
theorem chunkStepsAdvance : Obligations.ChunkStepsAdvance := by
  intro s t hr hstep hb
  refine ⟨fun he => ?_, fun hd => ?_⟩
  · obtain ⟨c, hc, rfl⟩ := step_encChunk_next hr he hstep hb
    obtain ⟨-, -, -, -, hmin, hmax, -⟩ := chooseChunk_shape hc
    simp only [State.pushBytes_pos, State.encoded_pos]
    omega
  · obtain ⟨b0, hpos⟩ := step_decChunk_pos hr hd hstep hb
    have hlen := chunkLen_cases b0
    omega

/-! ### STATUS (rule R27) -/

/-- Settles O45: a start makes a waiting engine BUSY, an exception or an end stops a BUSY one, every other kind of step keeps STATUS. -/
theorem statusMovesAsRuled : Obligations.StatusMovesAsRuled := by
  intro s t hr hstep
  cases step_next hstep with
  | reset hres => simp [hr] at hres
  | waits | hostWrites | nop | encEntry | bodyEntry | decEntry => exact .inl rfl
  | encChunk => exact .inl (by simp)
  | starts _ _ hb => exact .inr (.inl ⟨hb, rfl⟩)
  | sizeMismatch hb | formatError hb => exact .inr (.inr ⟨hb, .inr rfl⟩)
  | decodeError hd => exact .inr (.inr ⟨hd.busy, .inr rfl⟩)
  | encHdr hb | decHdr hb | ends hb => exact .inr (.inr ⟨hb, .inl rfl⟩)
  | decChunk _ hd _ _ _ hi _ _ hx =>
    rcases exec_chunk_status_pos (decodeChunk_space hi) hx with herr | ⟨hkeep, -⟩
    · exact .inr (.inr ⟨hd.busy, .inr herr⟩)
    · exact .inl hkeep

end Sys2Proof.Machine
end
section
/-! Proofs of O4, O1, O5, O6, O7 and O9: what the host's moves and commands do, and the values of reset. -/

namespace Sys2Proof.Machine

variable {s : State} {rest : List HostMove}

/-! ### A step that takes the host's next move (rules R25, R217) -/

section
variable (hr : s.resetAsserted = false) (hb : s.status ≠ .busy)
include hr hb

theorem step_of_move {m : HostMove} (hm : s.hostMoves = m :: rest) :
    step s = perform (hostMove m { s with hostMoves := rest }) := by
  rw [step_of_not_busy hr hb, hostTurn, hm]

/-- A CMD write runs the command its code decodes to (rule R26). -/
theorem step_of_writeCmd {code : BitVec 3} {i : Instr} (hm : s.hostMoves = .writeCmd code :: rest)
    (hi : decodeCommand code = .ok i) : step s = exec i { s with hostMoves := rest, cmd := code } := by
  rw [step_of_move hr hb hm, hostMove, if_neg hb]
  simp only [hi, perform_run]

theorem step_of_writeCmd_reserved {code : BitVec 3} {e : Reject} (hm : s.hostMoves = .writeCmd code :: rest)
    (he : decodeCommand code = .error e) : step s = .refused .reservedCommand := by
  rw [step_of_move hr hb hm, hostMove, if_neg hb]
  simp only [he, perform_outcome]

end

/-- Settles O9: `step_of_writeCmd` says it of any state. -/
theorem stepRunsTheCommandWritten : Obligations.StepRunsTheCommandWritten :=
  fun _ _ _ _ hr hb hm hi => step_of_writeCmd hr hb hm hi

/-- What a sequence write leaves in a buffer: the elements in their range, and every other element as it was (rule R14). -/
theorem Buffer.writeSeq_spec {α : Type} (b : Buffer α) (i : Nat) (xs : List α) :
    Buffer.readSeq (Buffer.writeSeq b i xs) i xs.length = some xs ∧
      ∀ j, j < i ∨ i + xs.length ≤ j → Buffer.read (Buffer.writeSeq b i xs) j = Buffer.read b j :=
  ⟨Buffer.readSeq_writeSeq b i xs, fun j hj => Buffer.read_writeSeq_outside b i j xs hj⟩

/-- Settles O4: a register write is its field's update; a placing of elements is a sequence write to its buffer. -/
theorem hostWritesLandInRegistersAndBuffers : Obligations.HostWritesLandInRegistersAndBuffers := by
  intro s m rest hr hb hm
  have hstep := step_of_move hr hb hm
  refine ⟨?width, ?height, ?channels, ?colorspace, ?inLen, ?pixels, ?bytes⟩
  case width | height | channels | colorspace | inLen =>
    rintro v rfl
    simpa only [hostMove, if_neg hb, perform_outcome] using hstep
  case pixels =>
    rintro i ps rfl
    obtain ⟨hread, hkeep⟩ := Buffer.writeSeq_spec s.mem.pixIn i ps
    exact ⟨_, by simpa only [hostMove, if_neg hb, perform_outcome] using hstep, hread, hkeep, rfl⟩
  case bytes =>
    rintro i bs rfl
    obtain ⟨hread, hkeep⟩ := Buffer.writeSeq_spec s.mem.byteIn i bs
    exact ⟨_, by simpa only [hostMove, if_neg hb, perform_outcome] using hstep, hread, hkeep, rfl⟩

/-! ### Refusals -/

/-- The instructions of the command space are NOP and the five that start a command (rule R26). -/
theorem command_eq_nop_or_startOf {i : Instr} (hi : i.space = .command) : i = .nop ∨ ∃ c, i = startOf c := by
  cases i with
  | nop => exact .inl rfl
  | enc => exact .inr ⟨.enc, rfl⟩
  | dec => exact .inr ⟨.dec, rfl⟩
  | decBody => exact .inr ⟨.decBody, rfl⟩
  | encHdr => exact .inr ⟨.encHdr, rfl⟩
  | decHdr => exact .inr ⟨.decHdr, rfl⟩
  | index _ | diff _ _ _ | luma _ _ _ | rgb _ _ _ | rgba _ _ _ _ | run _ | header _ _ _ _ => cases hi

theorem exec_nop : exec .nop s = if s.status = .busy then .refused .hostWriteWhileBusy else .next s := rfl

/-- Settles O5: the guard on STATUS comes before anything else, in a host move and in every command. -/
theorem hostIsRefusedWhileBusy : Obligations.HostIsRefusedWhileBusy := by
  intro s hb
  refine ⟨fun _ => if_pos hb, fun i hi => ?_⟩
  rcases command_eq_nop_or_startOf hi with rfl | ⟨c, rfl⟩
  · rw [exec_nop, if_pos hb]
  · rw [exec_startOf, if_pos hb]

/-- The decoder of CMD codes rejects exactly 6 and 7 (rule R26). -/
theorem decodeCommand_isOk_iff (code : BitVec 3) : (decodeCommand code).isOk = true ↔ code.toNat < 6 := by
  revert code
  decide

/-- No command that is run is itself refused as reserved (U10). -/
theorem exec_command_ne_reserved {i : Instr} (hi : i = .nop ∨ ∃ c, i = startOf c) :
    exec i s ≠ .refused .reservedCommand := by
  rcases hi with rfl | ⟨c, rfl⟩
  · rw [exec_nop]
    split_ifs <;> simp
  · rw [exec_startOf]
    split_ifs <;> simp

/-- Settles O6: a code that decodes runs its command, which is never refused as reserved; the codes that do not decode are 6 and 7. -/
theorem reservedCodesAreRefused : Obligations.ReservedCodesAreRefused := by
  intro s code rest hr hb hm
  have hok := decodeCommand_isOk_iff code
  cases hd : decodeCommand code with
  | error e =>
    have hge : 6 ≤ code.toNat := by simpa [hd, Except.isOk, Except.toBool] using hok
    simp only [step_of_writeCmd_reserved hr hb hm hd, hge]
  | ok i =>
    have hlt : code.toNat < 6 := by simpa [hd, Except.isOk, Except.toBool] using hok
    have hi : i = .nop ∨ ∃ c, i = startOf c := (decodeCommand_ok hd).imp (·.1) fun ⟨c, hc, _⟩ => ⟨c, hc⟩
    rw [step_of_writeCmd hr hb hm hd]
    exact iff_of_false (exec_command_ne_reserved hi) (by omega)

/-- The tag registers are legal at 3 or 4 and 0 or 1 (rules R31, R32). -/
theorem State.tagsLegal_iff :
    s.tagsLegal = true ↔ (s.channels = 3 ∨ s.channels = 4) ∧ (s.colorspace = 0 ∨ s.colorspace = 1) := by
  simp [State.tagsLegal, legalChannels, legalColorspace]

/-- An encoding command is refused with an illegal tag register (U3). -/
theorem exec_startOf_illegal {c : Command} (hb : s.status ≠ .busy) (henc : isEncoding c = true)
    (ht : s.tagsLegal = false) : exec (startOf c) s = .refused .illegalTag := by
  rw [exec_startOf, if_neg hb, if_pos ⟨henc, ht⟩]

/-- Settles O7: the start of an encoding command tests exactly `tagsLegal`. -/
theorem illegalTagsAreRefused : Obligations.IllegalTagsAreRefused := by
  intro s hb
  simp only [← State.tagsLegal_iff]
  refine ⟨fun ht => ?_, fun ht => ?_⟩
  · have ht : s.tagsLegal = false := by simpa using ht
    exact ⟨exec_startOf_illegal (c := .enc) hb rfl ht, exec_startOf_illegal (c := .encHdr) hb rfl ht⟩
  · exact ⟨⟨_, exec_startOf_legal (c := .enc) hb fun _ => ht⟩, _, exec_startOf_legal (c := .encHdr) hb fun _ => ht⟩

/-! ### Reset (rule R37) -/

/-- Settles O1: the cache is the fresh one, and every other value is the one written in `State.reset`. -/
theorem resetStateHoldsSpecValues : Obligations.ResetStateHoldsSpecValues := by
  refine ⟨rfl, rfl, fun k => ?cache, fun r hr => ?regs, rfl, fun j => ⟨rfl, rfl⟩⟩
  case cache => exact freshCache_holds_default k
  case regs =>
    cases r with
    | cmd => exact absurd rfl hr
    | status | err | width | height | channels | colorspace | inLen | outLen => rfl

end Sys2Proof.Machine
end
section
/-! Proofs of O29 and O47: a bounded Append is whole or refused, and what a BUSY engine's step leaves of its inputs. -/

namespace Sys2Proof.Machine

variable {s t : State}

/-! ### Append in a bounded engine (rules R14, R54) -/

theorem State.fits_eq_false_iff {cap : Nat} (hcap : s.cfg.outCap = some cap) (n : Nat) :
    s.fits n = false ↔ cap < s.outLen + n := by
  simp [State.fits, hcap]

theorem appendPixels_refused_iff {ps : List Pixel} :
    appendPixels ps s = .refused .outCapExceeded ↔ s.fits ps.length = false := by
  cases hf : s.fits ps.length <;> simp [appendPixels, hf]

theorem appendBytes_refused_iff {bs : List Byte} :
    appendBytes bs s = .refused .outCapExceeded ↔ s.fits bs.length = false := by
  cases hf : s.fits bs.length <;> simp [appendBytes, hf]

/-- A pixel decoded and inserted is appended by the OUT_LEN and OUT_CAP of the state before it (rules R183 to R186). -/
theorem emitInserted_of_full (hfull : s.fits 1 = false) (px : Pixel) (n : Nat) :
    emitInserted px n s = .refused .outCapExceeded :=
  appendPixels_refused_iff.mpr hfull

/-- The same behind the availability check of the chunks of several bytes (rule R181). -/
theorem ifAvailable_emitInserted_of_full {n : Nat} (havail : n = 1 ∨ s.pos + n ≤ s.bodyLen) (hn : n ≠ 1)
    (hfull : s.fits 1 = false) (px : Pixel) :
    ifAvailable n s (emitInserted px n s) = .refused .outCapExceeded := by
  rw [ifAvailable_of_le (havail.resolve_left hn), emitInserted_of_full hfull]

/-- A chunk that the body holds whole is refused where its pixels have no room. -/
theorem exec_chunk_of_full {i : Instr} (hi : i.space = .body)
    (havail : i.byteLength = 1 ∨ s.pos + i.byteLength ≤ s.bodyLen) (hfull : s.fits (pixelsProduced i) = false) :
    exec i s = .refused .outCapExceeded := by
  cases i with
  | index slot => exact appendPixels_refused_iff.mpr hfull
  | diff dr dg db => exact emitInserted_of_full hfull _ 1
  | luma dg drDg dbDg => exact ifAvailable_emitInserted_of_full (n := 2) havail (by decide) hfull _
  | rgb r g b => exact ifAvailable_emitInserted_of_full (n := 4) havail (by decide) hfull _
  | rgba r g b a => exact ifAvailable_emitInserted_of_full (n := 5) havail (by decide) hfull _
  | run count => exact appendPixels_refused_iff.mpr (by simpa [pixelsProduced] using hfull)
  | header | nop | enc | dec | decBody | encHdr | decHdr => cases hi

/-- An encoder step is refused where its chunk's bytes have no room. -/
theorem encoderStep_of_full {c : Choice} (hc : chooseChunk s = some c) (hfull : s.fits c.chunk.byteLength = false) :
    encoderStep s = .refused .outCapExceeded := by
  simp only [encoderStep, hc]
  exact appendBytes_refused_iff.mpr (by rw [encode_length, State.encoded_fits, hfull])

/-- Settles O29: every Append goes through `fits`, which in a bounded engine fails exactly past OUT_CAP; else it writes the whole sequence. -/
theorem outCapRefusesNeverTruncates : Obligations.OutCapRefusesNeverTruncates := by
  intro s cap hcap
  have hfull : ∀ n, s.fits n = false ↔ cap < s.outLen + n := State.fits_eq_false_iff hcap
  have hroom : ∀ n, s.outLen + n ≤ cap → s.fits n = true := fun n hn => State.fits_of_cap (by simpa [hcap] using hn)
  refine ⟨fun ps => ⟨appendPixels_refused_iff.trans (hfull _), fun hn => ?pixels⟩,
    fun bs => ⟨appendBytes_refused_iff.trans (hfull _), fun hn => ?bytes⟩,
    fun i hi havail hpast => exec_chunk_of_full hi havail ((hfull _).mpr hpast),
    fun c hc hpast => encoderStep_of_full hc ((hfull _).mpr hpast)⟩
  case pixels => exact ⟨_, appendPixels_of_fits (hroom _ hn), rfl, Buffer.readSeq_writeSeq ..⟩
  case bytes => exact ⟨_, appendBytes_of_fits (hroom _ hn), rfl, Buffer.readSeq_writeSeq ..⟩

/-! ### What the engine's operations keep of the registers and the inputs (rules R50, R52) -/

theorem RegsKept.trans {u : State} (h : RegsKept s t) (h' : RegsKept t u) : RegsKept s u where
  cmd := h'.cmd.trans h.cmd
  header := h'.header.trans h.header
  inLen := h'.inLen.trans h.inLen
  pixIn := h'.pixIn.trans h.pixIn
  byteIn := h'.byteIn.trans h.byteIn
  hostMoves := h'.hostMoves.trans h.hostMoves
  resetAsserted := h'.resetAsserted.trans h.resetAsserted
  cfg := h'.cfg.trans h.cfg

theorem RegsKept.initialised (s : State) : RegsKept s s.initialised := ⟨rfl, rfl, rfl, rfl, rfl, rfl, rfl, rfl⟩

theorem RegsKept.finished (s : State) : RegsKept s s.finished := ⟨rfl, rfl, rfl, rfl, rfl, rfl, rfl, rfl⟩

theorem RegsKept.raised (s : State) (x : Exc) : RegsKept s (s.raised x) := ⟨rfl, rfl, rfl, rfl, rfl, rfl, rfl, rfl⟩

theorem RegsKept.inserted (s : State) (p : Pixel) : RegsKept s (s.inserted p) := ⟨rfl, rfl, rfl, rfl, rfl, rfl, rfl, rfl⟩

theorem RegsKept.stepped (s : State) (p : Pixel) (n : Nat) : RegsKept s (s.stepped p n) :=
  ⟨rfl, rfl, rfl, rfl, rfl, rfl, rfl, rfl⟩

theorem RegsKept.pushPixels (s : State) (ps : List Pixel) : RegsKept s (s.pushPixels ps) :=
  ⟨rfl, rfl, rfl, rfl, rfl, rfl, rfl, rfl⟩

theorem RegsKept.pushBytes (s : State) (bs : List Byte) : RegsKept s (s.pushBytes bs) :=
  ⟨rfl, rfl, rfl, rfl, rfl, rfl, rfl, rfl⟩

theorem RegsKept.encoded (s : State) (c : Choice) : RegsKept s (s.encoded c) := by
  rw [State.encoded]
  split
  · exact (RegsKept.inserted s c.pixel).trans (.stepped _ _ _)
  · exact .stepped _ _ _

/-- A chunk, whole or cut short, keeps them. -/
theorem RegsKept.of_exec_chunk {i : Instr} (hi : i.space = .body) (h : exec i s = .next t) : RegsKept s t := by
  rcases exec_chunk_next hi h with ⟨-, -, rfl⟩ | ⟨-, u, ps, rfl | ⟨q, rfl⟩, -, -, p, rfl⟩
  · exact .raised s _
  · exact (RegsKept.stepped u p _).trans (.pushPixels _ ps)
  · exact ((RegsKept.inserted s q).trans (.stepped _ p _)).trans (.pushPixels _ ps)

/-! ### A step of a BUSY engine -/

/-- The next step is the entry action of DEC or DEC_HDR, and it parses a header of these fields (rules R122, R212, R215). -/
def State.ParsesHeader (s : State) (w h : Word) (c cs : Byte) : Prop :=
  s.phase = .entry ∧ (s.running = some .dec ∨ s.running = some .decHdr) ∧ 14 ≤ s.inLen ∧
    ∃ bs, Buffer.readSeq s.mem.byteIn 0 14 = some bs ∧ decodeHeader s.cfg.magic bs = .ok (.header w h c cs, [])

/-- A BUSY engine's step keeps everything in `RegsKept`, or does so after writing the header it has parsed. -/
theorem StepTo.regsKept_or_header (hr : s.resetAsserted = false) (hb : s.status = .busy) (hstep : StepTo s t) :
    RegsKept s t ∨ ∃ w h c cs, s.ParsesHeader w h c cs ∧ RegsKept (s.headerWritten w h c cs) t := by
  cases hstep with
  | reset hres => simp [hr] at hres
  | waits hidle | hostWrites _ hidle | nop _ hidle | starts _ _ hidle => exact absurd hb hidle
  | sizeMismatch | formatError | decodeError => exact .inl (.raised s _)
  | encEntry => exact .inl ((RegsKept.initialised s).trans (.pushBytes _ _))
  | bodyEntry => exact .inl (.initialised s)
  | encHdr => exact .inl ((RegsKept.finished s).trans (.pushBytes _ _))
  | decEntry _ hp hc hn w h c cs bs hbs hd => exact .inr ⟨w, h, c, cs, ⟨hp, .inl hc, hn, bs, hbs, hd⟩, .initialised _⟩
  | decHdr _ hp hc hn w h c cs bs hbs hd => exact .inr ⟨w, h, c, cs, ⟨hp, .inr hc, hn, bs, hbs, hd⟩, .finished _⟩
  | encChunk _ _ c => exact .inl ((RegsKept.encoded s c).trans (.pushBytes _ _))
  | decChunk _ _ _ _ _ hi _ _ hx => exact .inl (.of_exec_chunk (decodeChunk_space hi) hx)
  | ends => exact .inl (.finished s)

/-- Settles O47, by the kinds of step: only `headerWritten` touches a register of the host's, and it leaves the inputs as they are. -/
theorem engineNeverWritesItsInputs : Obligations.EngineNeverWritesItsInputs := by
  intro s t hr hb hstep
  rcases (step_next hstep).regsKept_or_header hr hb with hk | ⟨w, h, c, cs, ⟨hp, hc, hn, bs, hbs, hd⟩, hk⟩
  · exact ⟨hk.pixIn, hk.byteIn, hk.inLen, hk.cmd, hk.cfg, .inl hk.header⟩
  · exact ⟨hk.pixIn, hk.byteIn, hk.inLen, hk.cmd, hk.cfg, .inr ⟨hp, hc, hn, bs, w, h, c, cs, hbs, hd, hk.header⟩⟩

end Sys2Proof.Machine
end
section
/-! Proofs of O13, O14, O11, O12 and O10: the decoder and the encoder undo each other, and what the first byte of a chunk decides. -/

namespace Sys2Proof.Machine

variable {b0 : Byte}

/-! ### The decoder by the number of the first byte (rules R82 to R89) -/

/-- The top two bits of a byte as a quotient. -/
theorem bits_7_6 (b : Byte) : bits b 7 6 = b.toNat / 64 := by
  have := b.isLt
  unfold bits
  omega

/-- Index's field is the first byte modulo 64 (rule R84). -/
theorem slotField_val (b : Byte) : (slotField b).val = b.toNat % 64 := by
  change bits b 5 0 % 64 = _
  unfold bits
  omega

/-- The two full-byte tags are the numbers 254 and 255 (rules R87, R88). -/
theorem not_fullByteTag (h : b0.toNat < 254) : b0 ≠ 254#8 ∧ b0 ≠ 255#8 :=
  ⟨by rintro rfl; exact absurd h (by decide), by rintro rfl; exact absurd h (by decide)⟩

/-- The six ranges of the first byte. -/
theorem firstByte_cases (b : Byte) :
    b.toNat < 64 ∨ (64 ≤ b.toNat ∧ b.toNat < 128) ∨ (128 ≤ b.toNat ∧ b.toNat < 192) ∨
    (192 ≤ b.toNat ∧ b.toNat < 254) ∨ b = 0xFE ∨ b = 0xFF := by
  rw [← BitVec.toNat_inj, ← BitVec.toNat_inj]
  have := b.isLt
  change _ ∨ _ ∨ _ ∨ _ ∨ b.toNat = 254 ∨ b.toNat = 255
  omega

theorem decodeChunk_index (h : b0.toNat < 64) (rest : List Byte) :
    decodeChunk (b0 :: rest) = .ok (.index (slotField b0), rest) := by
  have htop : bits b0 7 6 = 0 := by rw [bits_7_6]; omega
  simp [decodeChunk, not_fullByteTag (b0 := b0) (by omega), htop]

theorem decodeChunk_diff (h : 64 ≤ b0.toNat ∧ b0.toNat < 128) (rest : List Byte) :
    decodeChunk (b0 :: rest) = .ok (.diff (bits b0 5 4 - 2) (bits b0 3 2 - 2) (bits b0 1 0 - 2), rest) := by
  have htop : bits b0 7 6 = 1 := by rw [bits_7_6]; omega
  simp [decodeChunk, not_fullByteTag (b0 := b0) (by omega), htop]

theorem decodeChunk_luma (h : 128 ≤ b0.toNat ∧ b0.toNat < 192) (b1 : Byte) (rest : List Byte) :
    decodeChunk (b0 :: b1 :: rest) = .ok (.luma (bits b0 5 0 - 32) (bits b1 7 4 - 8) (bits b1 3 0 - 8), rest) := by
  have htop : bits b0 7 6 = 2 := by rw [bits_7_6]; omega
  simp [decodeChunk, not_fullByteTag (b0 := b0) (by omega), htop]

theorem decodeChunk_luma_truncated (h : 128 ≤ b0.toNat ∧ b0.toNat < 192) : decodeChunk [b0] = .error .truncatedChunk := by
  have htop : bits b0 7 6 = 2 := by rw [bits_7_6]; omega
  simp [decodeChunk, not_fullByteTag (b0 := b0) (by omega), htop]

theorem decodeChunk_run (h : 192 ≤ b0.toNat ∧ b0.toNat < 254) (rest : List Byte) :
    decodeChunk (b0 :: rest) = .ok (.run (bits b0 5 0 + 1), rest) := by
  have htop : bits b0 7 6 = 3 := by rw [bits_7_6]; omega
  simp [decodeChunk, not_fullByteTag (b0 := b0) (by omega), htop]

/-- Settles O11: each clause is the decoder's answer in that range of the first byte, its fields read as quotients and remainders. -/
theorem firstByteSelectsTheChunk : Obligations.FirstByteSelectsTheChunk := by
  intro b0 b1 b2 b3 b4 rest n
  have hn : n = b0.toNat := rfl
  have hb1 := b1.isLt
  refine ⟨fun hi => ⟨slotField b0, ?_, decodeChunk_index hi _⟩, fun hlo hhi => ?_, fun hlo hhi => ?_, fun hlo hhi => ?_,
    fun hrgb => ?_, fun hrgba => ?_⟩
  · rw [slotField_val]
    omega
  · rw [decodeChunk_diff ⟨hlo, hhi⟩]
    congr 3 <;> unfold bits <;> omega
  · rw [decodeChunk_luma ⟨hlo, hhi⟩]
    congr 3 <;> unfold bits <;> omega
  · have hcount : bits b0 5 0 + 1 = n - 192 + 1 := by unfold bits; omega
    rw [decodeChunk_run ⟨hlo, hhi⟩, hcount]
  · obtain rfl : b0 = 0xFE := BitVec.eq_of_toNat_eq hrgb
    rfl
  · obtain rfl : b0 = 0xFF := BitVec.eq_of_toNat_eq hrgba
    rfl

/-! ### Operand ranges in numbers (rule R95) -/

theorem wellFormed_diff_iff {dr dg db : Int} :
    (Instr.diff dr dg db).WellFormed ↔ -2 ≤ dr ∧ dr ≤ 1 ∧ -2 ≤ dg ∧ dg ≤ 1 ∧ -2 ≤ db ∧ db ≤ 1 := diffFits_iff

theorem wellFormed_luma_iff {dg x y : Int} :
    (Instr.luma dg x y).WellFormed ↔ (-32 ≤ dg ∧ dg ≤ 31) ∧ (-8 ≤ x ∧ x ≤ 7) ∧ -8 ≤ y ∧ y ≤ 7 := by
  simp [Instr.WellFormed, Instr.wellFormed, within, and_assoc]

theorem wellFormed_run_iff {count : Nat} : (Instr.run count).WellFormed ↔ 1 ≤ count ∧ count ≤ 62 :=
  Bool.and_eq_true_iff.trans (and_congr decide_eq_true_iff decide_eq_true_iff)

/-! ### The encoder's bytes as numbers -/

theorem toNat_ofInt_byte {v : Int} (h : 0 ≤ v ∧ v < 256) : ((BitVec.ofInt 8 v).toNat : Int) = v :=
  (wrap8_toNat v).trans (Int.emod_eq_of_lt h.1 h.2)

theorem ofInt_toNat_byte (b : Byte) : BitVec.ofInt 8 b.toNat = b := by
  rw [BitVec.ofInt_natCast, BitVec.ofNat_toNat, BitVec.setWidth_eq]

/-- RUN's byte as a sum (rule R89). -/
theorem encode_run (m : Magic) {count : Nat} (h : 1 ≤ count ∧ count ≤ 62) :
    encode m (.run count) = [BitVec.ofNat 8 (191 + count)] := by
  have key : ∀ x : Fin 62, (0xC0#8 ||| BitVec.ofNat 8 x.val) = BitVec.ofNat 8 (192 + x.val) := by decide
  have := key ⟨count - 1, by omega⟩
  rw [show 192 + (count - 1) = 191 + count by omega] at this
  rw [encode, this]

theorem unbe32_toNat (x0 x1 x2 x3 : Byte) :
    (unbe32 x0 x1 x2 x3).toNat = x0.toNat * 2 ^ 24 + x1.toNat * 2 ^ 16 + x2.toNat * 2 ^ 8 + x3.toNat := by
  have h0 := x0.isLt; have h1 := x1.isLt; have h2 := x2.isLt; have h3 := x3.isLt
  simp only [unbe32, BitVec.toNat_ofNat]
  omega

/-- The bytes of a word, most significant first, from its number. Stated over any word `v`: on `unbe32` itself the kernel's
check of the rewriting recurses too deep. -/
theorem be32_of_toNat {v : Word} {x0 x1 x2 x3 : Byte}
    (hv : v.toNat = x0.toNat * 2 ^ 24 + x1.toNat * 2 ^ 16 + x2.toNat * 2 ^ 8 + x3.toNat) : be32 v = [x0, x1, x2, x3] := by
  have h0 := x0.isLt; have h1 := x1.isLt; have h2 := x2.isLt; have h3 := x3.isLt
  simp only [be32, List.cons.injEq, and_true, ← BitVec.toNat_inj, BitVec.extractLsb'_toNat, Nat.shiftRight_eq_div_pow, hv]
  refine ⟨?_, ?_, ?_, ?_⟩ <;> omega

/-- A word has the bytes it was built from (rule R12). -/
theorem be32_unbe32 (x0 x1 x2 x3 : Byte) : be32 (unbe32 x0 x1 x2 x3) = [x0, x1, x2, x3] :=
  be32_of_toNat (unbe32_toNat x0 x1 x2 x3)

/-- A word is built again from its bytes (rule R12). -/
theorem unbe32_be32 (v : Word) :
    unbe32 (v.extractLsb' 24 8) (v.extractLsb' 16 8) (v.extractLsb' 8 8) (v.extractLsb' 0 8) = v := by
  have hv := v.isLt
  simp only [← BitVec.toNat_inj, unbe32_toNat, BitVec.extractLsb'_toNat, Nat.shiftRight_eq_div_pow]
  omega

/-! ### Decode after encode, one lemma per encoded form -/

variable (m : Magic) (rest : List Byte)

theorem decodeChunk_encode_index (slot : Slot) : decodeChunk (encode m (.index slot) ++ rest) = .ok (.index slot, rest) := by
  have hs := slot.isLt
  have hb : (BitVec.ofNat 8 slot.val).toNat = slot.val := by rw [BitVec.toNat_ofNat]; omega
  have hfield : slotField (BitVec.ofNat 8 slot.val) = slot := by
    apply Fin.ext
    rw [slotField_val]
    omega
  rw [encode, List.singleton_append, decodeChunk_index (by omega), hfield]

theorem decodeChunk_encode_diff {dr dg db : Int} (h : (Instr.diff dr dg db).WellFormed) :
    decodeChunk (encode m (.diff dr dg db) ++ rest) = .ok (.diff dr dg db, rest) := by
  have hrange := wellFormed_diff_iff.mp h
  have hb := toNat_ofInt_byte (v := 64 + (dr + 2) * 16 + (dg + 2) * 4 + (db + 2)) (by omega)
  rw [encode_diff m h, List.singleton_append, decodeChunk_diff (by omega)]
  congr 3 <;> unfold bits <;> omega

theorem decodeChunk_encode_luma {dg x y : Int} (h : (Instr.luma dg x y).WellFormed) :
    decodeChunk (encode m (.luma dg x y) ++ rest) = .ok (.luma dg x y, rest) := by
  obtain ⟨hg, hx, hy⟩ := wellFormed_luma_iff.mp h
  have hb0 := toNat_ofInt_byte (v := 128 + (dg + 32)) (by omega)
  have hb1 := toNat_ofInt_byte (v := (x + 8) * 16 + (y + 8)) (by omega)
  rw [encode_luma m hg hx hy, List.cons_append, List.singleton_append, decodeChunk_luma (by omega)]
  congr 3 <;> unfold bits <;> omega

theorem decodeChunk_encode_run {count : Nat} (h : (Instr.run count).WellFormed) :
    decodeChunk (encode m (.run count) ++ rest) = .ok (.run count, rest) := by
  have hrange := wellFormed_run_iff.mp h
  have hb : (BitVec.ofNat 8 (191 + count)).toNat = 191 + count := by rw [BitVec.toNat_ofNat]; omega
  rw [encode_run m hrange, List.singleton_append, decodeChunk_run (by omega)]
  congr 3
  unfold bits
  omega

theorem decodeHeader_encodeHeader (w h : Word) {c cs : Byte} (hc : legalChannels c = true) (hcs : legalColorspace cs = true) :
    decodeHeader m (encodeHeader m w h c cs ++ rest) = .ok (.header w h c cs, rest) := by
  simp [encodeHeader, Magic.bytes, be32, decodeHeader, unbe32_be32, hc, hcs]

theorem decodeCommandByte_encode (c : Command) : decodeCommandByte (encode m (startOf c) ++ rest) = .ok (startOf c, rest) := by
  cases c <;> rfl

/-- The decoder gives every well-formed instruction back from its encoding, whatever follows, by its constructor. -/
theorem decode_encode {i : Instr} (hw : i.WellFormed) : decode m i.space (encode m i ++ rest) = .ok (i, rest) := by
  cases i with
  | index slot => exact decodeChunk_encode_index m rest slot
  | diff dr dg db => exact decodeChunk_encode_diff m rest hw
  | luma dg x y => exact decodeChunk_encode_luma m rest hw
  | rgb r g b => rfl
  | rgba r g b a => rfl
  | run count => exact decodeChunk_encode_run m rest hw
  | header w h c cs =>
    obtain ⟨hc, hcs⟩ := Bool.and_eq_true_iff.mp hw
    exact decodeHeader_encodeHeader m rest w h hc hcs
  | nop => rfl
  | enc => exact decodeCommandByte_encode m rest .enc
  | dec => exact decodeCommandByte_encode m rest .dec
  | decBody => exact decodeCommandByte_encode m rest .decBody
  | encHdr => exact decodeCommandByte_encode m rest .encHdr
  | decHdr => exact decodeCommandByte_encode m rest .decHdr

/-- Settles O13: each encoded form lies in the range of its own decoder clause. -/
theorem decodeInvertsEncode : Obligations.DecodeInvertsEncode := fun m _ rest hw => decode_encode m rest hw

/-! ### Encode after decode, one lemma per encoded form -/

theorem encode_index_slotField (h : b0.toNat < 64) : encode m (.index (slotField b0)) = [b0] := by
  rw [encode, slotField_val, Nat.mod_eq_of_lt h, BitVec.ofNat_toNat, BitVec.setWidth_eq]

theorem encode_diff_of_toNat {dr dg db : Int}
    (hrange : -2 ≤ dr ∧ dr ≤ 1 ∧ -2 ≤ dg ∧ dg ≤ 1 ∧ -2 ≤ db ∧ db ≤ 1)
    (hb : 64 + (dr + 2) * 16 + (dg + 2) * 4 + (db + 2) = (b0.toNat : Int)) :
    (Instr.diff dr dg db).WellFormed ∧ b0 :: rest = encode m (.diff dr dg db) ++ rest := by
  have hw := wellFormed_diff_iff.mpr hrange
  rw [encode_diff m hw, hb, ofInt_toNat_byte]
  exact ⟨hw, rfl⟩

theorem encode_luma_of_toNat {b1 : Byte} {dg x y : Int}
    (hrange : (-32 ≤ dg ∧ dg ≤ 31) ∧ (-8 ≤ x ∧ x ≤ 7) ∧ -8 ≤ y ∧ y ≤ 7)
    (hb0 : 128 + (dg + 32) = (b0.toNat : Int)) (hb1 : (x + 8) * 16 + (y + 8) = (b1.toNat : Int)) :
    (Instr.luma dg x y).WellFormed ∧ b0 :: b1 :: rest = encode m (.luma dg x y) ++ rest := by
  obtain ⟨hg, hx, hy⟩ := hrange
  rw [encode_luma m hg hx hy, hb0, hb1, ofInt_toNat_byte, ofInt_toNat_byte]
  exact ⟨wellFormed_luma_iff.mpr ⟨hg, hx, hy⟩, rfl⟩

theorem encode_run_of_toNat {count : Nat} (hrange : 1 ≤ count ∧ count ≤ 62) (hb : 191 + count = b0.toNat) :
    (Instr.run count).WellFormed ∧ b0 :: rest = encode m (.run count) ++ rest := by
  rw [encode_run m hrange, hb, BitVec.ofNat_toNat, BitVec.setWidth_eq]
  exact ⟨wellFormed_run_iff.mpr hrange, rfl⟩

variable {m rest} {bs : List Byte} {i : Instr}

/-- What the chunk decoder took is the encoding of its well-formed answer, by the range of the first byte. -/
theorem encode_decodeChunk (m : Magic) (h : decodeChunk bs = .ok (i, rest)) : i.WellFormed ∧ bs = encode m i ++ rest := by
  obtain _ | ⟨b0, tl⟩ := bs
  · cases h
  rcases firstByte_cases b0 with hi | hd | hl | hr | rfl | rfl
  · cases (decodeChunk_index hi tl).symm.trans h
    exact ⟨rfl, by rw [encode_index_slotField m hi, List.singleton_append]⟩
  · cases (decodeChunk_diff hd tl).symm.trans h
    exact encode_diff_of_toNat m rest (by unfold bits; omega) (by unfold bits; omega)
  · obtain _ | ⟨b1, tl⟩ := tl
    · cases (decodeChunk_luma_truncated hl).symm.trans h
    cases (decodeChunk_luma hl b1 tl).symm.trans h
    have hb1 := b1.isLt
    exact encode_luma_of_toNat m rest (by unfold bits; omega) (by unfold bits; omega) (by unfold bits; omega)
  · cases (decodeChunk_run hr tl).symm.trans h
    exact encode_run_of_toNat m rest (by unfold bits; omega) (by unfold bits; omega)
  · obtain _ | ⟨r, _ | ⟨g, _ | ⟨b, tl⟩⟩⟩ := tl <;> cases h
    exact ⟨rfl, rfl⟩
  · obtain _ | ⟨r, _ | ⟨g, _ | ⟨b, _ | ⟨a, tl⟩⟩⟩⟩ := tl <;> cases h
    exact ⟨rfl, rfl⟩

theorem encode_decodeHeader (h : decodeHeader m bs = .ok (i, rest)) :
    i.WellFormed ∧ i.space = .header ∧ bs = encode m i ++ rest := by
  obtain ⟨w, hh, c, cs, rfl, hc, hcs⟩ := decodeHeader_ok h
  refine ⟨Bool.and_eq_true_iff.mpr ⟨hc, hcs⟩, rfl, ?_⟩
  unfold decodeHeader at h
  split at h
  · split_ifs at h with hm
    cases h
    simp only [encode, encodeHeader, ← not_not.mp hm, be32_unbe32]
    rfl
  · cases h

/-- A command's byte is its CMD code (rule R26). -/
theorem encode_decodeCommand (m : Magic) {code : BitVec 3} (h : decodeCommand code = .ok i) :
    i.WellFormed ∧ i.space = .command ∧ encode m i = [code.setWidth 8] := by
  rcases decodeCommand_ok h with ⟨rfl, rfl⟩ | ⟨c, rfl, rfl⟩
  · exact ⟨rfl, rfl, rfl⟩
  · cases c <;> exact ⟨rfl, rfl, rfl⟩

theorem encode_decodeCommandByte (m : Magic) (h : decodeCommandByte bs = .ok (i, rest)) :
    i.WellFormed ∧ i.space = .command ∧ bs = encode m i ++ rest := by
  unfold decodeCommandByte at h
  split at h
  · cases h
  next b tl =>
    split_ifs at h with hb
    split at h
    next j hj =>
      cases h
      obtain ⟨hw, hs, he⟩ := encode_decodeCommand m hj
      have hwide : (b.setWidth 3).setWidth 8 = b := by bv_omega
      exact ⟨hw, hs, by rw [he, hwide, List.singleton_append]⟩
    next => cases h

/-- Settles O14, by the spaces. -/
theorem encodeInvertsDecode : Obligations.EncodeInvertsDecode := by
  intro m sp bs rest i h
  cases sp with
  | body =>
    obtain ⟨hw, hbs⟩ := encode_decodeChunk m h
    exact ⟨hw, decodeChunk_space h, hbs⟩
  | header => exact encode_decodeHeader h
  | command => exact encode_decodeCommandByte m h

/-! ### The length of a chunk (rules R83, R91, R181) -/

/-- Where there is a first byte, a chunk cut short is all that the chunk decoder rejects. -/
theorem decodeChunk_cons_error {tl : List Byte} {e : Reject} (h : decodeChunk (b0 :: tl) = .error e) :
    e = .truncatedChunk := by
  rcases firstByte_cases b0 with hi | hd | hl | hr | rfl | rfl
  · cases (decodeChunk_index hi tl).symm.trans h
  · cases (decodeChunk_diff hd tl).symm.trans h
  · cases tl with
    | nil => cases (decodeChunk_luma_truncated hl).symm.trans h; rfl
    | cons b1 tl => cases (decodeChunk_luma hl b1 tl).symm.trans h
  · cases (decodeChunk_run hr tl).symm.trans h
  · obtain _ | ⟨r, _ | ⟨g, _ | ⟨b, tl⟩⟩⟩ := tl <;> cases h <;> rfl
  · obtain _ | ⟨r, _ | ⟨g, _ | ⟨b, _ | ⟨a, tl⟩⟩⟩⟩ := tl <;> cases h <;> rfl

/-- A chunk that decodes is there whole: its length is the one its first byte gives. -/
theorem chunkLen_le_of_decodeChunk_ok {tl : List Byte} (h : decodeChunk (b0 :: tl) = .ok (i, rest)) :
    chunkLen b0 ≤ tl.length + 1 := by
  obtain ⟨-, hbs⟩ := encode_decodeChunk Config.standard.magic h
  have hlen := congrArg List.length hbs
  rw [List.length_append, encode_length, (decodeChunk_length h).1] at hlen
  exact le_of_le_of_eq (Nat.le_add_right _ _) hlen.symm

/-- A chunk decodes alike whatever bytes follow it (rule R83). -/
theorem decodeChunk_append (h : decodeChunk bs = .ok (i, [])) (more : List Byte) :
    decodeChunk (bs ++ more) = .ok (i, more) := by
  obtain ⟨hw, hbs⟩ := encode_decodeChunk Config.standard.magic h
  have hdec := decode_encode Config.standard.magic more hw
  rw [decodeChunk_space h] at hdec
  rw [hbs, List.append_nil]
  exact hdec

/-- Settles O12: the bytes asked for are one chunk, and decoding stops at its end; with bytes missing the answer can only be
the error. -/
theorem chunkLengthFromFirstByteAlone : Obligations.ChunkLengthFromFirstByteAlone := by
  intro b0 rest
  constructor
  · intro hle
    obtain ⟨i, hi⟩ := decodeChunk_take hle
    have hdec := decodeChunk_append hi ((b0 :: rest).drop (chunkLen b0))
    rw [List.take_append_drop] at hdec
    obtain ⟨hw, -⟩ := encode_decodeChunk Config.standard.magic hdec
    have hdrop : (b0 :: rest).drop (chunkLen b0) = rest.drop (chunkLen b0 - 1) :=
      List.drop_cons (chunkLen_bounds b0).1
    exact ⟨i, hdrop ▸ hdec, hw, decodeChunk_space hdec, (decodeChunk_length hdec).1⟩
  · intro hlt
    cases hdec : decodeChunk (b0 :: rest) with
    | error e => rw [decodeChunk_cons_error hdec]
    | ok r => exact absurd (chunkLen_le_of_decodeChunk_ok hdec) (by omega)

/-! ### Words written out from the spec -/

/-- Settles O10: the decoder evaluates on each word; for the header, whose MAGIC is any, `decode_encode` reads it off its encoding. -/
theorem writtenOutWordsDecode : Obligations.WrittenOutWordsDecode :=
  fun m rest => ⟨rfl, rfl, rfl, rfl, rfl, rfl, decode_encode m rest (i := .header 256 16 3 1) rfl, rfl⟩

end Sys2Proof.Machine
end
section
/-! Proofs of O15, O16, O33, O48 and O32: the header codec's tests and fields, the meaning of a HEADER, and who reads its registers. -/

namespace Sys2Proof.Machine

variable {s t : State} {m : Magic} {bs : List Byte}

/-! ### The tags and the bytes of a header (rules R31, R32, R120) -/

theorem legalChannels_iff {c : Byte} : legalChannels c = true ↔ c = 3 ∨ c = 4 := by
  simp [legalChannels]

theorem legalColorspace_iff {cs : Byte} : legalColorspace cs = true ↔ cs = 0 ∨ cs = 1 := by
  simp [legalColorspace]

theorem legalChannels_eq_false {c : Byte} (hc : ¬ (c = 3 ∨ c = 4)) : legalChannels c = false :=
  Bool.eq_false_iff.mpr (mt legalChannels_iff.mp hc)

theorem legalColorspace_eq_false {cs : Byte} (hcs : ¬ (cs = 0 ∨ cs = 1)) : legalColorspace cs = false :=
  Bool.eq_false_iff.mpr (mt legalColorspace_iff.mp hcs)

/-- The fields of a byte sequence that is long enough for a header (rule R120). -/
theorem exists_header_bytes : ∀ {bs : List Byte}, 14 ≤ bs.length → ∃ b0 b1 b2 b3 w0 w1 w2 w3 h0 h1 h2 h3 c cs rest,
    bs = b0 :: b1 :: b2 :: b3 :: w0 :: w1 :: w2 :: w3 :: h0 :: h1 :: h2 :: h3 :: c :: cs :: rest
  | _ :: _ :: _ :: _ :: _ :: _ :: _ :: _ :: _ :: _ :: _ :: _ :: _ :: _ :: _, _ =>
    ⟨_, _, _, _, _, _, _, _, _, _, _, _, _, _, _, rfl⟩

/-- `unbe32` read as a number, one byte after the other (rule R12). -/
theorem unbe32_toNat_eq_foldl (x0 x1 x2 x3 : Byte) :
    (unbe32 x0 x1 x2 x3).toNat = [x0, x1, x2, x3].foldl (fun a b => a * 256 + b.toNat) 0 := by
  rw [unbe32_toNat]
  simp only [List.foldl_cons, List.foldl_nil]
  omega

/-! ### The header decoder (rules R122, R123, R239) -/

theorem decodeHeader_of_short (h : bs.length < 14) : decodeHeader m bs = .error .truncatedHeader := by
  unfold decodeHeader
  split
  · simp only [List.length_cons] at h
    omega
  · rfl

/-- Settles O15: the whole header by its tags, each with the decoder's answer on an encoded header; a part of one is short. -/
theorem headerRoundTrips : Obligations.HeaderRoundTrips := by
  intro m w h c cs rest
  refine ⟨fun hc hcs => ?legal, fun hc => ?channels, fun hc hcs => ?colorspace, fun k hk => ?cut⟩
  case legal => exact decodeHeader_encodeHeader m rest w h (legalChannels_iff.mpr hc) (legalColorspace_iff.mpr hcs)
  case channels => exact decodeHeader_encodeHeader_channels m w h cs rest (legalChannels_eq_false hc)
  case colorspace =>
    exact decodeHeader_encodeHeader_colorspace m w h rest (legalChannels_iff.mpr hc) (legalColorspace_eq_false hcs)
  case cut => exact decodeHeader_of_short (by rw [List.length_take, encodeHeader_length]; omega)

/-- Settles O16: with its 14 bytes named, a header's answer is the `if` of its four tests in their order. -/
theorem headerTestsInOrder : Obligations.HeaderTestsInOrder := by
  intro m bs
  refine ⟨decodeHeader_of_short, fun hlen => ?_⟩
  obtain ⟨b0, b1, b2, b3, w0, w1, w2, w3, h0, h1, h2, h3, c, cs, rest, rfl⟩ := exists_header_bytes hlen
  simp only [List.take_succ_cons, List.take_zero, List.drop_succ_cons, List.drop_zero, List.getElem?_cons_succ,
    List.getElem?_cons_zero, ne_eq, Option.some.injEq, decodeHeader, ← unbe32_toNat_eq_foldl]
  refine ⟨fun hm => ?magic, fun hm hne3 hne4 => ?channels, fun hm hc hne0 hne1 => ?colorspace,
    fun hm hc hcs => ?fields⟩
  case magic => rw [if_pos hm]
  case channels =>
    have hc := legalChannels_eq_false (not_or.mpr ⟨hne3, hne4⟩)
    simp [hm, hc]
  case colorspace =>
    have hcs := legalColorspace_eq_false (not_or.mpr ⟨hne0, hne1⟩)
    simp [hm, legalChannels_iff.mpr hc, hcs]
  case fields =>
    have hc := legalChannels_iff.mpr hc
    have hcs := legalColorspace_iff.mpr hcs
    exact ⟨_, _, _, _, by simp [hm, hc, hcs], rfl, rfl, rfl, rfl⟩

/-! ### The meaning of a HEADER (rules R122, R212, R215, R239) -/

theorem execHeader_illegal_channels (w h : Word) {c : Byte} (cs : Byte) (hc : legalChannels c = false) :
    exec (.header w h c cs) s = .next (s.raised (.formatError .channels)) := by
  simp [exec, execHeader, raise, hc]

theorem execHeader_illegal_colorspace (w h : Word) {c cs : Byte} (hc : legalChannels c = true)
    (hcs : legalColorspace cs = false) :
    exec (.header w h c cs) s = .next (s.raised (.formatError .colorspace)) := by
  simp [exec, execHeader, raise, hc, hcs]

theorem afterHeader_of_dec (hrun : s.running = some .dec) : afterHeader s = s.initialised := by
  rw [afterHeader, hrun]

theorem afterHeader_of_decHdr (hrun : s.running = some .decHdr) : afterHeader s = s.finished := by
  rw [afterHeader, hrun]

/-- Settles O33: legal tags write the registers and go on by the running command; an illegal one raises, with its code in ERR. -/
theorem headerFillsTheRegisters : Obligations.HeaderFillsTheRegisters := by
  intro s w h c cs
  refine ⟨fun hc hcs => ?legal, fun hc => ?channels, fun hc hcs => ?colorspace⟩
  case legal =>
    rw [execHeader_legal w h (legalChannels_iff.mpr hc) (legalColorspace_iff.mpr hcs)]
    refine ⟨fun hrun => ?dec, fun hrun => ?decHdr⟩
    case dec => rw [afterHeader_of_dec (s := s.headerWritten w h c cs) hrun]; rfl
    case decHdr => rw [afterHeader_of_decHdr (s := s.headerWritten w h c cs) hrun]; rfl
  case channels => exact execHeader_illegal_channels w h cs (legalChannels_eq_false hc)
  case colorspace => exact execHeader_illegal_colorspace w h (legalChannels_iff.mpr hc) (legalColorspace_eq_false hcs)

/-! ### Fetching a header (rules R121, R122) -/

theorem fetchHeader_of_decodes {i : Instr} {rest : List Byte} (hlen : 14 ≤ s.inLen)
    (hbs : Buffer.readSeq s.mem.byteIn 0 14 = some bs) (hi : decodeHeader s.cfg.magic bs = .ok (i, rest)) :
    fetchHeader s = .run i s := by
  have hlong : ¬ s.inLen < Config.headerBytes := Nat.not_lt.mpr hlen
  have hseq : Buffer.readSeq s.mem.byteIn 0 Config.headerBytes = some bs := hbs
  simp only [fetchHeader, if_neg hlong, hseq, hi]

/-- What follows the 14 bytes of a header plays no part in its decoding. -/
theorem decodeHeader_of_append {i : Instr} {rest rest' : List Byte} (hbs : bs.length = 14)
    (h : decodeHeader m (bs ++ rest) = .ok (i, rest')) : decodeHeader m bs = .ok (i, []) := by
  have htake : (bs ++ rest).take 14 = bs := List.take_left' hbs
  have hlen : 14 ≤ (bs ++ rest).length := by rw [List.length_append]; omega
  rcases decodeHeader_take (m := m) hlen with ⟨e, he, -⟩ | ⟨j, hj, hj'⟩
  · cases h.symm.trans he
  · cases h.symm.trans hj
    rwa [htake] at hj'

/-- Settles O32: the bytes read decode alike without what follows them, and the fetch runs what they decode to. -/
theorem stepRunsTheDecodedHeader : Obligations.StepRunsTheDecodedHeader := by
  intro s i bs rest hr hb hp hc hlen hbs hi
  have hi' := decodeHeader_of_append (Buffer.readSeq_length hbs) hi
  rw [step_of_header hr hb hp hc, fetchHeader_of_decodes hlen hbs hi', perform_run]

/-! ### The body decoder does not read the header registers (rules R124, R191) -/

/-- The outcome with other header registers in its next state. -/
def withHeader (w h : Word) (c cs : Byte) : Result → Result
  | .next t => .next (t.headerWritten w h c cs)
  | .fault e => .fault e
  | .refused r => .refused r

variable (w h : Word) (c cs : Byte)

@[simp] theorem withHeader_next : withHeader w h c cs (.next t) = .next (t.headerWritten w h c cs) := rfl

/-- An exception keeps the header registers (rule R237). -/
@[simp] theorem withHeader_raise (x : Exc) : withHeader w h c cs (raise x s) = raise x (s.headerWritten w h c cs) := rfl

/-- Room and the appended elements depend on OUT_LEN and OUT_CAP, not on the header. -/
theorem appendPixels_headerWritten (ps : List Pixel) :
    appendPixels ps (s.headerWritten w h c cs) = withHeader w h c cs (appendPixels ps s) := by
  rw [appendPixels, appendPixels, apply_ite (withHeader w h c cs)]
  rfl

theorem emitInserted_headerWritten (px : Pixel) (n : Nat) :
    emitInserted px n (s.headerWritten w h c cs) = withHeader w h c cs (emitInserted px n s) :=
  appendPixels_headerWritten w h c cs (s := (s.inserted px).stepped px n) [px]

/-- The availability check measures the body by IN_LEN (rule R181). -/
theorem ifAvailable_headerWritten (n : Nat) (o : Result) :
    ifAvailable n (s.headerWritten w h c cs) (withHeader w h c cs o) = withHeader w h c cs (ifAvailable n s o) := by
  rw [ifAvailable, ifAvailable, apply_ite (withHeader w h c cs)]
  rfl

/-- A chunk of several bytes: the check, then its pixel. -/
theorem ifAvailable_emitInserted_headerWritten (px : Pixel) (n : Nat) :
    ifAvailable n (s.headerWritten w h c cs) (emitInserted px n (s.headerWritten w h c cs)) =
      withHeader w h c cs (ifAvailable n s (emitInserted px n s)) := by
  rw [emitInserted_headerWritten, ifAvailable_headerWritten]

/-- The meaning of a chunk neither reads nor writes the header registers (rules R182 to R187). -/
theorem exec_chunk_headerWritten {i : Instr} (hi : i.space = .body) :
    exec i (s.headerWritten w h c cs) = withHeader w h c cs (exec i s) := by
  cases i with
  | index slot => exact appendPixels_headerWritten w h c cs (s := s.stepped (cacheGet s.cache slot) 1) _
  | diff dr dg db => exact emitInserted_headerWritten w h c cs _ 1
  | luma dg drDg dbDg => exact ifAvailable_emitInserted_headerWritten w h c cs _ 2
  | rgb r g b => exact ifAvailable_emitInserted_headerWritten w h c cs _ 4
  | rgba r g b a => exact ifAvailable_emitInserted_headerWritten w h c cs _ 5
  | run count => exact appendPixels_headerWritten w h c cs (s := s.stepped s.prev 1) _
  | header | nop | enc | dec | decBody | encHdr | decHdr => cases hi

/-- The fetch reads the body's bytes alone, so it runs the same chunk, raises or ends alike (rules R180, R181). -/
theorem fetchChunk_headerWritten :
    perform (fetchChunk (s.headerWritten w h c cs)) = withHeader w h c cs (perform (fetchChunk s)) := by
  simp only [fetchChunk, State.headerWritten_pos, State.headerWritten_bodyLen, State.headerWritten_bodyBase,
    State.headerWritten_mem]
  by_cases hpos : s.pos < s.bodyLen
  · simp only [hpos, if_true]
    cases Buffer.read s.mem.byteIn (s.bodyBase + s.pos) with
    | none => rfl
    | some b0 =>
      by_cases hlen : s.pos + chunkLen b0 ≤ s.bodyLen
      · simp only [hlen, if_true]
        cases Buffer.readSeq s.mem.byteIn (s.bodyBase + s.pos) (chunkLen b0) with
        | none => rfl
        | some bs =>
          cases hi : decodeChunk bs with
          | error e => simp only [hi, perform_outcome, withHeader_raise]
          | ok r =>
            simp only [hi, perform_run]
            exact exec_chunk_headerWritten w h c cs (decodeChunk_space hi)
      · simp only [hlen, if_false, perform_outcome, withHeader_raise]
  · simp only [hpos, if_false, perform_outcome, withHeader_next]
    rfl

theorem step_body_headerWritten (hr : s.resetAsserted = false) (hd : s.inBody) :
    step (s.headerWritten w h c cs) = withHeader w h c cs (step s) := by
  rw [step_of_body (s := s.headerWritten w h c cs) hr hd, step_of_body hr hd, fetchChunk_headerWritten]

/-- Settles O48: `step_body_headerWritten` says it of every outcome. -/
theorem decoderIgnoresTheHeaderRegisters : Obligations.DecoderIgnoresTheHeaderRegisters :=
  fun _ _ w h c cs hr hd hstep => (step_body_headerWritten w h c cs hr hd).trans (congrArg _ hstep)

end Sys2Proof.Machine
end

section
/-! Proofs of O55, O18, O20 and O21: the hash and the cache, and the lockstep of an encoder and a decoder over one chunk. -/

namespace Sys2Proof.Machine

/-! ### The hash (rule R130) -/

/-- The wrap at 8 bits is lost in the final modulo, for 64 divides 256. -/
theorem pixelHash_val (p : Pixel) :
    (pixelHash p).val = (3 * p.r.toNat + 5 * p.g.toNat + 7 * p.b.toNat + 11 * p.a.toNat) % 64 := by
  have hval : (pixelHash p).val = (3 * p.r + 5 * p.g + 7 * p.b + 11 * p.a).toNat % 64 := rfl
  simp only [hval, BitVec.toNat_add, BitVec.toNat_mul, BitVec.reduceToNat]
  omega

/-- Settles O18: both sums have the residue of `pixelHash_val` modulo 64. -/
theorem hashWrapsAtEightBits : Obligations.HashWrapsAtEightBits :=
  fun p => ⟨by rw [pixelHash_val]; omega, pixelHash_val p⟩

/-! ### The cache (rules R131, R132) -/

section

variable {slots : Vector Pixel 64} {p : Pixel} {k : Slot}

theorem cacheLookup_eq_some_iff :
    cacheLookup slots p = some k ↔ k = pixelHash p ∧ slots[pixelHash p] = p := by
  rw [cacheLookup, Option.ite_none_right_eq_some, Option.some.injEq, and_comm, eq_comm]

theorem cacheLookup_eq_none_iff : cacheLookup slots p = none ↔ slots[pixelHash p] ≠ p := by
  simp [cacheLookup]

variable (slots p)

theorem cacheInsert_same : (cacheInsert slots p)[pixelHash p] = p := by
  simp [cacheInsert]

theorem cacheInsert_other (hk : k ≠ pixelHash p) : (cacheInsert slots p)[k] = slots[k] :=
  Vector.getElem_set_ne _ _ (Fin.val_ne_of_ne hk.symm)

end

/-- Settles O20: the one test of `cacheLookup` is whether the hash slot holds the pixel. -/
theorem lookupHitsOnExactPixelOnly : Obligations.LookupHitsOnExactPixelOnly :=
  fun _ _ => ⟨fun _ => cacheLookup_eq_some_iff, cacheLookup_eq_none_iff⟩

/-- Settles O21: a colliding pixel looks at the one slot that now holds the inserted pixel. -/
theorem insertOverwritesOneSlot : Obligations.InsertOverwritesOneSlot := by
  intro slots p q
  refine ⟨cacheInsert_same slots p, fun _ => cacheInsert_other slots p, fun hne hcollide => ?_⟩
  rw [cacheLookup_eq_none_iff]
  simpa only [hcollide, cacheInsert_same] using hne.symm

/-! ### Both sides of one chunk (rules R135, R264) -/

section

variable {s t d : State} {c : Choice} {prev p : Pixel}

/-- The choice is RGB for a pixel that is not opaque: the one case where the decoder makes another pixel of the chunk (rule R265). -/
def Choice.alphaHazard (c : Choice) : Prop := (∃ r g b, c.chunk = .rgb r g b) ∧ c.pixel.a ≠ 255

/-- The state a decoder comes to that appends the pixels the encoder chose for: the encoder's own update of `prev` and the cache,
`pos` moved by the chunk's bytes. -/
def State.mirrored (d : State) (c : Choice) : State :=
  (d.encoded { c with covers := c.chunk.byteLength }).pushPixels (List.replicate c.covers c.pixel)

theorem encoderStep_next (hc : chooseChunk s = some c) (h : encoderStep s = .next t) :
    t = (s.encoded c).pushBytes (encode s.cfg.magic c.chunk) := by
  simp only [encoderStep, hc] at h
  exact (appendBytes_next_iff.mp h).2

/-- Deltas taken from a pixel of the same alpha lead back to the pixel they were taken for (rules R13, R183). -/
theorem moveBy_delta (ha : p.a = prev.a) :
    moveBy prev (delta p.r prev.r) (delta p.g prev.g) (delta p.b prev.b) = p := by
  simp only [moveBy, applyDelta_delta, ← ha]

/-- The decoder makes of a chunk of the delta/literal path the pixel it was chosen for (rules R154 to R158, R183 to R186). -/
theorem exec_literalChunk (havail : d.pos + (literalChunk d.prev p).byteLength ≤ d.bodyLen)
    (hopaque : ∀ r g b, literalChunk d.prev p = .rgb r g b → p.a = 255) :
    exec (literalChunk d.prev p) d = emitInserted p (literalChunk d.prev p).byteLength d := by
  rcases literalChunk_cases d.prev p with ⟨-, h⟩ | ⟨ha, -, h⟩ | ⟨ha, -, -, h⟩ | ⟨-, -, -, h⟩ <;> rw [h] at havail ⊢
  · exact ifAvailable_of_le havail
  · exact congrArg (emitInserted · 1 d) (moveBy_delta ha)
  · refine (ifAvailable_of_le havail).trans ?_
    rw [Int.sub_add_cancel, Int.sub_add_cancel, moveBy_delta ha]
    rfl
  · refine (ifAvailable_of_le havail).trans ?_
    rw [← hopaque _ _ _ h]
    rfl

/-- The decoder appends the pixels the encoder chose for, and updates `prev` and the cache as the encoder did. -/
theorem exec_choice (hc : chooseChunk s = some c) (hprev : d.prev = s.prev) (hcache : d.cache = s.cache)
    (havail : d.pos + c.chunk.byteLength ≤ d.bodyLen) (hsafe : ¬ c.alphaHazard) (h : exec c.chunk d = .next t) :
    t = d.mirrored c := by
  obtain ⟨p, -, ⟨hrun, e, -, rfl⟩ | ⟨-, hhit, rfl⟩ | ⟨-, -, rfl⟩⟩ := chooseChunk_eq_some_iff.mp hc
  · -- a run
    obtain rfl : p = d.prev := hrun.trans hprev.symm
    exact (appendPixels_next_iff.mp h).2
  · -- a cache hit
    have hget : cacheGet d.cache (pixelHash p) = p := by rw [hcache]; exact hhit
    simp only [exec, execIndex, hget] at h
    exact (appendPixels_next_iff.mp h).2
  · -- the delta/literal path
    rw [← hprev] at havail hsafe h ⊢
    have hopaque : ∀ r g b, literalChunk d.prev p = .rgb r g b → p.a = 255 :=
      fun r g b hrgb => not_not.mp fun ha => hsafe ⟨⟨r, g, b, hrgb⟩, ha⟩
    rw [exec_literalChunk havail hopaque] at h
    exact (appendPixels_next_iff.mp h).2

/-- However its pixel comes out, a chunk run whole appends as many pixels as it covers (rule R90). -/
theorem exec_choice_outLen (hc : chooseChunk s = some c) (havail : d.pos + c.chunk.byteLength ≤ d.bodyLen)
    (h : exec c.chunk d = .next t) : t.outLen = d.outLen + c.covers := by
  rw [← chooseChunk_produced hc]
  obtain ⟨-, hspace, -⟩ := chooseChunk_shape hc
  rcases exec_chunk_next hspace h with ⟨hcut, -, -⟩ | ⟨-, u, ps, rfl | ⟨q, rfl⟩, hlen, -, p, rfl⟩
  · omega
  · simp [hlen]
  · simp [hlen]

/-- RGB makes every pixel opaque (rule R185). -/
theorem exec_rgb_opaque {r g b : Byte} (havail : d.pos + 4 ≤ d.bodyLen) (h : exec (.rgb r g b) d = .next t) :
    t.prev.a = 255 := by
  obtain ⟨-, rfl⟩ := appendPixels_next_iff.mp ((ifAvailable_of_le havail).symm.trans h)
  rfl

end

/-- Settles O55: without the hazard the decoder mirrors the encoder; with it the decoder's `prev` is opaque and the encoder's is not. -/
theorem encoderAndDecoderStayInLockstep : Obligations.EncoderAndDecoderStayInLockstep := by
  intro s s' d d' c hc henc hprev hcache havail hexec
  obtain rfl := encoderStep_next hc henc
  refine ⟨exec_choice_outLen hc havail hexec, fun ⟨⟨r, g, b, hrgb⟩, ha⟩ heq => ?hazard, fun hsafe => ?safe⟩
  case hazard =>
    rw [hrgb] at havail hexec
    have hopaque := exec_rgb_opaque havail hexec
    rw [heq, State.pushBytes_prev, State.encoded_prev] at hopaque
    exact ha hopaque
  case safe =>
    obtain rfl := exec_choice hc hprev hcache havail hsafe hexec
    refine ⟨by simp [State.mirrored], by simp [State.mirrored, hcache], ?_⟩
    rw [chooseChunk_covers hc]
    simpa [State.mirrored] using
      Buffer.readSeq_writeSeq d.mem.pixOut d.outLen (List.replicate c.covers c.pixel)

end Sys2Proof.Machine
end

section
/-! Proofs of O51, O35, O37, O38, O39, O40, O41, O19 and O54: what the encoder chooses, the bytes a step of it appends, and the
whole run of ENC. -/

namespace Sys2Proof.Machine

variable {s t u : State} {c : Choice} {bs bs' : List Byte}

/-! ### Bytes appended (rules R14, R51) -/

/-- From `s` to `t` the encoder appended exactly `bs` to its output and kept everything that `EncoderFrame` names. -/
structure Emitted (bs : List Byte) (s t : State) : Prop where
  frame : EncoderFrame bs.length s t
  outLen : t.outLen = s.outLen + bs.length
  bytes : Buffer.readSeq t.mem.byteOut s.outLen bs.length = some bs

theorem Emitted.nil (s : State) : Emitted [] s s where
  frame := ⟨⟨rfl, rfl, rfl, rfl, rfl, rfl, rfl, rfl⟩, rfl, rfl, rfl, rfl, fun _ _ => rfl⟩
  outLen := rfl
  bytes := rfl

/-- An Append after any change of `prev`, `pos` and the cache. -/
theorem Emitted.pushBytes_of_working (s : State) (prev : Pixel) (pos : Nat) (cache : Vector Pixel 64) (bs : List Byte) :
    Emitted bs s (State.pushBytes { s with prev, pos, cache } bs) where
  frame := ⟨⟨rfl, rfl, rfl, rfl, rfl, rfl, rfl, rfl⟩, rfl, rfl, rfl, rfl, fun _ => Buffer.read_writeSeq_outside _ _ _ _⟩
  outLen := rfl
  bytes := Buffer.readSeq_writeSeq ..

theorem Emitted.pushBytes (s : State) (bs : List Byte) : Emitted bs s (s.pushBytes bs) :=
  .pushBytes_of_working s s.prev s.pos s.cache bs

theorem State.encoded_eq (s : State) (c : Choice) :
    s.encoded c = { s with
      prev := c.pixel, pos := s.pos + c.covers, cache := if c.inserts then cacheInsert s.cache c.pixel else s.cache } := by
  cases h : c.inserts <;> simp [State.encoded, State.stepped, State.inserted, h]

theorem Emitted.of_choice (s : State) (c : Choice) (bs : List Byte) : Emitted bs s ((s.encoded c).pushBytes bs) := by
  rw [State.encoded_eq]
  exact .pushBytes_of_working s _ _ _ bs

/-- What was appended first stands before what is appended next. -/
theorem Emitted.trans (h : Emitted bs s t) (h' : Emitted bs' t u) : Emitted (bs ++ bs') s u := by
  have hout := h.outLen
  have hout' := h'.outLen
  have hfirst : Buffer.readSeq u.mem.byteOut s.outLen bs.length = some bs :=
    (Buffer.readSeq_congr _ _ fun j _ hj => h'.frame.byteOut j (.inl (by omega))).trans h.bytes
  have hnext : Buffer.readSeq u.mem.byteOut (s.outLen + bs.length) bs'.length = some bs' := hout ▸ h'.bytes
  refine ⟨⟨h.frame.kept.trans h'.frame.kept, h'.frame.status.trans h.frame.status, h'.frame.err.trans h.frame.err,
    h'.frame.phase.trans h.frame.phase, h'.frame.pixOut.trans h.frame.pixOut, fun j hj => ?outside⟩, ?outLen, ?bytes⟩
  case outside =>
    rw [List.length_append] at hj
    rw [h'.frame.byteOut j (by omega), h.frame.byteOut j (by omega)]
  case outLen => rw [hout', hout, List.length_append, Nat.add_assoc]
  case bytes => rw [List.length_append]; exact Buffer.readSeq_append hfirst hnext

/-- Bytes appended to an empty output are the whole output. -/
theorem Emitted.output (h : Emitted bs s t) (hempty : s.outLen = 0) :
    Buffer.readSeq t.mem.byteOut 0 t.outLen = some bs := by
  rw [h.outLen, hempty, Nat.zero_add]
  exact hempty ▸ h.bytes

/-- Room after an Append is what is left of the room before it (rule R54). -/
theorem State.pushBytes_fits (s : State) (bs : List Byte) (n : Nat) :
    (s.pushBytes bs).fits n = s.fits (bs.length + n) := by
  simp only [State.fits, State.pushBytes_cfg, State.pushBytes_outLen, Nat.add_assoc]

/-! ### The steps of ENC and the end action (rules R150, R151, R159, R180, R217) -/

/-- A chunk step with room appends the chosen chunk's bytes. -/
theorem step_of_choice (hr : s.resetAsserted = false) (he : s.inChunks .enc) (hpos : s.pos < s.inLen)
    (hc : chooseChunk s = some c) (hroom : s.fits c.chunk.byteLength = true) :
    step s = .next ((s.encoded c).pushBytes (encode s.cfg.magic c.chunk)) := by
  rw [step_of_encoder hr he hpos, encoderStep_of_choice hc hroom]

theorem step_of_encoder_end (hr : s.resetAsserted = false) (he : s.inChunks .enc) (hpos : s.pos = s.inLen) :
    step s = .next s.finished := by
  rw [step_of_encChunks hr he, encChunks, if_neg (by omega)]

theorem step_of_body_end (hr : s.resetAsserted = false) (hd : s.inBody) (hpos : s.pos = s.bodyLen) :
    step s = .next s.finished := by
  rw [step_of_body hr hd, fetchChunk, if_neg (by omega), perform_outcome]

/-- Settles O37: with `pos` at the end neither the encoder nor the fetch of a chunk has anything left but the end action. -/
theorem commandEndsAtTheEndOfInput : Obligations.CommandEndsAtTheEndOfInput :=
  fun _ hr => ⟨step_of_encoder_end hr, step_of_body_end hr⟩

theorem State.sizeMatches_iff : s.sizeMatches = true ↔ s.inLen = s.width.toNat * s.height.toNat := by
  simp [State.sizeMatches]

section

variable (hr : s.resetAsserted = false) (hb : s.status = .busy) (hp : s.phase = .entry) (hc : s.running = some .enc)

include hr hb hp hc

theorem step_of_encEntry : step s = encEntry s := by
  rw [step_of_entry hr hb hp, entryAction, hc, perform_outcome]

theorem step_of_encEntry_mismatch (hsize : s.inLen ≠ s.width.toNat * s.height.toNat) :
    step s = .next (s.raised .sizeMismatch) := by
  rw [step_of_encEntry hr hb hp hc, encEntry, if_neg (mt State.sizeMatches_iff.mp hsize), raise]

theorem step_of_encEntry_match (hsize : s.inLen = s.width.toNat * s.height.toNat)
    (hroom : s.initialised.fits 14 = true) : step s = .next (s.initialised.pushBytes s.headerBytes) := by
  rw [step_of_encEntry hr hb hp hc, encEntry, if_pos (State.sizeMatches_iff.mpr hsize), appendBytes_of_fits hroom]

end

/-- Settles O35: the size check decides between the exception and an Append of the header to the fresh working state. -/
theorem encChecksTheExactSizeFirst : Obligations.EncChecksTheExactSizeFirst := by
  intro s hr hb hp hc
  refine ⟨fun hsize => step_of_encEntry_mismatch hr hb hp hc hsize, fun hsize hcap => ?_⟩
  have hroom : s.initialised.fits 14 = true := State.fits_of_cap (by simpa using hcap)
  have hem : Emitted s.headerBytes s.initialised (s.initialised.pushBytes s.headerBytes) := .pushBytes _ _
  exact ⟨_, step_of_encEntry_match hr hb hp hc hsize hroom, rfl, rfl, freshCache_holds_default, rfl, rfl, hb, rfl,
    hem.bytes, fun j hj => hem.frame.byteOut j (.inr (by simpa using hj)), rfl,
    (RegsKept.initialised s).trans hem.frame.kept⟩

/-! ### The whole run of ENC (rules R161, R211) -/

/-- An encoder in its chunk steps whose every pixel is there, with room for 5 bytes a pixel to come. -/
structure State.CanEncode (s : State) : Prop where
  noReset : s.resetAsserted = false
  encoding : s.inChunks .enc
  posInPixels : s.pos ≤ s.inLen
  pixelsThere : ∀ j, j < s.inLen → (Buffer.read s.mem.pixIn j).isSome = true
  room : s.fits (5 * (s.inLen - s.pos)) = true

/-- A chunk step takes at most the room of the pixels it covers, so an encoder goes on as it began. -/
theorem State.CanEncode.emits (h : s.CanEncode) (hpos : s.pos < s.inLen) :
    ∃ t bs, step s = .next t ∧ t.CanEncode ∧ Emitted bs s t ∧ s.pos < t.pos ∧ bs.length ≤ 5 * (t.pos - s.pos) := by
  obtain ⟨c, hc⟩ := chooseChunk_total h.pixelsThere hpos
  obtain ⟨-, -, -, hlen, hcov, -, hend⟩ := chooseChunk_shape hc
  have hend := hend hpos
  have hstep := step_of_choice h.noReset h.encoding hpos hc (State.fits_mono h.room (by omega))
  refine ⟨_, _, hstep, ⟨?noReset, ?encoding, ?posInPixels, ?pixelsThere, ?room⟩, .of_choice s c _, ?advance, ?length⟩
  case noReset => simpa using h.noReset
  case encoding => exact (State.inChunks_congr (by simp) (by simp) (by simp) .enc).mpr h.encoding
  case posInPixels => simpa using hend
  case pixelsThere => simpa using h.pixelsThere
  case room =>
    rw [State.pushBytes_fits, State.encoded_fits, encode_length]
    refine State.fits_mono h.room ?_
    simp only [State.pushBytes_inLen, State.pushBytes_pos, State.encoded_inLen, State.encoded_pos]
    omega
  case advance =>
    simp only [State.pushBytes_pos, State.encoded_pos]
    omega
  case length =>
    simp only [State.pushBytes_pos, State.encoded_pos, encode_length]
    omega

theorem State.CanEncode.run_end (h : s.CanEncode) (hpos : s.pos = s.inLen) (n : Nat) :
    runCommand (n + 1) s = .next s.finished := by
  rw [runCommand_succ h.encoding.1 (step_of_encoder_end h.noReset h.encoding hpos), runCommand_of_not_busy (by simp)]

/-- The chunk steps and the end action, by induction over a bound on the pixels left: each step covers at least one of them. -/
theorem State.CanEncode.run {n : Nat} (h : s.CanEncode) (hn : s.inLen - s.pos ≤ n) :
    ∃ t bs, runCommand (n + 1) s = .next t.finished ∧ Emitted bs s t ∧ t.pos = s.inLen ∧
      bs.length ≤ 5 * (s.inLen - s.pos) := by
  induction n generalizing s with
  | zero =>
    have hpos : s.pos = s.inLen := Nat.le_antisymm h.posInPixels (Nat.le_of_sub_eq_zero (Nat.le_zero.mp hn))
    exact ⟨s, [], h.run_end hpos 0, .nil s, hpos, Nat.zero_le _⟩
  | succ n ih =>
    rcases h.posInPixels.eq_or_lt with hpos | hpos
    · exact ⟨s, [], h.run_end hpos _, .nil s, hpos, Nat.zero_le _⟩
    · obtain ⟨t, bs, hstep, ht, hem, hadvance, hlen⟩ := h.emits hpos
      have hin : t.inLen = s.inLen := hem.frame.kept.inLen
      have hle := ht.posInPixels
      obtain ⟨u, bs', hrun, hem', hend, hlen'⟩ := ih ht (by omega)
      refine ⟨u, bs ++ bs', ?_, hem.trans hem', hend.trans hin, ?_⟩
      · rw [runCommand_succ h.encoding.1 hstep, hrun]
      · rw [List.length_append]
        omega

section

variable (hr : s.resetAsserted = false) (hb : s.status ≠ .busy) (htags : s.tagsLegal = true)
  (hsize : s.inLen = s.width.toNat * s.height.toNat)
  (hpixels : ∀ j, j < s.inLen → (Buffer.read s.mem.pixIn j).isSome = true)
  (hcap : ∀ cap, s.cfg.outCap = some cap → 14 + 5 * s.inLen ≤ cap)

include hr hb htags hsize hpixels hcap

/-- ENC from its start to its end: the header and a body appended to an empty output, and the end action. -/
theorem completesWithin_enc : ∃ t body, CompletesWithin (s.inLen + 2) .enc s t.finished ∧
    Emitted (s.headerBytes ++ body) (s.started .enc).initialised t ∧ t.pos = s.inLen ∧ body.length ≤ 5 * s.inLen := by
  have hroom : (s.started .enc).initialised.fits (14 + 5 * s.inLen) = true := State.fits_of_cap (by simpa using hcap)
  have hentry := step_of_encEntry_match (s := s.started .enc) hr rfl rfl rfl hsize
    (State.fits_mono hroom (Nat.le_add_right 14 _))
  have hcan : ((s.started .enc).initialised.pushBytes s.headerBytes).CanEncode :=
    ⟨hr, ⟨rfl, rfl, rfl⟩, Nat.zero_le _, hpixels, by simpa [State.pushBytes_fits] using hroom⟩
  obtain ⟨t, body, hrun, hem, hpos, hlen⟩ := hcan.run (n := s.inLen) (Nat.sub_le _ _)
  refine ⟨t, body, ⟨_, exec_startOf_legal (c := .enc) hb fun _ => htags, ?_, by simp⟩, (Emitted.pushBytes _ _).trans hem,
    hpos, hlen⟩
  exact (runCommand_succ rfl hentry _).trans hrun

end

theorem Buffer.isSome_of_readSeq {α : Type} {b : Buffer α} {n : Nat} {xs : List α} (h : Buffer.readSeq b 0 n = some xs)
    (j : Nat) (hj : j < n) : (Buffer.read b j).isSome = true := by
  have hlen := Buffer.readSeq_length h
  have hget := Buffer.read_of_readSeq h hj
  rw [Nat.zero_add] at hget
  simp [hget, hlen, hj]

/-- Settles O51: the run of ENC, its output read from the Append of the header and the body to an empty buffer. -/
theorem encAlwaysEndsDone : Obligations.EncAlwaysEndsDone := by
  intro s px hr hb htags hsize hpx hcap
  obtain ⟨t, body, hrun, hem, hpos, hlen⟩ :=
    completesWithin_enc hr hb htags hsize (Buffer.isSome_of_readSeq hpx) hcap
  refine ⟨t.finished, body, hrun, rfl, hem.frame.err, hpos, ?output, ?outLen, hlen, hem.frame.kept.header,
    hem.frame.pixOut⟩
  case output => exact (if_pos rfl).trans (hem.output rfl)
  case outLen => simpa using hem.outLen

/-! ### An empty image (rules R162, R194) -/

/-- DEC of a stream that is one header and nothing more: the header's fields, no pixel, and the end action. -/
theorem completesWithin_dec_of_header_only {d : State} {m : Magic} {w h : Word} {ch cs : Byte}
    (hr : d.resetAsserted = false) (hb : d.status ≠ .busy) (hlen : d.inLen = 14) (hm : d.cfg.magic = m)
    (hch : legalChannels ch = true) (hcs : legalColorspace cs = true)
    (hbs : Buffer.readSeq d.mem.byteIn 0 14 = some (encodeHeader m w h ch cs)) :
    CompletesWithin 2 .dec d ((d.started .dec).headerWritten w h ch cs).initialised.finished := by
  have hdecode : decodeHeader d.cfg.magic (encodeHeader m w h ch cs) = .ok (.header w h ch cs, []) := by
    rw [hm, ← List.append_nil (encodeHeader m w h ch cs)]
    exact decodeHeader_encodeHeader m [] w h hch hcs
  have hentry : step (d.started .dec) = .next ((d.started .dec).headerWritten w h ch cs).initialised := by
    rw [stepRunsTheDecodedHeader (d.started .dec) _ _ _ hr rfl rfl (.inl rfl) hlen.ge hbs hdecode,
      execHeader_legal w h hch hcs, afterHeader_of_dec rfl]
  have hbody : 0 = ((d.started .dec).headerWritten w h ch cs).initialised.bodyLen :=
    (Nat.sub_eq_zero_of_le hlen.le).symm
  have hend := step_of_body_end (s := ((d.started .dec).headerWritten w h ch cs).initialised) hr
    (.inl ⟨rfl, rfl, rfl⟩) hbody
  refine ⟨_, exec_startOf_legal (c := .dec) hb (by simp [isEncoding]), ?_, by simp⟩
  rw [runCommand_succ rfl hentry, runCommand_succ rfl hend, runCommand]

/-- Settles O54: a body of at most `5 * 0` bytes is empty, and after the header's 14 bytes nothing is left to decode. -/
theorem emptyImageIsHeaderOnly : Obligations.EmptyImageIsHeaderOnly := by
  intro s d hr hb htags hin hempty hcap hdr hdb hdin hcfg hbs
  have hsize : s.inLen = s.width.toNat * s.height.toNat := by
    rcases hempty with h | h <;> simp [hin, h]
  obtain ⟨t, body, hrun, hem, -, hlen⟩ := completesWithin_enc hr hb htags hsize (by simp [hin]) (by simp [hcap])
  obtain rfl : body = [] := by simpa [hin] using hlen
  obtain ⟨hch, hcs⟩ := Bool.and_eq_true_iff.mp htags
  rw [hin] at hrun
  rw [List.append_nil] at hem
  refine ⟨_, _, hrun, rfl, hem.outLen, ?bytes,
    completesWithin_dec_of_header_only hdr hdb hdin (by rw [hcfg]) hch hcs hbs, rfl, rfl, rfl⟩
  case bytes => exact (if_pos rfl).trans ((hem.output rfl).trans hbs.symm)

/-! ### What the encoder chooses (rules R152 to R158, R164) -/

/-- Settles O38: exactly this many equal pixels follow, so the choice is the run of one more. -/
theorem encoderEmitsTheLongestRun : Obligations.EncoderEmitsTheLongestRun := by
  intro s extra hr he hpos hread hmax hequal hstops hroom
  have hc : chooseChunk s = some ⟨.run (extra + 1), s.prev, extra + 1, false⟩ :=
    chooseChunk_eq_some_iff.mpr ⟨s.prev, hread, .inl ⟨rfl, extra, ⟨hmax, hequal, hstops⟩, rfl⟩⟩
  have hbyte : encode s.cfg.magic (.run (extra + 1)) = [BitVec.ofNat 8 (192 + extra)] := by
    rw [encode_run _ (by omega)]
    congr 2
    omega
  have hem := Emitted.of_choice s ⟨.run (extra + 1), s.prev, extra + 1, false⟩ [BitVec.ofNat 8 (192 + extra)]
  refine ⟨_, step_of_choice hr he hpos hc hroom, by simp, by simp, by simp [Nat.add_assoc], ?_⟩
  rw [hbyte]
  exact ⟨hem.outLen, Buffer.read_of_readSeq hem.bytes Nat.one_pos, hem.frame⟩

/-- Settles O39: the choice is the slot, and no other part of the state has a say in it. -/
theorem encoderEmitsCacheHits : Obligations.EncoderEmitsCacheHits := by
  intro s p hr he hpos hread hne hhit hroom
  have hc : chooseChunk s = some ⟨.index (pixelHash p), p, 1, false⟩ :=
    chooseChunk_eq_some_iff.mpr ⟨p, hread, .inr (.inl ⟨hne, hhit, rfl⟩)⟩
  have hem := Emitted.of_choice s ⟨.index (pixelHash p), p, 1, false⟩ (encode s.cfg.magic (.index (pixelHash p)))
  exact ⟨_, step_of_choice hr he hpos hc hroom, by simp, by simp, by simp, hem.outLen,
    Buffer.read_of_readSeq hem.bytes Nat.one_pos, hem.frame⟩

/-- The bytes of the delta/literal path: alpha change, DIFF, LUMA, RGB (rules R85 to R88, R155 to R158). -/
theorem encode_literalChunk (m : Magic) (prev p : Pixel) :
    encode m (literalChunk prev p) =
      if p.a ≠ prev.a then [0xFF, p.r, p.g, p.b, p.a]
      else if diffFits (delta p.r prev.r) (delta p.g prev.g) (delta p.b prev.b) then
        [BitVec.ofInt 8 (64 + (delta p.r prev.r + 2) * 16 + (delta p.g prev.g + 2) * 4 + (delta p.b prev.b + 2))]
      else if lumaFits (delta p.r prev.r) (delta p.g prev.g) (delta p.b prev.b) then
        [BitVec.ofInt 8 (128 + (delta p.g prev.g + 32)),
          BitVec.ofInt 8 ((delta p.r prev.r - delta p.g prev.g + 8) * 16 + (delta p.b prev.b - delta p.g prev.g + 8))]
      else [0xFE, p.r, p.g, p.b] := by
  unfold literalChunk
  split_ifs with ha hdiff hluma
  · rfl
  · exact encode_diff m hdiff
  · obtain ⟨hg0, hg1, hr0, hr1, hb0, hb1⟩ := lumaFits_iff.mp hluma
    exact encode_luma m ⟨hg0, hg1⟩ ⟨hr0, hr1⟩ ⟨hb0, hb1⟩
  · rfl

/-- Settles O40: the choice is the literal, whose bytes are the nested `if` of the four conditions. -/
theorem encoderTriesAlphaDiffLumaRgb : Obligations.EncoderTriesAlphaDiffLumaRgb := by
  intro s p hr he hpos hread hne hmiss hroom dr dg db small larger
  have hc : chooseChunk s = some ⟨literalChunk s.prev p, p, 1, true⟩ :=
    chooseChunk_eq_some_iff.mpr ⟨p, hread, .inr (.inr ⟨hne, hmiss, rfl⟩)⟩
  obtain ⟨-, -, -, hlen, -⟩ := chooseChunk_shape hc
  have hem := Emitted.of_choice s ⟨literalChunk s.prev p, p, 1, true⟩ (encode s.cfg.magic (literalChunk s.prev p))
  have hsmall : diffFits dr dg db = true ↔ small := diffFits_iff
  have hlarger : lumaFits dr dg db = true ↔ larger := lumaFits_iff
  refine ⟨_, _, step_of_choice hr he hpos hc (State.fits_mono hroom hlen), by simp, by simp, ?_, ?_, hem.outLen,
    hem.bytes, hem.frame, ?_⟩
  · exact cacheInsert_same s.cache p
  · exact fun k => cacheInsert_other s.cache p
  · rw [encode_literalChunk]
    refine ⟨fun ha => if_pos ha, fun ha hs => ?diff, fun ha hs hl => ?luma, fun ha hs hl => ?rgb⟩
    case diff => rw [if_neg (not_not.mpr ha), if_pos (hsmall.mpr hs)]
    case luma => rw [if_neg (not_not.mpr ha), if_neg (mt hsmall.mp hs), if_pos (hlarger.mpr hl)]
    case rgb => rw [if_neg (not_not.mpr ha), if_neg (mt hsmall.mp hs), if_neg (mt hlarger.mp hl)]

theorem moveBy_zero (p : Pixel) : moveBy p 0 0 0 = p := by
  have happly : ∀ b : Byte, applyDelta b 0 = b := fun b => wrap8_eq_of_emod (by have := b.isLt; omega)
  simp only [moveBy, happly]

/-- Deltas that are all 0 lead from `prev` to `prev` alone. -/
theorem literalChunk_ne_diff_zero {prev p : Pixel} (hne : p ≠ prev) : literalChunk prev p ≠ .diff 0 0 0 := by
  intro hzero
  rcases literalChunk_cases prev p with ⟨-, h⟩ | ⟨ha, -, h⟩ | ⟨-, -, -, h⟩ | ⟨-, -, -, h⟩ <;>
    simp only [h, reduceCtorEq, Instr.diff.injEq] at hzero
  obtain ⟨hr, hg, hb⟩ := hzero
  have hmove := moveBy_delta ha
  rw [hr, hg, hb, moveBy_zero] at hmove
  exact hne hmove.symm

theorem literalChunk_ne_run (prev p : Pixel) (n : Nat) : literalChunk prev p ≠ .run n := by
  rcases literalChunk_cases prev p with ⟨-, h⟩ | ⟨-, -, h⟩ | ⟨-, -, -, h⟩ | ⟨-, -, -, h⟩ <;> simp [h]

theorem literalChunk_ne_index (prev p : Pixel) (k : Slot) : literalChunk prev p ≠ .index k := by
  rcases literalChunk_cases prev p with ⟨-, h⟩ | ⟨-, -, h⟩ | ⟨-, -, -, h⟩ | ⟨-, -, -, h⟩ <;> simp [h]

/-- A run is chosen only for a pixel equal to `prev` (rule R152). -/
theorem read_of_chooseChunk_run {n : Nat} (hc : chooseChunk s = some c) (hrun : c.chunk = .run n) :
    Buffer.read s.mem.pixIn s.pos = some s.prev := by
  obtain ⟨p, hread, ⟨rfl, -⟩ | ⟨-, -, rfl⟩ | ⟨-, -, rfl⟩⟩ := chooseChunk_eq_some_iff.mp hc
  · exact hread
  · cases hrun
  · exact absurd hrun (literalChunk_ne_run _ _ n)

/-- A run stopped neither by its count nor by the end of the input is stopped by another pixel, for which no run is chosen. -/
theorem no_run_after_short_run {c' : Choice} {e n : Nat} (hruns : RunsTo s.mem.pixIn s.inLen s.prev 61 (s.pos + 1) e)
    (hshort : e < 61) (hmore : s.pos + 1 + e < s.inLen)
    (hc' : chooseChunk (s.encoded ⟨.run (e + 1), s.prev, e + 1, false⟩) = some c') : c'.chunk ≠ .run n := by
  intro hrun
  have hagain := read_of_chooseChunk_run hc' hrun
  simp only [State.encoded_mem, State.encoded_pos, State.encoded_prev] at hagain
  rw [Nat.add_comm e, ← Nat.add_assoc] at hagain
  rcases hruns.stops with hcount | hend | ⟨q, hne, hq⟩
  · omega
  · omega
  · exact hne (Option.some.inj (hq.symm.trans hagain))

/-- Settles O41, path by path: a run is stopped as `RunsTo` says, a hit is the pixel's own slot, a literal has its condition. -/
theorem encoderNeverChooses : Obligations.EncoderNeverChooses := by
  intro s c hc
  obtain ⟨hwf, hspace, -⟩ := chooseChunk_shape hc
  refine ⟨hwf, hspace, ?_⟩
  obtain ⟨p, hread, ⟨rfl, e, hruns, rfl⟩ | ⟨hne, hhit, rfl⟩ | ⟨hne, hmiss, rfl⟩⟩ := chooseChunk_eq_some_iff.mp hc
  · -- a run
    refine ⟨by simp, by simp, fun hno => absurd rfl (hno (e + 1)), by simp, by simp, ?_⟩
    rintro n c' ⟨⟩ hshort hmore hc' n'
    exact no_run_after_short_run hruns (by omega) (by omega) hc'
  · -- a cache hit
    refine ⟨by simp, ?_, fun _ _ => rfl, by simp, by simp, by simp⟩
    rintro k ⟨⟩
    exact ⟨rfl, hne⟩
  · -- the delta/literal path
    refine ⟨literalChunk_ne_diff_zero hne, fun k hk => absurd hk (literalChunk_ne_index _ _ k),
      fun _ hcached => absurd hcached hmiss, ?rgba, ?rgb, fun n _ hn => absurd hn (literalChunk_ne_run _ _ n)⟩
    case rgba =>
      intro r g b a h
      rcases literalChunk_cases s.prev p with ⟨ha, h'⟩ | ⟨-, -, h'⟩ | ⟨-, -, -, h'⟩ | ⟨-, -, -, h'⟩ <;>
        cases h'.symm.trans h
      exact ha
    case rgb =>
      intro r g b h
      rcases literalChunk_cases s.prev p with ⟨-, h'⟩ | ⟨-, -, h'⟩ | ⟨-, -, -, h'⟩ | ⟨ha, hdiff, hluma, h'⟩ <;>
        cases h'.symm.trans h
      exact ⟨ha, hdiff, hluma⟩

/-! ### Choosing LUMA (rule R157) -/

/-- No integer in this range comes near 0 by wrapping. -/
theorem s8_nearZero_iff {x : Int} (hx : -248 ≤ x ∧ x < 248) : -8 ≤ s8 x ∧ s8 x ≤ 7 ↔ -8 ≤ x ∧ x ≤ 7 := by
  rw [s8_eq]
  split <;> omega

/-- Settles O19: with green in its range a relative delta lies between -159 and 159. -/
theorem lumaTestIgnoresWrapping : Obligations.LumaTestIgnoresWrapping := by
  intro c p dr dg db
  have hdr : -128 ≤ dr ∧ dr ≤ 127 := s8_range _
  have hdb : -128 ≤ db ∧ db ≤ 127 := s8_range _
  rw [lumaFits_iff]
  refine and_congr_right fun hlow => and_congr_right fun hhigh => ?_
  have hred := s8_nearZero_iff (x := dr - dg) (by omega)
  have hblue := s8_nearZero_iff (x := db - dg) (by omega)
  tauto

end Sys2Proof.Machine
end

section
/-! Proofs of O22 to O28 and O31: the meaning of each of the six chunks, and the step of a body that runs or refuses one. -/

namespace Sys2Proof.Machine

variable {s t u : State} {i : Instr} {ps ps' : List Pixel}

/-! ### Pixels appended (rules R14, R53) -/

/-- From `s` to `t` the decoder appended exactly `ps` to its output and kept everything that `DecoderFrame` names. -/
structure Appended (ps : List Pixel) (s t : State) : Prop where
  frame : DecoderFrame ps.length s t
  outLen : t.outLen = s.outLen + ps.length
  pixels : Buffer.readSeq t.mem.pixOut s.outLen ps.length = some ps

theorem Appended.nil (s : State) : Appended [] s s where
  frame := ⟨⟨rfl, rfl, rfl, rfl, rfl, rfl, rfl, rfl⟩, rfl, rfl, rfl, rfl, fun _ _ => rfl⟩
  outLen := rfl
  pixels := rfl

/-- What was appended first stands before what is appended next. -/
theorem Appended.trans (h : Appended ps s t) (h' : Appended ps' t u) : Appended (ps ++ ps') s u := by
  have hout := h.outLen
  have hout' := h'.outLen
  have hfirst : Buffer.readSeq u.mem.pixOut s.outLen ps.length = some ps :=
    (Buffer.readSeq_congr _ _ fun j _ hj => h'.frame.pixOut j (.inl (by omega))).trans h.pixels
  have hnext : Buffer.readSeq u.mem.pixOut (s.outLen + ps.length) ps'.length = some ps' := hout ▸ h'.pixels
  refine ⟨⟨h.frame.kept.trans h'.frame.kept, h'.frame.status.trans h.frame.status, h'.frame.err.trans h.frame.err,
    h'.frame.phase.trans h.frame.phase, h'.frame.byteOut.trans h.frame.byteOut, fun j hj => ?outside⟩, ?outLen, ?pixels⟩
  case outside =>
    rw [List.length_append] at hj
    rw [h'.frame.pixOut j (by omega), h.frame.pixOut j (by omega)]
  case outLen => rw [hout', hout, List.length_append, Nat.add_assoc]
  case pixels => rw [List.length_append]; exact Buffer.readSeq_append hfirst hnext

/-- Pixels appended to an empty output are the whole output. -/
theorem Appended.output (h : Appended ps s t) (hempty : s.outLen = 0) :
    Buffer.readSeq t.mem.pixOut 0 t.outLen = some ps := by
  rw [h.outLen, hempty, Nat.zero_add]
  exact hempty ▸ h.pixels

/-! ### What a chunk stands for -/

/-- The pixel a chunk stands for, after `prev` and with this cache (rules R182 to R187). -/
def chunkPixel (prev : Pixel) (cache : Vector Pixel 64) : Instr → Pixel
  | .index slot => cacheGet cache slot
  | .diff dr dg db => moveBy prev dr dg db
  | .luma dg drDg dbDg => moveBy prev (drDg + dg) dg (dbDg + dg)
  | .rgb r g b => ⟨r, g, b, 255⟩
  | .rgba r g b a => ⟨r, g, b, a⟩
  | .run _ | .header _ _ _ _ | .nop | .enc | .dec | .decBody | .encHdr | .decHdr => prev

/-- Whether that pixel is inserted into the cache (rules R182 to R187). -/
def chunkInserts : Instr → Bool
  | .diff _ _ _ | .luma _ _ _ | .rgb _ _ _ | .rgba _ _ _ _ => true
  | .index _ | .run _ | .header _ _ _ _ | .nop | .enc | .dec | .decBody | .encHdr | .decHdr => false

/-- What the decoder makes of a chunk, as the choice an encoder in its place would have made. -/
def State.reading (s : State) (i : Instr) : Choice :=
  ⟨i, chunkPixel s.prev s.cache i, pixelsProduced i, chunkInserts i⟩

/-- The state after a chunk that is there whole and has room. -/
def State.decoded (s : State) (i : Instr) : State := s.mirrored (s.reading i)

@[simp] theorem State.decoded_prev (s : State) (i : Instr) : (s.decoded i).prev = chunkPixel s.prev s.cache i := by
  simp [State.decoded, State.mirrored, State.reading]

@[simp] theorem State.decoded_pos (s : State) (i : Instr) : (s.decoded i).pos = s.pos + i.byteLength := by
  simp [State.decoded, State.mirrored, State.reading]

@[simp] theorem State.decoded_cache (s : State) (i : Instr) : (s.decoded i).cache =
    if chunkInserts i then cacheInsert s.cache (chunkPixel s.prev s.cache i) else s.cache := by
  simp [State.decoded, State.mirrored, State.reading]

/-- A decoded chunk appends its pixel as often as it stands for it (rule R90). -/
theorem Appended.decoded (s : State) (i : Instr) :
    Appended (List.replicate (pixelsProduced i) (chunkPixel s.prev s.cache i)) s (s.decoded i) := by
  rw [State.decoded, State.mirrored, State.encoded_eq]
  exact ⟨⟨⟨rfl, rfl, rfl, rfl, rfl, rfl, rfl, rfl⟩, rfl, rfl, rfl, rfl, fun _ => Buffer.read_writeSeq_outside _ _ _ _⟩, rfl,
    Buffer.readSeq_writeSeq ..⟩

/-- A chunk of several bytes that is there whole (rules R184 to R186). -/
theorem ifAvailable_emitInserted_of_room {n : Nat} (hn : n ≠ 1) (havail : n = 1 ∨ s.pos + n ≤ s.bodyLen)
    (hroom : s.fits 1 = true) (px : Pixel) :
    ifAvailable n s (emitInserted px n s) = .next (((s.inserted px).stepped px n).pushPixels [px]) :=
  (ifAvailable_of_le (havail.resolve_left hn)).trans (appendPixels_of_fits hroom)

/-- The meaning of every chunk that is there whole and has room. -/
theorem exec_chunk_whole (hi : i.space = .body) (havail : i.byteLength = 1 ∨ s.pos + i.byteLength ≤ s.bodyLen)
    (hroom : s.fits (pixelsProduced i) = true) : exec i s = .next (s.decoded i) := by
  cases i with
  | index slot => exact appendPixels_of_fits hroom
  | diff dr dg db => exact appendPixels_of_fits hroom
  | luma dg drDg dbDg => exact ifAvailable_emitInserted_of_room (n := 2) (by decide) havail hroom _
  | rgb r g b => exact ifAvailable_emitInserted_of_room (n := 4) (by decide) havail hroom _
  | rgba r g b a => exact ifAvailable_emitInserted_of_room (n := 5) (by decide) havail hroom _
  | run count => exact appendPixels_of_fits (by rwa [List.length_replicate])
  | header | nop | enc | dec | decBody | encHdr | decHdr => cases hi

/-! ### The six chunks -/

/-- A channel moved by a delta, as an integer (rule R13). -/
theorem applyDelta_toNat (b : Byte) (x : Int) : ((applyDelta b x).toNat : Int) = (b.toNat + x) % 256 := wrap8_toNat _

/-- What the chunks that insert their pixel have in common (rules R183 to R186). -/
theorem decoded_of_inserts (s : State) (hins : chunkInserts i = true) :
    (s.decoded i).cache[pixelHash (s.decoded i).prev] = (s.decoded i).prev ∧
      (∀ k, k ≠ pixelHash (s.decoded i).prev → (s.decoded i).cache[k] = s.cache[k]) ∧
      (s.decoded i).pos = s.pos + i.byteLength ∧ (s.decoded i).outLen = s.outLen + 1 ∧
      Buffer.read (s.decoded i).mem.pixOut s.outLen = some (s.decoded i).prev ∧ DecoderFrame 1 s (s.decoded i) := by
  have hone : pixelsProduced i = 1 := by
    cases i with
    | diff | luma | rgb | rgba => rfl
    | index | run | header | nop | enc | dec | decBody | encHdr | decHdr => cases hins
  have happ := Appended.decoded s i
  rw [hone, ← State.decoded_prev] at happ
  have hcache : (s.decoded i).cache = cacheInsert s.cache (s.decoded i).prev := by simp [hins]
  rw [hcache]
  exact ⟨cacheInsert_same _ _, fun _ => cacheInsert_other _ _, State.decoded_pos s i, happ.outLen,
    Buffer.read_of_readSeq happ.pixels Nat.one_pos, happ.frame⟩

/-- Settles O22: INDEX is the chunk whose pixel is its slot's, not inserted. -/
theorem indexFetchesFromTheCache : Obligations.IndexFetchesFromTheCache := by
  intro s slot hroom
  have happ := Appended.decoded s (.index slot)
  exact ⟨_, exec_chunk_whole rfl (.inl rfl) hroom, rfl, rfl, rfl, happ.outLen,
    Buffer.read_of_readSeq happ.pixels Nat.one_pos, happ.frame⟩

/-- Settles O23: each channel is `applyDelta`'s integer modulo 256, the rest is common to the chunks that insert. -/
theorem diffAddsDeltasToPrev : Obligations.DiffAddsDeltasToPrev :=
  fun s _ _ _ hroom => ⟨_, exec_chunk_whole rfl (.inl rfl) hroom, applyDelta_toNat _ _, applyDelta_toNat _ _,
    applyDelta_toNat _ _, rfl, decoded_of_inserts s rfl⟩

/-- Settles O24: as DIFF, with red and blue moved by green's delta too, behind the availability check. -/
theorem lumaAddsGreenRelativeDeltas : Obligations.LumaAddsGreenRelativeDeltas := by
  refine fun s dg drDg dbDg hroom => ⟨fun havail => ?whole, fun hcut => ifAvailable_of_lt hcut⟩
  case whole =>
    exact ⟨_, exec_chunk_whole rfl (.inr havail) hroom, applyDelta_toNat _ _, applyDelta_toNat _ _,
      applyDelta_toNat _ _, rfl, decoded_of_inserts s rfl⟩

/-- Settles O25: the pixel is the chunk's own, behind the availability check. -/
theorem rgbForcesAlphaOpaque : Obligations.RgbForcesAlphaOpaque :=
  fun s _ _ _ hroom => ⟨fun havail => ⟨_, exec_chunk_whole rfl (.inr havail) hroom, rfl, decoded_of_inserts s rfl⟩,
    fun hcut => ifAvailable_of_lt hcut⟩

/-- Settles O26: the pixel is the chunk's own, behind the availability check. -/
theorem rgbaTakesAllChannels : Obligations.RgbaTakesAllChannels :=
  fun s _ _ _ _ hroom => ⟨fun havail => ⟨_, exec_chunk_whole rfl (.inr havail) hroom, rfl, decoded_of_inserts s rfl⟩,
    fun hcut => ifAvailable_of_lt hcut⟩

/-- Settles O27: RUN is the chunk whose pixel is `prev`, `count` times and not inserted. -/
theorem runRepeatsPrev : Obligations.RunRepeatsPrev := by
  intro s count hroom
  obtain ⟨hframe, houtLen, hpixels⟩ := Appended.decoded s (.run count)
  rw [List.length_replicate] at hframe houtLen hpixels
  exact ⟨_, exec_chunk_whole rfl (.inl rfl) hroom, rfl, rfl, rfl, houtLen, hpixels, hframe⟩

/-! ### The step of a body (rules R181, R189) -/

variable {b0 : Byte}

/-- The chunks of one byte, by the first byte (rule R91). -/
theorem chunkLen_eq_one (h : b0.toNat < 128 ∨ (192 ≤ b0.toNat ∧ b0.toNat < 254)) : chunkLen b0 = 1 := by
  rcases firstByte_cases b0 with hi | hd | hl | hr | rfl | rfl
  · exact (decodeChunk_length (decodeChunk_index hi [])).1.symm
  · exact (decodeChunk_length (decodeChunk_diff hd [])).1.symm
  · omega
  · exact (decodeChunk_length (decodeChunk_run hr [])).1.symm
  · exact absurd h (by decide)
  · exact absurd h (by decide)

theorem chunkLen_luma (h : 128 ≤ b0.toNat ∧ b0.toNat < 192) : chunkLen b0 = 2 :=
  (decodeChunk_length (decodeChunk_luma h 0 [])).1.symm

/-- Only LUMA, RGB and RGBA have more than one byte (rule R91). -/
theorem firstByte_of_long (h : 1 < chunkLen b0) :
    b0.toNat = 254 ∨ b0.toNat = 255 ∨ (128 ≤ b0.toNat ∧ b0.toNat < 192) := by
  by_contra hshort
  have hb := b0.isLt
  have := chunkLen_eq_one (b0 := b0) (by omega)
  omega

/-- Settles O28: a chunk of one byte is never cut short, and the fetch of a longer one raises before anything is run. -/
theorem stepRaisesDecodeErrorPrecisely : Obligations.StepRaisesDecodeErrorPrecisely := by
  intro s b0 hr hd hpos hb0 hcut
  refine ⟨firstByte_of_long (by omega), ?_⟩
  have hmiss : ¬ s.pos + chunkLen b0 ≤ s.bodyLen := by omega
  rw [step_of_body hr hd, fetchChunk, if_pos hpos, hb0]
  simp only [hmiss, if_false, perform_outcome]
  rfl

/-- Bytes that decode with others behind them decode alone (rule R83). -/
theorem decodeChunk_of_append {bs rest : List Byte} (h : decodeChunk (bs ++ rest) = .ok (i, rest)) :
    decodeChunk bs = .ok (i, []) := by
  obtain ⟨hw, hbs⟩ := encode_decodeChunk Config.standard.magic h
  have hdec := decode_encode Config.standard.magic [] hw
  rw [decodeChunk_space h, ← List.append_cancel_right hbs, List.append_nil] at hdec
  exact hdec

theorem fetchChunk_of_decodes {bs : List Byte} (hi : decodeChunk bs = .ok (i, []))
    (havail : s.pos + i.byteLength ≤ s.bodyLen)
    (hbs : Buffer.readSeq s.mem.byteIn (s.bodyBase + s.pos) i.byteLength = some bs) : fetchChunk s = .run i s := by
  obtain _ | ⟨b0, tl⟩ := bs
  · cases hi
  have hlen : i.byteLength = chunkLen b0 := (decodeChunk_length hi).1
  have hmin := (chunkLen_bounds b0).1
  have hb0 : Buffer.read s.mem.byteIn (s.bodyBase + s.pos) = some b0 := Buffer.read_of_readSeq (k := 0) hbs (by omega)
  have hpos : s.pos < s.bodyLen := by omega
  rw [hlen] at havail hbs
  simp only [fetchChunk, hpos, hb0, havail, hbs, hi, if_true]

/-- Settles O31: the fetched bytes are exactly those that decode to `i`, and the fetch runs what they decode to. -/
theorem stepRunsTheDecodedChunk : Obligations.StepRunsTheDecodedChunk := by
  intro s i bs rest hr hd havail hbs hi
  rw [step_of_body hr hd, fetchChunk_of_decodes (decodeChunk_of_append hi) havail hbs, perform_run]

end Sys2Proof.Machine
end

section
/-! Proofs of O59, O52 and O53: the body decoder of the engine and the byte-serial machine over any body, and the whole runs of
DEC_BODY and DEC. -/

namespace Sys2Proof.Machine

variable {s d u : State} {i : Instr} {px : List Pixel} {bs : List Byte} {b0 : Byte} {x : SerialState} {n : Nat}

/-! ### The byte-serial machine over one chunk (rule R190) -/

section

variable (m : Serial)

theorem serialTag_index (h : b0.toNat < 64) : serialTag m b0 =
    ⟨.tag, cacheGet m.cache (slotField b0), m.cache, m.out ++ [cacheGet m.cache (slotField b0)]⟩ := by
  have htop : bits b0 7 6 = 0 := by rw [bits_7_6]; omega
  simp [serialTag, not_fullByteTag (b0 := b0) (by omega), htop]

theorem serialTag_diff (h : 64 ≤ b0.toNat ∧ b0.toNat < 128) : serialTag m b0 =
    serialInsert m (moveBy m.prev (bits b0 5 4 - 2) (bits b0 3 2 - 2) (bits b0 1 0 - 2)) := by
  have htop : bits b0 7 6 = 1 := by rw [bits_7_6]; omega
  simp [serialTag, not_fullByteTag (b0 := b0) (by omega), htop]

theorem serialTag_luma (h : 128 ≤ b0.toNat ∧ b0.toNat < 192) : serialTag m b0 = { m with expects := .luma1 b0 } := by
  have htop : bits b0 7 6 = 2 := by rw [bits_7_6]; omega
  simp [serialTag, not_fullByteTag (b0 := b0) (by omega), htop]

theorem serialTag_run (h : 192 ≤ b0.toNat ∧ b0.toNat < 254) : serialTag m b0 =
    { m with out := m.out ++ List.replicate (bits b0 5 0 + 1) m.prev } := by
  have htop : bits b0 7 6 = 3 := by rw [bits_7_6]; omega
  simp [serialTag, not_fullByteTag (b0 := b0) (by omega), htop]

end

/-- The byte-serial machine between two chunks, with the `prev` and the cache of `s`, after appending `out`. -/
def State.serial (s : State) (out : List Pixel) : Serial := ⟨.tag, s.prev, s.cache, out⟩

/-- Over the bytes of one chunk the byte-serial machine comes to what the engine leaves, by the range of the first byte. -/
theorem foldl_serialByte_of_decodes (hi : decodeChunk bs = .ok (i, [])) (s : State) (out : List Pixel) :
    bs.foldl serialByte (s.serial out) =
      (s.decoded i).serial (out ++ List.replicate (pixelsProduced i) (chunkPixel s.prev s.cache i)) := by
  obtain _ | ⟨b0, tl⟩ := bs
  · cases hi
  rcases firstByte_cases b0 with h | h | h | h | rfl | rfl
  · cases (decodeChunk_index h tl).symm.trans hi
    exact serialTag_index _ h
  · cases (decodeChunk_diff h tl).symm.trans hi
    exact serialTag_diff _ h
  · obtain _ | ⟨b1, tl⟩ := tl
    · cases (decodeChunk_luma_truncated h).symm.trans hi
    cases (decodeChunk_luma h b1 tl).symm.trans hi
    exact congrArg (serialByte · b1) (serialTag_luma _ h)
  · cases (decodeChunk_run h tl).symm.trans hi
    exact serialTag_run _ h
  · obtain _ | ⟨r, _ | ⟨g, _ | ⟨b, tl⟩⟩⟩ := tl <;> cases hi
    rfl
  · obtain _ | ⟨r, _ | ⟨g, _ | ⟨b, _ | ⟨a, tl⟩⟩⟩⟩ := tl <;> cases hi
    rfl

/-- Over a chunk cut short it takes the bytes and changes nothing else. -/
theorem foldl_serialByte_of_cut {tl : List Byte} (hcut : tl.length + 1 < chunkLen b0) (s : State) :
    ∃ x, x ≠ .tag ∧ ∀ out, (b0 :: tl).foldl serialByte (s.serial out) = { s.serial out with expects := x } := by
  rcases firstByte_cases b0 with h | h | h | h | rfl | rfl
  · rw [chunkLen_eq_one (by omega)] at hcut
    omega
  · rw [chunkLen_eq_one (by omega)] at hcut
    omega
  · rw [chunkLen_luma h] at hcut
    obtain rfl : tl = [] := List.eq_nil_of_length_eq_zero (by omega)
    exact ⟨.luma1 b0, by simp, fun _ => serialTag_luma _ h⟩
  · rw [chunkLen_eq_one (by omega)] at hcut
    omega
  · change tl.length + 1 < 4 at hcut
    obtain _ | ⟨r, _ | ⟨g, _ | ⟨b, tl⟩⟩⟩ := tl
    · exact ⟨.rgb1, by simp, fun _ => rfl⟩
    · exact ⟨.rgb2 r, by simp, fun _ => rfl⟩
    · exact ⟨.rgb3 r g, by simp, fun _ => rfl⟩
    · simp only [List.length_cons] at hcut
      omega
  · change tl.length + 1 < 5 at hcut
    obtain _ | ⟨r, _ | ⟨g, _ | ⟨b, _ | ⟨a, tl⟩⟩⟩⟩ := tl
    · exact ⟨.rgba1, by simp, fun _ => rfl⟩
    · exact ⟨.rgba2 r, by simp, fun _ => rfl⟩
    · exact ⟨.rgba3 r g, by simp, fun _ => rfl⟩
    · exact ⟨.rgba4 r g b, by simp, fun _ => rfl⟩
    · simp only [List.length_cons] at hcut
      omega

/-! ### The chunk steps of the engine over a body (rules R180, R181, R192) -/

/-- A body decoder whose every byte to come is there, with room for 62 pixels a byte. -/
structure State.CanDecode (d : State) (bs : List Byte) : Prop where
  noReset : d.resetAsserted = false
  decoding : d.inBody
  rest : d.restIs bs
  room : d.fits (62 * bs.length) = true

/-- Room after an Append is what is left of the room before it (rule R54). -/
theorem Appended.fits (h : Appended px s u) (n : Nat) : u.fits n = s.fits (px.length + n) := by
  simp only [State.fits, h.frame.kept.cfg, h.outLen, Nat.add_assoc]

/-- Where the body starts and ends depends on CMD and IN_LEN alone. -/
theorem RegsKept.running (h : RegsKept s u) : u.running = s.running := congrArg commandOf h.cmd

theorem RegsKept.bodyBase (h : RegsKept s u) : u.bodyBase = s.bodyBase := by
  simp only [State.bodyBase, h.running]

theorem RegsKept.bodyLen (h : RegsKept s u) : u.bodyLen = s.bodyLen := by
  simp only [State.bodyLen, h.bodyBase, h.inLen]

/-- What is left of the body after its first `k` bytes. -/
theorem State.restIs.drop (h : s.restIs bs) {k : Nat} (hk : k ≤ bs.length) (hkept : RegsKept s u) (hpos : u.pos = s.pos + k) :
    u.restIs (bs.drop k) := by
  obtain ⟨hlen, hread⟩ := h
  have hsub := Buffer.readSeq_sub hread k (bs.length - k) (by omega)
  rw [List.take_of_length_le (by simp)] at hsub
  refine ⟨?_, ?_⟩
  · rw [hpos, hkept.bodyLen, List.length_drop]
    omega
  · rw [hpos, hkept.bodyBase, hkept.byteIn, List.length_drop, ← Nat.add_assoc]
    exact hsub

/-- A whole chunk takes at most the room of its bytes, so a body decoder goes on as it began. -/
theorem State.CanDecode.decodes {tl : List Byte} (h : d.CanDecode (b0 :: tl)) (hle : chunkLen b0 ≤ tl.length + 1) :
    ∃ i, decodeChunk ((b0 :: tl).take (chunkLen b0)) = .ok (i, []) ∧ step d = .next (d.decoded i) ∧
      (d.decoded i).CanDecode ((b0 :: tl).drop (chunkLen b0)) := by
  obtain ⟨i, hi, hstep⟩ := (step_of_rest h.noReset h.decoding h.rest).1 hle
  obtain ⟨hlen, -, hmax⟩ := decodeChunk_length hi
  have hmin := (chunkLen_bounds b0).1
  have hlen : i.byteLength = chunkLen b0 := by rwa [List.take_cons hmin] at hlen
  have hroom := h.room
  have hend := h.rest.1
  rw [List.length_cons] at hroom hend
  have happ := Appended.decoded d i
  refine ⟨i, hi, ?step, ?noReset, ?decoding, ?rest, ?room⟩
  case step => rw [hstep, exec_chunk_whole (decodeChunk_space hi) (.inr (by omega)) (State.fits_mono hroom (by omega))]
  case noReset => exact happ.frame.kept.resetAsserted.trans h.noReset
  case decoding =>
    exact (State.inBody_congr happ.frame.status happ.frame.phase happ.frame.kept.running).mpr h.decoding
  case rest => exact h.rest.drop hle happ.frame.kept (by rw [State.decoded_pos, hlen])
  case room =>
    rw [happ.fits, List.length_replicate, List.length_drop, List.length_cons]
    exact State.fits_mono hroom (by omega)

/-- How the decoding of `bs` ends, from `d` within `k` steps: in `u` with `px` appended, where the byte-serial machine holds the
same and expects `x`; then the end action where `x` is a first byte, else DecodeError. -/
structure BodyEnds (k : Nat) (bs : List Byte) (d u : State) (px : List Pixel) (x : SerialState) : Prop where
  appended : Appended px d u
  bound : px.length ≤ 62 * bs.length
  serial : ∀ out, bs.foldl serialByte (d.serial out) = { u.serial (out ++ px) with expects := x }
  ends : x = .tag → u.pos = u.bodyLen ∧ runCommand k d = .next u.finished
  raises : x ≠ .tag → runCommand k d = .next (u.raised .decodeError)

/-- A body used up. -/
theorem BodyEnds.nil (h : d.CanDecode []) : BodyEnds (n + 1) [] d d [] .tag where
  appended := .nil d
  bound := Nat.zero_le _
  serial out := by rw [List.append_nil]; rfl
  ends _ := by
    have hend : d.pos = d.bodyLen := h.rest.1
    exact ⟨hend, by
      rw [runCommand_succ h.decoding.busy (step_of_body_end h.noReset h.decoding hend), runCommand_of_not_busy (by simp)]⟩
  raises hx := absurd rfl hx

/-- A chunk cut short. -/
theorem BodyEnds.cut {tl : List Byte} (h : d.CanDecode (b0 :: tl)) (hcut : tl.length + 1 < chunkLen b0) :
    ∃ x, BodyEnds (n + 1) (b0 :: tl) d d [] x := by
  obtain ⟨x, hx, hserial⟩ := foldl_serialByte_of_cut hcut d
  refine ⟨x, .nil d, Nat.zero_le _, fun out => by rw [hserial, List.append_nil], fun htag => absurd htag hx, fun _ => ?_⟩
  rw [runCommand_succ h.decoding.busy ((step_of_rest h.noReset h.decoding h.rest).2 hcut), runCommand_of_not_busy (by simp)]

/-- A whole chunk and what follows it. -/
theorem BodyEnds.chunk {bs' : List Byte} (hb : d.status = .busy) (hi : decodeChunk bs = .ok (i, []))
    (hstep : step d = .next (d.decoded i)) (h : BodyEnds n bs' (d.decoded i) u px x) :
    BodyEnds (n + 1) (bs ++ bs') d u
      (List.replicate (pixelsProduced i) (chunkPixel d.prev d.cache i) ++ px) x where
  appended := (Appended.decoded d i).trans h.appended
  bound := by
    obtain ⟨hlen, -, hmax⟩ := decodeChunk_length hi
    have hne : bs ≠ [] := by rintro rfl; cases hi
    have hpos := List.length_pos_iff.mpr hne
    have hbound := h.bound
    rw [List.length_append, List.length_append, List.length_replicate]
    omega
  serial out := by
    rw [List.foldl_append, foldl_serialByte_of_decodes hi, h.serial, List.append_assoc]
  ends hx := by
    rw [runCommand_succ hb hstep]
    exact h.ends hx
  raises hx := by
    rw [runCommand_succ hb hstep]
    exact h.raises hx

/-- The chunk steps over any body and the end action or the exception, by induction over a bound on the bytes left: each chunk takes
at least one of them. -/
theorem State.CanDecode.run (h : d.CanDecode bs) (hn : bs.length ≤ n) : ∃ u px x, BodyEnds (n + 1) bs d u px x := by
  induction n generalizing d bs with
  | zero =>
    obtain rfl : bs = [] := List.eq_nil_of_length_eq_zero (Nat.le_zero.mp hn)
    exact ⟨d, [], .tag, .nil h⟩
  | succ n ih =>
    obtain _ | ⟨b0, tl⟩ := bs
    · exact ⟨d, [], .tag, .nil h⟩
    by_cases hle : chunkLen b0 ≤ tl.length + 1
    · obtain ⟨i, hi, hstep, hnext⟩ := h.decodes hle
      have hmin := (chunkLen_bounds b0).1
      have hshort : ((b0 :: tl).drop (chunkLen b0)).length ≤ n := by
        rw [List.length_drop]
        omega
      obtain ⟨u, px, x, hends⟩ := ih hnext hshort
      have hall := hends.chunk h.decoding.busy hi hstep
      rw [List.take_append_drop] at hall
      exact ⟨u, _, x, hall⟩
    · obtain ⟨x, hends⟩ := BodyEnds.cut h (Nat.lt_of_not_le hle)
      exact ⟨d, [], x, hends⟩

/-! ### The whole body, from the initialisation on (rules R190, R192, R261) -/

/-- How a decoding command that was initialised in `e` ends in `t`: with what the byte-serial machine `m` came to, DONE where `m`
expects a first byte and with DecodeError where it does not. -/
structure DecodesAs (m : Serial) (e t : State) : Prop where
  header : t.headerRegs = e.headerRegs
  byteOut : t.mem.byteOut = e.mem.byteOut
  prev : t.prev = m.prev
  cache : t.cache = m.cache
  bound : m.out.length ≤ 62 * e.bodyLen
  ends : m.expects = .tag →
    t.status = .done ∧ t.err = 0 ∧ t.pos = e.bodyLen ∧ t.outLen = m.out.length ∧ t.pixelOutput = some m.out
  raises : m.expects ≠ .tag → t.status = .error ∧ t.err = 3 ∧ t.outLen = 0

theorem DecodesAs.not_busy {m : Serial} {e t : State} (h : DecodesAs m e t) : t.status ≠ .busy := by
  by_cases hx : m.expects = .tag
  · simp [(h.ends hx).1]
  · simp [(h.raises hx).1]

/-- An initialised decoder runs as the byte-serial machine does from its start, for both start with the same `prev` and cache. -/
theorem decodesAs_serialRun {body : List Byte} {e : State} (h : e.initialised.CanDecode body) (herr : e.err = 0)
    (hn : body.length ≤ n) : ∃ t, runCommand (n + 1) e.initialised = .next t ∧ DecodesAs (serialRun body) e t := by
  obtain ⟨u, px, x, hends⟩ := h.run hn
  have hserial : serialRun body = ⟨x, u.prev, u.cache, px⟩ := hends.serial []
  have hlen : body.length = e.bodyLen := (Nat.zero_add _).symm.trans h.rest.1
  have hbound : px.length ≤ 62 * e.bodyLen := hlen ▸ hends.bound
  have hframe := hends.appended.frame
  rw [hserial]
  by_cases hx : x = .tag
  · obtain ⟨hpos, hrun⟩ := hends.ends hx
    exact ⟨_, hrun, hframe.kept.header, hframe.byteOut, rfl, rfl, hbound,
      fun _ => ⟨rfl, hframe.err.trans herr, hpos.trans hframe.kept.bodyLen, hends.appended.outLen.trans (Nat.zero_add _),
        (if_pos rfl).trans (hends.appended.output rfl)⟩,
      fun h => absurd hx h⟩
  · exact ⟨_, hends.raises hx, hframe.kept.header, hframe.byteOut, rfl, rfl, hbound, fun h => absurd h hx,
      fun _ => ⟨rfl, rfl, rfl⟩⟩

/-- A decoder initialised at the start of its body, which stands in BYTE_IN behind `pre` (rules R58, R212, R213). -/
theorem canDecode_initialised {pre body : List Byte} {e : State} (hr : e.resetAsserted = false) (hb : e.status = .busy)
    (hc : e.running = some .dec ∨ e.running = some .decBody) (hbase : e.bodyBase = pre.length)
    (hread : Buffer.readSeq e.mem.byteIn 0 e.inLen = some (pre ++ body))
    (hcap : ∀ cap, e.cfg.outCap = some cap → 62 * e.inLen ≤ cap) : e.initialised.CanDecode body := by
  have hlen := Buffer.readSeq_length hread
  rw [List.length_append] at hlen
  have hsub := Buffer.readSeq_sub hread pre.length body.length hlen.le
  rw [List.drop_left, List.take_length, ← hbase] at hsub
  refine ⟨hr, hc.imp (⟨hb, rfl, ·⟩) (⟨hb, rfl, ·⟩), ⟨?whole, ?bytes⟩, State.fits_of_cap fun cap hsome => ?room⟩
  case whole =>
    change 0 + body.length = e.inLen - e.bodyBase
    omega
  case bytes =>
    rw [Nat.zero_add] at hsub
    exact hsub
  case room =>
    have := hcap cap hsome
    change 0 + 62 * body.length ≤ cap
    omega

/-! ### DEC_BODY (rule R213) -/

/-- DEC_BODY from its start to its end. -/
theorem completesWithin_decBody {body : List Byte} (hr : s.resetAsserted = false) (hb : s.status ≠ .busy)
    (hbody : Buffer.readSeq s.mem.byteIn 0 s.inLen = some body)
    (hcap : ∀ cap, s.cfg.outCap = some cap → 62 * s.inLen ≤ cap) :
    ∃ t, CompletesWithin (s.inLen + 2) .decBody s t ∧ DecodesAs (serialRun body) (s.started .decBody) t := by
  have hentry : step (s.started .decBody) = .next (s.started .decBody).initialised :=
    step_of_entry (s := s.started .decBody) hr rfl rfl
  have hcan : (s.started .decBody).initialised.CanDecode body :=
    canDecode_initialised (e := s.started .decBody) (pre := []) hr rfl (.inr rfl) rfl hbody hcap
  obtain ⟨t, hrun, ht⟩ := decodesAs_serialRun hcan rfl (Buffer.readSeq_length hbody).le
  exact ⟨t, ⟨_, exec_startOf_legal (c := .decBody) hb (by simp [isEncoding]), (runCommand_succ rfl hentry _).trans hrun,
    ht.not_busy⟩, ht⟩

/-- Settles O52: the run of DEC_BODY, by what its byte-serial machine expects in the end. -/
theorem decBodyAlwaysEnds : Obligations.DecBodyAlwaysEnds := by
  intro s body hr hb hbody hcap
  obtain ⟨t, hrun, ht⟩ := completesWithin_decBody hr hb hbody hcap
  refine ⟨t, hrun, ht.header, ht.byteOut, ?_⟩
  by_cases hx : (serialRun body).expects = .tag
  · obtain ⟨hdone, herr, hpos, hlen, hout⟩ := ht.ends hx
    exact .inl ⟨hdone, herr, hpos, _, hout, hlen.symm, ht.bound⟩
  · exact .inr (ht.raises hx)

/-- Settles O59: the run of DEC_BODY was compared with the byte-serial machine chunk by chunk; its two endings have two ERR values. -/
theorem byteSerialFormAgrees : Obligations.ByteSerialFormAgrees := by
  intro s body hr hb hbody hcap
  obtain ⟨t, hrun, ht⟩ := completesWithin_decBody hr hb hbody (by simp [hcap])
  refine ⟨t, hrun, ?_⟩
  by_cases hx : (serialRun body).expects = .tag
  · obtain ⟨hdone, herr, -, -, hout⟩ := ht.ends hx
    exact ⟨by simp [hdone, hx], by simp [hdone, herr], fun _ => hout, ht.prev, ht.cache⟩
  · obtain ⟨herror, herr, -⟩ := ht.raises hx
    exact ⟨by simp [herror, hx], by simp [herror, herr], fun hdone => by simp [herror] at hdone, ht.prev, ht.cache⟩

/-! ### DEC (rules R122, R212) -/

/-- A stream whose header does not decode raises that test's FormatError (rules R122, R239). -/
theorem fetchHeader_of_rejects {stream : List Byte} {e : Reject}
    (hread : Buffer.readSeq s.mem.byteIn 0 s.inLen = some stream) (he : decodeHeader s.cfg.magic stream = .error e) :
    fetchHeader s = .outcome (raise (.formatError (headerCause e)) s) := by
  have hlen := Buffer.readSeq_length hread
  by_cases hshort : s.inLen < Config.headerBytes
  · cases he.symm.trans (decodeHeader_of_short (hlen.trans_lt hshort))
    rw [fetchHeader, if_pos hshort]
    rfl
  · have hlong : 14 ≤ s.inLen := Nat.le_of_not_lt hshort
    have hfirst : Buffer.readSeq s.mem.byteIn 0 Config.headerBytes = some (stream.take 14) :=
      Buffer.readSeq_sub hread 0 14 (by omega)
    rcases decodeHeader_take (m := s.cfg.magic) (hlong.trans hlen.ge) with ⟨e', h, h'⟩ | ⟨i, h, -⟩
    · cases he.symm.trans h
      simp only [fetchHeader, hshort, if_false, hfirst, h']
    · cases he.symm.trans h

/-- A header takes 14 bytes of its stream (rule R121). -/
theorem decodeHeader_length {m : Magic} {stream body : List Byte} (hi : decodeHeader m stream = .ok (i, body)) :
    stream.length = 14 + body.length := by
  obtain ⟨w, h, c, cs, rfl, -, -⟩ := decodeHeader_ok hi
  obtain ⟨-, -, rfl⟩ := encode_decodeHeader hi
  rw [List.length_append, encode_length]
  rfl

/-- DEC of a stream whose header decodes: the header's fields in the registers, and its body decoded. -/
theorem completesWithin_dec {stream body : List Byte} {w h : Word} {c cs : Byte} (hr : s.resetAsserted = false)
    (hb : s.status ≠ .busy) (hread : Buffer.readSeq s.mem.byteIn 0 s.inLen = some stream)
    (hcap : ∀ cap, s.cfg.outCap = some cap → 62 * s.inLen ≤ cap)
    (hi : decodeHeader s.cfg.magic stream = .ok (.header w h c cs, body)) :
    ∃ t, CompletesWithin (s.inLen + 2) .dec s t ∧ t.headerRegs = ⟨w, h, c, cs⟩ ∧
      DecodesAs (serialRun body) ((s.started .dec).headerWritten w h c cs) t := by
  have hlen : 14 + body.length = s.inLen := (decodeHeader_length hi).symm.trans (Buffer.readSeq_length hread)
  obtain ⟨hw, -, rfl⟩ := encode_decodeHeader hi
  obtain ⟨hc, hcs⟩ := Bool.and_eq_true_iff.mp hw
  have hfirst := Buffer.readSeq_sub hread 0 14 (by omega)
  have hentry : step (s.started .dec) = .next ((s.started .dec).headerWritten w h c cs).initialised := by
    rw [stepRunsTheDecodedHeader (s.started .dec) _ _ body hr rfl rfl (.inl rfl) (by simp; omega) hfirst hi,
      execHeader_legal w h hc hcs, afterHeader_of_dec rfl]
  have hcan : ((s.started .dec).headerWritten w h c cs).initialised.CanDecode body :=
    canDecode_initialised (e := (s.started .dec).headerWritten w h c cs) hr rfl (.inl rfl) rfl hread hcap
  obtain ⟨t, hrun, ht⟩ := decodesAs_serialRun (n := s.inLen) hcan rfl (by omega)
  exact ⟨t, ⟨_, exec_startOf_legal (c := .dec) hb (by simp [isEncoding]), (runCommand_succ rfl hentry _).trans hrun,
    ht.not_busy⟩, ht.header, ht⟩

/-- DEC of a stream whose header does not decode. -/
theorem completesWithin_dec_of_rejects {stream : List Byte} {e : Reject} (hr : s.resetAsserted = false)
    (hb : s.status ≠ .busy) (hread : Buffer.readSeq s.mem.byteIn 0 s.inLen = some stream)
    (he : decodeHeader s.cfg.magic stream = .error e) (n : Nat) :
    CompletesWithin (n + 1) .dec s ((s.started .dec).raised (.formatError (headerCause e))) := by
  have hentry : step (s.started .dec) = .next ((s.started .dec).raised (.formatError (headerCause e))) := by
    rw [step_of_header (s := s.started .dec) hr rfl rfl (.inl rfl), fetchHeader_of_rejects (s := s.started .dec) hread he,
      perform_outcome, raise]
  refine ⟨_, exec_startOf_legal (c := .dec) hb (by simp [isEncoding]), ?_, by simp⟩
  rw [runCommand_succ rfl hentry, runCommand_of_not_busy (by simp)]

/-- Settles O53: by the answer of `decode_header` on the stream, and then by what the byte-serial machine expects after its body. -/
theorem decAlwaysEnds : Obligations.DecAlwaysEnds := by
  intro s stream hr hb hread hcap
  cases hi : decodeHeader s.cfg.magic stream with
  | error e => exact ⟨_, completesWithin_dec_of_rejects hr hb hread hi _, .inl ⟨e, rfl, rfl, rfl, rfl, rfl⟩⟩
  | ok r =>
    obtain ⟨i, body⟩ := r
    obtain ⟨w, h, c, cs, rfl, -, -⟩ := decodeHeader_ok hi
    obtain ⟨t, hrun, hregs, ht⟩ := completesWithin_dec hr hb hread hcap hi
    refine ⟨t, hrun, .inr ⟨w, h, c, cs, body, rfl, hregs, ?_⟩⟩
    by_cases hx : (serialRun body).expects = .tag
    · obtain ⟨hdone, herr, -, -, hout⟩ := ht.ends hx
      have hbody : ((s.started .dec).headerWritten w h c cs).bodyLen = body.length :=
        Nat.sub_eq_of_eq_add' ((Buffer.readSeq_length hread).symm.trans (decodeHeader_length hi))
      exact .inl ⟨hdone, herr, _, hout, hbody ▸ ht.bound⟩
    · exact .inr (ht.raises hx)

end Sys2Proof.Machine
end

section
/-! Proofs of O56 and O57: what a decoder makes of the bytes an encoder emits, and the round trip of a whole image. -/

namespace Sys2Proof.Machine

variable {s t v d : State} {c : Choice} {bs : List Byte} {px : List Pixel} {n : Nat}

/-! ### The alpha hazard on an encoder's run (rule R265) -/

/-- The encoder's next chunk is RGB for a pixel that is not opaque. -/
def State.AtHazard (v : State) : Prop :=
  v.inChunks .enc ∧ v.pos < v.inLen ∧ ∃ c, chooseChunk v = some c ∧ c.alphaHazard

/-- The run from here comes to such a chunk. -/
def State.MeetsHazard (v : State) : Prop := ∃ k w, runCommand k v = .next w ∧ w.AtHazard

/-- A run meets the hazard where it stands or after its next step. -/
theorem State.meetsHazard_of_step (hb : v.status = .busy) (hs : step v = .next t) :
    v.MeetsHazard ↔ v.AtHazard ∨ t.MeetsHazard := by
  constructor
  · rintro ⟨k, w, hrun, hw⟩
    cases k with
    | zero => cases hrun; exact .inl hw
    | succ k => exact .inr ⟨k, w, by rwa [runCommand_succ hb hs] at hrun, hw⟩
  · rintro (hv | ⟨k, w, hrun, hw⟩)
    · exact ⟨0, v, rfl, hv⟩
    · exact ⟨k + 1, w, by rwa [runCommand_succ hb hs], hw⟩

theorem State.not_meetsHazard_of_not_busy (hb : v.status ≠ .busy) : ¬ v.MeetsHazard := by
  rintro ⟨k, w, hrun, hw, -⟩
  cases (runCommand_of_not_busy hb k).symm.trans hrun
  exact hb hw.1

theorem State.atHazard_iff_of_choice (he : v.inChunks .enc) (hpos : v.pos < v.inLen) (hc : chooseChunk v = some c) :
    v.AtHazard ↔ c.alphaHazard := by
  simp [State.AtHazard, he, hpos, hc]

/-! ### One chunk, encoded and decoded (rules R135, R264, R265) -/

/-- Both sides insert alike (rules R132, R183 to R186). -/
theorem chunkInserts_of_choice (hc : chooseChunk v = some c) : chunkInserts c.chunk = c.inserts := by
  obtain ⟨p, -, ⟨-, e, -, rfl⟩ | ⟨-, -, rfl⟩ | ⟨-, -, rfl⟩⟩ := chooseChunk_eq_some_iff.mp hc
  · rfl
  · rfl
  · rcases literalChunk_cases v.prev p with ⟨-, h⟩ | ⟨-, -, h⟩ | ⟨-, -, -, h⟩ | ⟨-, -, -, h⟩ <;> simp [h, chunkInserts]

/-- Without the hazard a chunk stands for the pixel it was chosen for. -/
theorem chunkPixel_of_choice (hc : chooseChunk v = some c) (hsafe : ¬ c.alphaHazard) :
    chunkPixel v.prev v.cache c.chunk = c.pixel := by
  obtain ⟨p, -, ⟨hrun, e, -, rfl⟩ | ⟨-, hhit, rfl⟩ | ⟨-, -, rfl⟩⟩ := chooseChunk_eq_some_iff.mp hc
  · exact hrun.symm
  · exact hhit
  · rcases literalChunk_cases v.prev p with ⟨-, h⟩ | ⟨ha, -, h⟩ | ⟨ha, -, -, h⟩ | ⟨-, -, -, h⟩ <;>
      simp only [h, chunkPixel]
    · simp only [moveBy_delta ha]
    · simp only [Int.sub_add_cancel, moveBy_delta ha]
    · have hopaque : p.a = 255 := not_not.mp fun ha => hsafe ⟨⟨_, _, _, h⟩, ha⟩
      rw [← hopaque]

/-- With it the decoder makes an opaque pixel of the chunk, whatever it holds, and the pixel chosen for is not opaque. -/
theorem chunkPixel_ne_of_alphaHazard (hazard : c.alphaHazard) (prev : Pixel) (cache : Vector Pixel 64) :
    chunkPixel prev cache c.chunk ≠ c.pixel := by
  obtain ⟨⟨r, g, b, hrgb⟩, ha⟩ := hazard
  rw [hrgb]
  rintro heq
  exact ha (congrArg Pixel.a heq).symm

/-- The bytes of a chosen chunk decode to it and nothing is left over. -/
theorem decodeChunk_encode_of_choice (m : Magic) (hc : chooseChunk v = some c) :
    decodeChunk (encode m c.chunk) = .ok (c.chunk, []) := by
  obtain ⟨hw, hspace, -⟩ := chooseChunk_shape hc
  have hdec := decode_encode m [] hw
  rwa [hspace, List.append_nil] at hdec

/-! ### The bytes of an encoder's run, decoded (rules R193, R218) -/

/-- A body decoder, in its byte-serial form, that stands in `d` makes whole chunks of `bs` and appends `px`. -/
def State.Decodes (d : State) (bs : List Byte) (px : List Pixel) : Prop :=
  ∃ u : State, ∀ out, bs.foldl serialByte (d.serial out) = u.serial (out ++ px)

theorem State.Decodes.nil (d : State) : d.Decodes [] [] := ⟨d, fun out => by rw [List.append_nil]; rfl⟩

/-- The chunk that was chosen, and what follows it. -/
theorem State.Decodes.chunk (hc : chooseChunk v = some c) (m : Magic) (h : (d.decoded c.chunk).Decodes bs px) :
    d.Decodes (encode m c.chunk ++ bs) (List.replicate c.covers (chunkPixel d.prev d.cache c.chunk) ++ px) := by
  obtain ⟨u, hu⟩ := h
  refine ⟨u, fun out => ?_⟩
  rw [List.foldl_append, foldl_serialByte_of_decodes (decodeChunk_encode_of_choice m hc), hu, chooseChunk_produced hc,
    List.append_assoc]

/-- `bs`, emitted by an encoder that goes on from `v` with the pixels `px`, is decoded to as many pixels whatever the decoder holds;
they are `px` only if the encoder meets no hazard, and then are `px` where the decoder starts with the encoder's `prev` and cache. -/
structure RoundTrips (v : State) (bs : List Byte) (px : List Pixel) : Prop where
  decodes : ∀ d : State, ∃ px', d.Decodes bs px' ∧ px'.length = px.length ∧ (px' = px → ¬ v.MeetsHazard) ∧
    (d.prev = v.prev → d.cache = v.cache → ¬ v.MeetsHazard → px' = px)
  hazard : v.MeetsHazard → ∃ p ∈ px, p.a ≠ 255

/-- The end action emits nothing. -/
theorem RoundTrips.nil (hb : v.status = .busy) (hs : step v = .next v.finished) (hpos : v.pos = v.inLen) :
    RoundTrips v [] [] := by
  have hnone : ¬ v.MeetsHazard := by
    rw [State.meetsHazard_of_step hb hs]
    rintro (⟨-, hlt, -⟩ | hend)
    · omega
    · exact State.not_meetsHazard_of_not_busy (by simp) hend
  exact ⟨fun d => ⟨[], .nil d, rfl, fun _ => hnone, fun _ _ _ => rfl⟩, fun h => absurd h hnone⟩

/-- A chunk step and what the encoder emits after it. -/
theorem RoundTrips.chunk (he : v.inChunks .enc) (hpos : v.pos < v.inLen) (hc : chooseChunk v = some c)
    (hs : step v = .next ((v.encoded c).pushBytes (encode v.cfg.magic c.chunk)))
    (h : RoundTrips ((v.encoded c).pushBytes (encode v.cfg.magic c.chunk)) bs px) :
    RoundTrips v (encode v.cfg.magic c.chunk ++ bs) (List.replicate c.covers c.pixel ++ px) := by
  obtain ⟨-, -, -, -, hcovers, -⟩ := chooseChunk_shape hc
  have hmeets := (State.meetsHazard_of_step he.1 hs).trans (or_congr_left (State.atHazard_iff_of_choice he hpos hc))
  constructor
  case decodes =>
    intro d
    obtain ⟨px', hdec, hlen, honly, hsame⟩ := h.decodes (d.decoded c.chunk)
    rw [hmeets, not_or]
    refine ⟨_, .chunk hc _ hdec, by simp [hlen], fun heq => ?only, fun hprev hcache ⟨hnow, hlater⟩ => ?same⟩
    case only =>
      obtain ⟨hfirst, hrest⟩ := List.append_inj heq (by simp)
      obtain ⟨-, hzero | hpixel⟩ := List.replicate_inj.mp hfirst
      · omega
      · exact ⟨fun hazard => chunkPixel_ne_of_alphaHazard hazard _ _ hpixel, honly hrest⟩
    case same =>
      have hpixel : chunkPixel d.prev d.cache c.chunk = c.pixel := by rw [hprev, hcache, chunkPixel_of_choice hc hnow]
      have hrest : px' = px := by
        refine hsame ?_ ?_ hlater
        · rw [State.decoded_prev, hpixel, State.pushBytes_prev, State.encoded_prev]
        · rw [State.decoded_cache, hpixel, hcache, chunkInserts_of_choice hc, State.pushBytes_cache, State.encoded_cache]
      rw [hpixel, hrest]
  case hazard =>
    rw [hmeets]
    rintro (⟨-, ha⟩ | hlater)
    · exact ⟨c.pixel, List.mem_append_left _ (List.mem_replicate.mpr ⟨by omega, rfl⟩), ha⟩
    · obtain ⟨p, hp, ha⟩ := h.hazard hlater
      exact ⟨p, List.mem_append_right _ hp, ha⟩

/-- How the encoding of the pixels `px`, all that are left from `v` on, ends within `k` steps: in `t` with `bs` appended. -/
structure EncodesTo (k : Nat) (bs : List Byte) (px : List Pixel) (v t : State) : Prop where
  run : runCommand k v = .next t.finished
  emitted : Emitted bs v t
  pixels : Buffer.readSeq v.mem.pixIn v.pos (v.inLen - v.pos) = some px
  roundTrips : RoundTrips v bs px

/-- The image used up. -/
theorem EncodesTo.nil (h : v.CanEncode) (hpos : v.pos = v.inLen) : EncodesTo (n + 1) [] [] v v where
  run := h.run_end hpos n
  emitted := .nil v
  pixels := by rw [hpos, Nat.sub_self]; rfl
  roundTrips := .nil h.encoding.1 (step_of_encoder_end h.noReset h.encoding hpos) hpos

/-- A chunk and what follows it. -/
theorem EncodesTo.chunk (h : v.CanEncode) (hc : chooseChunk v = some c) (hpos : v.pos < v.inLen)
    (hs : step v = .next ((v.encoded c).pushBytes (encode v.cfg.magic c.chunk)))
    (hrest : EncodesTo n bs px ((v.encoded c).pushBytes (encode v.cfg.magic c.chunk)) t) :
    EncodesTo (n + 1) (encode v.cfg.magic c.chunk ++ bs) (List.replicate c.covers c.pixel ++ px) v t where
  run := (runCommand_succ h.encoding.1 hs n).trans hrest.run
  emitted := (Emitted.of_choice v c _).trans hrest.emitted
  pixels := by
    obtain ⟨-, -, -, -, -, -, hend⟩ := chooseChunk_shape hc
    have hleft : v.inLen - v.pos = c.covers + (v.inLen - (v.pos + c.covers)) := by have := hend hpos; omega
    rw [hleft]
    exact Buffer.readSeq_append (chooseChunk_covers hc) (by simpa using hrest.pixels)
  roundTrips := .chunk h.encoding hpos hc hs hrest.roundTrips

/-- The chunk steps of an encoder and its end action, by induction over a bound on the pixels left. -/
theorem State.CanEncode.encodesTo (h : v.CanEncode) (hn : v.inLen - v.pos ≤ n) :
    ∃ t bs px, EncodesTo (n + 1) bs px v t := by
  induction n generalizing v with
  | zero => exact ⟨v, [], [], .nil h (Nat.le_antisymm h.posInPixels (Nat.le_of_sub_eq_zero (Nat.le_zero.mp hn)))⟩
  | succ n ih =>
    rcases h.posInPixels.eq_or_lt with hpos | hpos
    · exact ⟨v, [], [], .nil h hpos⟩
    · obtain ⟨t, _, hstep, ht, hem, hadvance, -⟩ := h.emits hpos
      have hin : t.inLen = v.inLen := hem.frame.kept.inLen
      obtain ⟨u, bs, px, hrest⟩ := ih ht (by omega)
      obtain ⟨c, hc, rfl⟩ := step_encChunk_next h.noReset h.encoding hstep ht.encoding.1
      exact ⟨u, _, _, .chunk h hc hpos hstep hrest⟩

/-! ### The whole image -/

/-- Before its entry action an encoder is at no chunk, so only what follows can meet the hazard. -/
theorem State.meetsHazard_of_entry (hb : v.status = .busy) (hp : v.phase = .entry) (hs : step v = .next t) :
    v.MeetsHazard ↔ t.MeetsHazard := by
  rw [State.meetsHazard_of_step hb hs, or_iff_right]
  rintro ⟨⟨-, hchunks, -⟩, -⟩
  simp [hp] at hchunks

section

variable (hr : s.resetAsserted = false) (hb : s.status ≠ .busy) (htags : s.tagsLegal = true)
  (hsize : s.inLen = s.width.toNat * s.height.toNat) (hread : Buffer.readSeq s.mem.pixIn 0 s.inLen = some px)
  (hcap : s.cfg.outCap = none)

include hr hb htags hsize hread hcap

/-- ENC of an image: its output is the header and a body that the byte-serial machine decodes, to the image exactly where the
encoder met no hazard; an encoder that meets it was given a pixel that is not opaque. -/
theorem completesWithin_enc_roundTrips : ∃ t body, CompletesWithin (s.inLen + 2) .enc s t ∧
    t.byteOutput = some (s.headerBytes ++ body) ∧ (serialRun body).expects = .tag ∧
    (serialRun body).out.length = px.length ∧ ((serialRun body).out = px ↔ ¬ (s.started .enc).MeetsHazard) ∧
    ((s.started .enc).MeetsHazard → ∃ p ∈ px, p.a ≠ 255) := by
  have hroom (n : Nat) : (s.started .enc).initialised.fits n = true := State.fits_of_unbounded _ (by simpa using hcap) n
  have hentry := step_of_encEntry_match (s := s.started .enc) hr rfl rfl rfl hsize (hroom 14)
  have hcan : ((s.started .enc).initialised.pushBytes s.headerBytes).CanEncode :=
    ⟨hr, ⟨rfl, rfl, rfl⟩, Nat.zero_le _, by simpa using Buffer.isSome_of_readSeq hread,
      by rw [State.pushBytes_fits]; exact hroom _⟩
  obtain ⟨t, body, px', henc⟩ := hcan.encodesTo (n := s.inLen) (Nat.sub_le _ _)
  obtain rfl : px = px' := by simpa [hread] using henc.pixels
  obtain ⟨px'', ⟨u, hu⟩, hlen, honly, hsame⟩ :=
    henc.roundTrips.decodes ((s.started .enc).initialised.pushBytes s.headerBytes)
  have hserial : serialRun body = u.serial px'' := hu []
  have hmeets := State.meetsHazard_of_entry rfl rfl hentry
  have hem := (Emitted.pushBytes (s.started .enc).initialised s.headerBytes).trans henc.emitted
  refine ⟨t.finished, body, ⟨_, exec_startOf_legal (c := .enc) hb fun _ => htags,
    (runCommand_succ rfl hentry _).trans henc.run, by simp⟩, (if_pos rfl).trans (hem.output rfl), ?_⟩
  rw [hserial, hmeets]
  exact ⟨rfl, hlen, ⟨honly, hsame rfl rfl⟩, henc.roundTrips.hazard⟩

end

/-- DEC, in an unbounded engine, of a header and a body that the byte-serial machine takes whole: its pixels. -/
theorem completesWithin_dec_of_tag {body : List Byte} (hr : d.resetAsserted = false) (hb : d.status ≠ .busy)
    (hcfg : d.cfg = s.cfg) (hcap : s.cfg.outCap = none) (htags : s.tagsLegal = true)
    (hread : Buffer.readSeq d.mem.byteIn 0 d.inLen = some (s.headerBytes ++ body))
    (htag : (serialRun body).expects = .tag) :
    ∃ u, CompletesWithin (d.inLen + 2) .dec d u ∧ u.status = .done ∧ u.headerRegs = s.headerRegs ∧
      u.pixelOutput = some (serialRun body).out := by
  obtain ⟨hch, hcs⟩ := Bool.and_eq_true_iff.mp htags
  have hi : decodeHeader d.cfg.magic (s.headerBytes ++ body) =
      .ok (.header s.width s.height s.channels s.colorspace, body) := by
    rw [hcfg]
    exact decodeHeader_encodeHeader _ body s.width s.height hch hcs
  obtain ⟨u, hrun, hregs, hu⟩ := completesWithin_dec hr hb hread (by simp [hcfg, hcap]) hi
  obtain ⟨hdone, -, -, -, hout⟩ := hu.ends htag
  exact ⟨u, hrun, hdone, hregs, hout⟩

theorem State.not_meetsHazard_iff : ¬ s.MeetsHazard ↔ ∀ k v c, runCommand k s = .next v → v.inChunks .enc →
    v.pos < v.inLen → chooseChunk v = some c → (∃ r g b, c.chunk = .rgb r g b) → c.pixel.a = 255 := by
  constructor
  · intro h k v c hrun he hpos hc hrgb
    by_contra ha
    exact h ⟨k, v, hrun, he, hpos, c, hc, hrgb, ha⟩
  · rintro h ⟨k, v, hrun, he, hpos, c, hc, hrgb, ha⟩
    exact ha (h k v c hrun he hpos hc hrgb)

/-- Settles O56: engine and byte-serial machine decode alike, and the latter follows the encoder chunk by chunk. -/
theorem roundTripExactlyWithoutAlphaHazard : Obligations.RoundTripExactlyWithoutAlphaHazard := by
  intro s px hr hb htags hsize hread hcap
  obtain ⟨t, body, hrun, hout, htag, hlen, hiff, -⟩ := completesWithin_enc_roundTrips hr hb htags hsize hread hcap
  refine ⟨t, _, hrun, hout, fun d hdr hdb hcfg _ hdread => ?_⟩
  obtain ⟨u, hrun', hdone, hregs, hpixels⟩ := completesWithin_dec_of_tag hdr hdb hcfg hcap htags hdread htag
  exact ⟨u, _, hrun', hdone, hregs, hpixels, hlen, hiff.trans State.not_meetsHazard_iff⟩

/-- Settles O57: an encoder that is given opaque pixels only meets no hazard. -/
theorem opaqueImagesRoundTrip : Obligations.OpaqueImagesRoundTrip := by
  intro s d px hr hb htags hsize hread hopaque hcap hdr hdb hcfg
  obtain ⟨t, body, hrun, hout, htag, -, hiff, hhazard⟩ := completesWithin_enc_roundTrips hr hb htags hsize hread hcap
  have hsafe : ¬ (s.started .enc).MeetsHazard := fun h => by
    obtain ⟨p, hp, ha⟩ := hhazard h
    exact ha (hopaque p hp)
  refine ⟨t, _, hrun, hout, fun _ hdread => ?_⟩
  obtain ⟨u, hrun', -, hregs, hpixels⟩ := completesWithin_dec_of_tag hdr hdb hcfg hcap htags hdread htag
  exact ⟨u, hrun', hiff.mpr hsafe ▸ hpixels, hregs⟩

end Sys2Proof.Machine
end
section
/-! Proofs of O8, O49 and O50: how a command starts, and the two header commands, which end with their entry action. -/

namespace Sys2Proof.Machine

variable {s t : State} {c : Command}

/-- Settles O8: NOP and the legal start of a command answer with the state that their rule names. -/
theorem commandsStartAsOneAction : Obligations.CommandsStartAsOneAction :=
  fun _ hb => ⟨by rw [exec_nop, if_neg hb], fun _ htags => exec_startOf_legal hb htags⟩

/-- A command whose entry action ends it takes one engine step (rule R217). -/
theorem completesWithin_one (hb : s.status ≠ .busy) (htags : isEncoding c = true → s.tagsLegal = true)
    (hstep : step (s.started c) = .next t) (ht : t.status ≠ .busy) : CompletesWithin 1 (startOf c) s t :=
  ⟨_, exec_startOf_legal hb htags, (runCommand_succ rfl hstep 0).trans rfl, ht⟩

/-! ### ENC_HDR (rule R214) -/

theorem step_of_encHdrEntry (hr : s.resetAsserted = false) (hb : s.status = .busy) (hp : s.phase = .entry)
    (hc : s.running = some .encHdr) (hroom : s.fits 14 = true) :
    step s = .next (s.finished.pushBytes s.headerBytes) := by
  rw [step_of_entry hr hb hp, entryAction, hc, perform_outcome, encHdrEntry, appendBytes_of_fits hroom]

/-- Settles O49: the tag test refuses the start, or the entry action appends the header to the output that the start emptied. -/
theorem encHdrWritesAHeader : Obligations.EncHdrWritesAHeader := by
  intro s hr hb
  refine ⟨exec_startOf_illegal (c := .encHdr) hb rfl, fun htags hcap => ?_⟩
  have hroom : (s.started .encHdr).fits 14 = true := State.fits_of_cap (by simpa using hcap)
  have hstep := step_of_encHdrEntry (s := s.started .encHdr) hr rfl rfl rfl hroom
  have hem : Emitted s.headerBytes (s.started .encHdr).finished ((s.started .encHdr).finished.pushBytes s.headerBytes) :=
    .pushBytes _ _
  refine ⟨_, completesWithin_one (c := .encHdr) hb (fun _ => htags) hstep (by simp), rfl, rfl, hem.outLen, ?output,
    rfl, rfl, rfl, hem.frame.kept.header, hem.frame.kept.inLen, hem.frame.pixOut, hem.frame.kept.pixIn,
    hem.frame.kept.byteIn, fun j hj => hem.frame.byteOut j (.inr hj)⟩
  case output => exact (if_pos rfl).trans (hem.output rfl)

/-! ### DEC_HDR (rule R215) -/

/-- Settles O50: the encoding of a legal header decodes to it, and after its fields DEC_HDR has nothing left but the end. -/
theorem decHdrReadsAHeader : Obligations.DecHdrReadsAHeader := by
  intro s w h c cs hr hb hlen hc hcs hread
  have hc := legalChannels_iff.mpr hc
  have hcs := legalColorspace_iff.mpr hcs
  have hdecode := decodeHeader_encodeHeader s.cfg.magic [] w h hc hcs
  have hstep : step (s.started .decHdr) = .next ((s.started .decHdr).headerWritten w h c cs).finished := by
    rw [stepRunsTheDecodedHeader (s.started .decHdr) _ _ [] hr rfl rfl (.inr rfl) hlen hread hdecode,
      execHeader_legal w h hc hcs, afterHeader_of_decHdr rfl]
  exact ⟨_, completesWithin_one (c := .decHdr) hb (by simp [isEncoding]) hstep (by simp), rfl, rfl, rfl, rfl, rfl, rfl,
    rfl, rfl⟩

end Sys2Proof.Machine
end
section
/-! Proofs of O34, O46 and O3: the code of a bad header, which exceptions a step can raise, and an engine that waits. -/

namespace Sys2Proof.Machine

variable {s t : State}

/-! ### A bad header (rules R122, R231, R239) -/

/-- Header bytes that do not decode raise that test's FormatError. -/
theorem fetchHeader_of_bad_bytes {bs : List Byte} {e : Reject} (hlen : 14 ≤ s.inLen)
    (hbs : Buffer.readSeq s.mem.byteIn 0 14 = some bs) (he : decodeHeader s.cfg.magic bs = .error e) :
    fetchHeader s = .outcome (raise (.formatError (headerCause e)) s) := by
  have hlong : ¬ s.inLen < Config.headerBytes := Nat.not_lt.mpr hlen
  have hseq : Buffer.readSeq s.mem.byteIn 0 Config.headerBytes = some bs := hbs
  simp only [fetchHeader, if_neg hlong, hseq, he]

section
variable (hr : s.resetAsserted = false) (hb : s.status = .busy) (hp : s.phase = .entry)
  (hc : s.running = some .dec ∨ s.running = some .decHdr)
include hr hb hp hc

theorem step_of_short_header (hlen : s.inLen < 14) : step s = .next (s.raised (.formatError .truncated)) := by
  have hshort : s.inLen < Config.headerBytes := hlen
  rw [step_of_header hr hb hp hc, fetchHeader, if_pos hshort, perform_outcome, raise]

theorem step_of_bad_header {bs : List Byte} {e : Reject} (hlen : 14 ≤ s.inLen)
    (hbs : Buffer.readSeq s.mem.byteIn 0 14 = some bs) (he : decodeHeader s.cfg.magic bs = .error e) :
    step s = .next (s.raised (.formatError (headerCause e))) := by
  rw [step_of_header hr hb hp hc, fetchHeader_of_bad_bytes hlen hbs he, perform_outcome, raise]

end

/-- Settles O34: the first step raises the cause of the test that `headerTestsInOrder` says the bytes fail. -/
theorem badHeaderRaisesFormatError : Obligations.BadHeaderRaisesFormatError := by
  intro s hr hb hp hc
  refine ⟨step_of_short_header hr hb hp hc, fun bs hlen hbs => ?_⟩
  obtain ⟨-, htests⟩ := headerTestsInOrder s.cfg.magic bs
  obtain ⟨hmagic, hchannels, hcolorspace, -⟩ := htests (Buffer.readSeq_length hbs).ge
  refine ⟨fun hm => ?magic, fun hm hne3 hne4 => ?channels, fun hm hch hne0 hne1 => ?colorspace⟩
  case magic => exact step_of_bad_header hr hb hp hc hlen hbs (hmagic hm)
  case channels => exact step_of_bad_header hr hb hp hc hlen hbs (hchannels hm hne3 hne4)
  case colorspace => exact step_of_bad_header hr hb hp hc hlen hbs (hcolorspace hm hch hne0 hne1)

/-! ### Which exceptions a step can raise (rules R230 to R238) -/

/-- The exceptions that the running command can raise where it stands (rules R231 to R233). -/
def State.CanRaise (s : State) : Exc → Prop
  | .sizeMismatch => s.running = some .enc ∧ s.phase = .entry
  | .formatError _ => (s.running = some .dec ∨ s.running = some .decHdr) ∧ s.phase = .entry
  | .decodeError => (s.running = some .dec ∨ s.running = some .decBody) ∧ s.phase = .chunks

theorem State.canRaise_decodeError (hd : s.inBody) : s.CanRaise .decodeError :=
  ⟨hd.imp (fun ⟨_, _, hrun⟩ => hrun) fun ⟨_, _, hrun⟩ => hrun, hd.chunks⟩

/-- A chunk that leaves ERROR was cut short (rule R181). -/
theorem exec_chunk_error {i : Instr} (hi : i.space = .body) (h : exec i s = .next t) (hs : s.status ≠ .error)
    (ht : t.status = .error) : t = s.raised .decodeError := by
  rcases exec_chunk_next hi h with ⟨-, -, hraised⟩ | ⟨-, u, ps, rfl | ⟨q, rfl⟩, -, -, p, rfl⟩
  · exact hraised
  · exact absurd ht hs
  · exact absurd ht hs

/-- A step into ERROR takes an exception that the running command can raise where it stands; the reset state is not in ERROR. -/
theorem StepTo.raises (h : StepTo s t) (hs : s.status ≠ .error) (ht : t.status = .error) :
    s.status = .busy ∧ ∃ x, s.CanRaise x ∧ t = s.raised x := by
  cases h with
  | sizeMismatch hb hp hc => exact ⟨hb, .sizeMismatch, ⟨hc, hp⟩, rfl⟩
  | formatError hb hp hc cause => exact ⟨hb, .formatError cause, ⟨hc, hp⟩, rfl⟩
  | decodeError hd => exact ⟨hd.busy, _, State.canRaise_decodeError hd, rfl⟩
  | decChunk _ hd _ _ _ hi _ _ hx =>
    exact ⟨hd.busy, _, State.canRaise_decodeError hd, exec_chunk_error (decodeChunk_space hi) hx hs ht⟩
  | waits | hostWrites | nop | encEntry | bodyEntry | decEntry => exact absurd ht hs
  | encChunk => exact absurd (by simpa using ht) hs
  | reset | starts | encHdr | decHdr | ends => cases ht

/-- The four codes of a FormatError (rule R235). -/
theorem errCode_formatError (cause : FormatCause) :
    errCode (.formatError cause) = 0x05 ∨ errCode (.formatError cause) = 0x09 ∨ errCode (.formatError cause) = 0x0D ∨
      errCode (.formatError cause) = 0x11 := by
  cases cause <;> decide

/-- Settles O46: a step into ERROR leaves `raised x`, and the exception `x` gives the code. -/
theorem onlyTheRuledExceptions : Obligations.OnlyTheRuledExceptions := by
  intro s t _ hstep hs ht
  obtain ⟨hb, x, hx, rfl⟩ := (step_next hstep).raises hs ht
  refine ⟨hb, rfl, ?_⟩
  cases x with
  | sizeMismatch => exact .inl ⟨hx.1, hx.2, rfl⟩
  | formatError cause => exact .inr (.inl ⟨hx.1, hx.2, errCode_formatError cause⟩)
  | decodeError => exact .inr (.inr ⟨hx.1, hx.2, rfl⟩)

/-! ### An engine that waits (rule R248) -/

/-- Settles O3: an engine that is not BUSY gives the turn to the host, which has no move. -/
theorem engineWaitsForTheHost : Obligations.EngineWaitsForTheHost := by
  intro s hr hb hm
  rw [step_of_not_busy hr hb, hostTurn, hm, perform_outcome]

end Sys2Proof.Machine
end
section
/-! Proofs of O2 and O36: what an asserted reset leaves, and the entry action of DEC_BODY. -/

namespace Sys2Proof.Machine

variable {s : State}

/-! ### Reset asserted (rules R37, R260) -/

/-- The host's moves to come and the parameters are all that an asserted reset leaves of the state before it. -/
theorem State.hardwareReset_eq_reset (s : State) :
    { s.hardwareReset with hostMoves := [], cfg := Config.standard } = State.reset := rfl

/-- Settles O2: reset is looked at before STATUS, so the step leaves `hardwareReset` whatever ran. -/
theorem assertedResetAbandonsAnyState : Obligations.AssertedResetAbandonsAnyState :=
  fun s hr => ⟨s.hardwareReset, step_of_reset hr, s.hardwareReset_hostMoves, s.hardwareReset_cfg, s.hardwareReset_eq_reset⟩

/-! ### The entry action of DEC_BODY (rules R213, R261) -/

theorem step_of_decBodyEntry (hr : s.resetAsserted = false) (hb : s.status = .busy) (hp : s.phase = .entry)
    (hc : s.running = some .decBody) : step s = .next s.initialised := by
  rw [step_of_entry hr hb hp, entryAction, hc, perform_outcome]

/-- Settles O36: the state that the statement writes out is `initialised`, the per-invocation initialisation. -/
theorem decBodyStartsFresh : Obligations.DecBodyStartsFresh :=
  fun _ => step_of_decBodyEntry

end Sys2Proof.Machine
end
